-- ==== Sys2Proof/Word.lean ====
section
/-! DEFINITION. The widths of rule R8 (00_scope.md) as names: u8, u16, u32 and the 96-bit command header. -/

namespace Sys2Proof

/-- `u8`: the unit of the Register Image (R42), a mask, a `STATUS` code. -/
abbrev Byte := BitVec 8

/-- `u16`: an offset field, an address-class, a device register address (R8, R40). -/
abbrev Half := BitVec 16

/-- `u32`: a wide mask or value, a byte-size, options, a timeout, `RES` (R8). -/
abbrev Word := BitVec 32

/-- The 96 bits of a command header (R70). -/
abbrev HeaderBits := BitVec 96

end Sys2Proof
end

