-- ==== Sys2Proof/Machine/Transport.lean ====
section
/-! DEFINITION. The transport port as the block sees it: the seven transactions of rule R51 (20_memory.md), their
answers, and what makes an answer a legal one. -/

namespace Sys2Proof.Machine

/-- The selector of a register access (R40, R57): `EEPROM` exists on the port, no command of the block uses it. -/
inductive Space where
  | reg
  | eeprom
deriving DecidableEq, Repr, Inhabited

/-- The direction of an enabled transfer (R51, R54). -/
inductive Dir where
  | rd
  | wr
deriving DecidableEq, Repr, Inhabited

/-- One transaction on the transport port (R51). -/
inductive Transaction where
  | regRead (space : Space) (addr : Half) (n : Nat)
  | regWrite (space : Space) (addr : Half) (bytes : List Byte)
  | dmaReset
  | dmaCancel
  | dmaEnable (dir : Dir) (cls : Half) (words : Nat) (options : Word)
  | bulkOut (bytes : List Byte)
  | bulkIn (n : Nat)
deriving DecidableEq, Repr, Inhabited

/-- The environment's answer (R50): `fail`, or `ok` with the bytes moved and the bytes returned. A transaction whose row
in R51 carries less leaves the rest at 0 and empty. -/
inductive Reply where
  | fail
  | ok (moved : Nat) (bytes : List Byte)
deriving DecidableEq, Repr, Inhabited

/-- Is the answer `fail`? -/
def Reply.failed : Reply → Bool
  | .fail => true
  | .ok _ _ => false

/-- The bytes moved that an `ok` reports (`r.m` of R121). -/
def Reply.moved : Reply → Nat
  | .fail => 0
  | .ok m _ => m

/-- The bytes an `ok` carries (`r.bytes` of R118, R121). -/
def Reply.bytes : Reply → List Byte
  | .fail => []
  | .ok _ bs => bs

/-- The legal answers of each transaction, as the `ok carries` column of R51 states them. -/
def Reply.legal (tx : Transaction) : Reply → Bool
  | .fail => true
  | .ok m bs =>
    match tx with
    | .regRead _ _ n => bs.length == n && m == n
    | .bulkOut out => decide (m ≤ out.length) && bs.isEmpty
    | .bulkIn n => decide (bs.length ≤ n) && m == bs.length
    | .regWrite _ _ _ | .dmaReset | .dmaCancel | .dmaEnable _ _ _ _ => m == 0 && bs.isEmpty

/-- The legal answer that a raw answer stands for: a legal one stands for itself, and any other is cut (or filled up) to
the sizes R51 allows. DESIGN CHOICE (notes/assumptions/6.md), safe: the environment stays free over exactly the
legal answers. -/
def Transaction.fit (tx : Transaction) : Reply → Reply
  | .fail => .fail
  | .ok m bs =>
    match tx with
    | .regRead _ _ n => .ok n ((bs ++ List.replicate n 0).take n)
    | .bulkOut out => .ok (min m out.length) []
    | .bulkIn n => .ok (bs.take n).length (bs.take n)
    | .regWrite _ _ _ | .dmaReset | .dmaCancel | .dmaEnable _ _ _ _ => .ok 0 []

end Sys2Proof.Machine
end

