-- ==== Sys2Proof/Config.lean ====
section
/-! DEFINITION. The constants the source fixes (R5, R6 of 00_scope.md), the record CFG of the parameters it leaves open
(R7, R27), the parameters' free values at reset, and the free values that stand for the environment (R28, R50). -/

namespace Sys2Proof.Config

open Sys2Proof.Machine

/-! Identity strings (R1, R2). -/

/-- The device family the block talks to (R2). -/
def deviceFamily : String := "RTS8822-family"
/-- The origin of the source (R2). -/
def origin : String := "dvkch/Backlit#sub004"
/-- The edition of the source as its requester names it (R2). -/
def edition : String := "v7"
/-- The version of the command encoding (R2, R75). -/
def encodingVersion : Nat := 1

/-! Constants of R5: taken from a source whose literals are unaudited (R6), so each is named once, here. -/

/-- `RI_SIZE`: bytes in the Register Image. -/
abbrev riSize : Nat := 1818
/-- `INT_N_MIN`: the smallest byte count of an integer access. -/
abbrev intNMin : Nat := 1
/-- `INT_N_MAX`: the largest byte count of an integer access. -/
abbrev intNMax : Nat := 4
/-- `WIDE_ATTESTED_BITS`: the widest wide field the source attests, in bits; no rule of the block uses it. -/
def wideAttestedBits : Nat := 20
/-- `WIDE_ATTESTED_BYTES`: the widest wide field the source attests, in bytes; no rule of the block uses it. -/
def wideAttestedBytes : Nat := 3
/-- `WRITE_ATTEMPTS`: attempts of a self-verifying Write. -/
def writeAttempts : Nat := 10
/-- `DET_LEN`: bytes of the detection pattern. -/
abbrev detLen : Nat := 2072
/-- `REF_LEN`: bytes of the refinement pattern. -/
abbrev refLen : Nat := 32
/-- `PROBES`: the values of the doubling probe counter. -/
def probes : List Byte := [1, 2, 4, 8, 16, 32, 64, 128]
/-- The number of probes. -/
abbrev probeCount : Nat := probes.length
/-- `RAMTYPE_CODES`: the candidate RAM-type codes, descending from the largest. -/
def ramtypeCodes : List (BitVec 3) := [4, 3, 2, 1, 0]
/-- The number of candidate codes. -/
abbrev codeCount : Nat := ramtypeCodes.length
/-- The largest RAM-type code, and the largest size class (R7, R14). -/
abbrev lastCode : Nat := ramtypeCodes.foldl (fun m k => max m k.toNat) 0
/-- `REQTYPE_READ`: the request type of a control read. -/
def reqtypeRead : Byte := 0xC0
/-- `REQTYPE_WRITE`: the request type of a control write. -/
def reqtypeWrite : Byte := 0x40

/-! Shapes of the constrained parameters. -/

/-- Exactly one bit set: the constraint on `RDY_MASK` (R7). -/
def oneBit (m : Byte) : Bool := (List.range 8).countP (fun i => m.getLsbD i) == 1

/-- At least three contiguous set bits starting at the lowest set bit: the constraint on `RAMTYPE_MASK` (R7, spelled out
in 92_eei_decisions.md section 2), which lets the codes 0 to 4 round-trip through the field. -/
def holdsCodes (m : Byte) : Bool :=
  (List.range 6).any fun p =>
    m.getLsbD p && m.getLsbD (p + 1) && m.getLsbD (p + 2) && (List.range p).all fun q => !m.getLsbD q

/-- What CFG says of one refinement probe `p`: `REF_PATTERN(p)` and the descriptors `REF_WDESC(p)`, `REF_RDESC(p)`, whose
size is `REF_LEN` by R7. -/
structure RefStep where
  pattern : Vector Byte refLen
  wCls : Half
  wOptions : Word
  rCls : Half
  rOptions : Word
deriving DecidableEq, Repr, Inhabited

/-- Bytes of a dma-enable payload (R7). -/
abbrev payloadLen : Nat := 6

/-- One entry of `ENABLE_PAYLOAD` (R7): the payload of a dma-enable with these arguments. -/
structure PayloadRow where
  cls : Half
  words : Nat
  options : Word
  payload : Vector Byte payloadLen
deriving DecidableEq, Repr, Inhabited

/-- The function `ENABLE_PAYLOAD(class, words, options)` of R7 as plain data: its entries, and its value everywhere else.
Its arguments are finitely many, so every such function is a table (notes/assumptions/8.md). -/
structure PayloadTable where
  rows : List PayloadRow
  other : Vector Byte payloadLen
deriving DecidableEq, Repr, Inhabited

/-- The static configuration `CFG` (R27): every parameter of R7, with the constraints of its type column carried by the
types, so that a record that breaks one cannot be written (U19). Functions are tables. -/
structure Cfg where
  maxXfer : { n : Nat // 1 ≤ n }
  pollMs : { n : Nat // 1 ≤ n }
  rdyAddr : Half
  rdyMask : { m : Byte // oneBit m = true }
  ramtypeOff : Fin riSize
  ramtypeMask : { m : Byte // holdsCodes m = true }
  ramtypeAddr : Half
  detCls : Half
  detOptions : Word
  detTimeout : Word
  detPattern : Vector Byte detLen
  /-- one entry per probe, in the order of `probes` -/
  refSteps : Vector RefStep probeCount
  /-- row: the accepted code from 0 up; column: the matching probe in the order of `probes`, the last for `none` -/
  refineTable : Vector (Vector (Fin (lastCode + 1)) (probeCount + 1)) (lastCode + 1)
  reqCode : Byte
  idxReg : Half
  idxEeprom1 : Half
  idxEeprom2 : Half
  idxDmaReset : Half
  idxDmaCancel : Half
  idxDmaEnrd : Half
  idxDmaEnwr : Half
  enablePayload : PayloadTable
  riInit : Vector Byte riSize
deriving DecidableEq, Repr

/-- `DET_PATTERN`'s default (R7, decision D21): ascending byte values, `i mod 256`. -/
def detPatternDefault : Vector Byte detLen := Vector.ofFn fun i => BitVec.ofNat 8 i.val

/-! The parameters of the instance after reset: free values, one per parameter of R7 (notes/assumptions/8.md). Where R7
constrains a parameter, the free value is one from which every legal parameter, and only legal ones, can be made. -/

/-- `MAX_XFER - 1`. -/
opaque maxXferLessOne : Nat
/-- `POLL_MS - 1`. -/
opaque pollMsLessOne : Nat
opaque rdyAddr : Half
/-- The number of the one bit of `RDY_MASK`. -/
opaque rdyBit : Fin 8
opaque ramtypeOff : Fin riSize
/-- The lowest set bit of `RAMTYPE_MASK`. -/
opaque ramtypeLow : Fin 6
/-- The bits of `RAMTYPE_MASK` above its lowest three. -/
opaque ramtypeUpper : Byte
opaque ramtypeAddr : Half
opaque detCls : Half
opaque detOptions : Word
opaque detTimeout : Word
opaque detPattern : Vector Byte detLen
opaque refSteps : Vector RefStep probeCount
opaque refineTable : Vector (Vector (Fin (lastCode + 1)) (probeCount + 1)) (lastCode + 1)
opaque reqCode : Byte
opaque idxReg : Half
opaque idxEeprom1 : Half
opaque idxEeprom2 : Half
opaque idxDmaReset : Half
opaque idxDmaCancel : Half
opaque idxDmaEnrd : Half
opaque idxDmaEnwr : Half
opaque enablePayload : PayloadTable
/-- `RI_INIT`: the contents of the Register Image after the first reset (R32, R192). -/
opaque riInit : Vector Byte riSize

/-- A byte with one bit set, for each bit number. -/
def bitMask (i : Fin 8) : Byte := 1#8 <<< i.val

theorem oneBit_bitMask : ∀ i : Fin 8, oneBit (bitMask i) = true := by decide

/-- The mask with three set bits from `low` up and the bits of `upper` above them. -/
def codeMask (low : Fin 6) (upper : Byte) : Byte := (7#8 <<< low.val) ||| (upper <<< (low.val + 3))

theorem holdsCodes_codeMask : ∀ (low : Fin 6) (upper : Byte), holdsCodes (codeMask low upper) = true := by
  decide +kernel

/-- The configuration the instance was strapped with (R32): nothing is known of it but that it is a legal one. -/
def strapped : Cfg where
  maxXfer := ⟨maxXferLessOne + 1, Nat.le_add_left 1 maxXferLessOne⟩
  pollMs := ⟨pollMsLessOne + 1, Nat.le_add_left 1 pollMsLessOne⟩
  rdyAddr := rdyAddr
  rdyMask := ⟨bitMask rdyBit, oneBit_bitMask rdyBit⟩
  ramtypeOff := ramtypeOff
  ramtypeMask := ⟨codeMask ramtypeLow ramtypeUpper, holdsCodes_codeMask ramtypeLow ramtypeUpper⟩
  ramtypeAddr := ramtypeAddr
  detCls := detCls
  detOptions := detOptions
  detTimeout := detTimeout
  detPattern := detPattern
  refSteps := refSteps
  refineTable := refineTable
  reqCode := reqCode
  idxReg := idxReg
  idxEeprom1 := idxEeprom1
  idxEeprom2 := idxEeprom2
  idxDmaReset := idxDmaReset
  idxDmaCancel := idxDmaCancel
  idxDmaEnrd := idxDmaEnrd
  idxDmaEnwr := idxDmaEnwr
  enablePayload := enablePayload
  riInit := riInit

/-! Free values of the environment. -/

/-- The environment (R50): its raw answer to a transaction may depend on the whole history of transactions and answers.
No rule fixes any of it. -/
opaque env : List (Transaction × Reply) → Transaction → Reply

/-- The input `SCRATCH_AVAIL` (R28, R134), sampled at the start of a Write; it too may depend on the history. -/
opaque scratchAvail : List (Transaction × Reply) → Bool

end Sys2Proof.Config
end

