-- ==== Sys2Proof/Syntax.lean ====
section
/-! DEFINITION. The eighteen commands of rule R72 (30_encoding.md) with their operands, and the pseudo-commands of R81. -/

namespace Sys2Proof

/-- A command with its operands as rules R71 to R73 give them. `nm1` is the operand `N-1` of an integer command. The
payload of BULKWR and DMAWRITE is part of the command (R76). -/
inductive Instr where
  | bfget (off : Half) (mask : Byte)
  | bfset (off : Half) (mask val : Byte)
  | wbfset (off : Half) (mask val : Word)
  | getle (nm1 : BitVec 2) (off : Half)
  | getbe (nm1 : BitVec 2) (off : Half)
  | setle (nm1 : BitVec 2) (off : Half) (val : Word)
  | setbe (nm1 : BitVec 2) (off : Half) (val : Word)
  | dmareset
  | dmaenrd (cls : Half) (size options : Word)
  | dmaenwr (cls : Half) (size options : Word)
  | dmacancel
  | dmawait (timeout : Word)
  | bulkrd (n : Word)
  | bulkwr (n : Word) (payload : List Byte)
  | dmaread (cls : Half) (size options : Word)
  | dmawrite (cls : Half) (size options : Word) (payload : List Byte)
  | settype (code : BitVec 3)
  | detect
deriving DecidableEq, Repr

/-! The pseudo-commands, each an exact alias of one command (R81). -/

/-- `GETB off` is `GETLE off, 1`. -/
def Instr.getb (off : Half) : Instr := .getle 0 off
/-- `SETB off, val` is `SETLE off, 1, val`. -/
def Instr.setb (off : Half) (val : Word) : Instr := .setle 0 off val
/-- `GETW.L off` is `GETLE off, 2`. -/
def Instr.getwL (off : Half) : Instr := .getle 1 off
/-- `GETW.M off` is `GETBE off, 2`. -/
def Instr.getwM (off : Half) : Instr := .getbe 1 off
/-- `SETW.L off, val` is `SETLE off, 2, val`. -/
def Instr.setwL (off : Half) (val : Word) : Instr := .setle 1 off val
/-- `SETW.M off, val` is `SETBE off, 2, val`. -/
def Instr.setwM (off : Half) (val : Word) : Instr := .setbe 1 off val
/-- `GETD.L off` is `GETLE off, 4`. -/
def Instr.getdL (off : Half) : Instr := .getle 3 off
/-- `GETD.M off` is `GETBE off, 4`. -/
def Instr.getdM (off : Half) : Instr := .getbe 3 off
/-- `SETD.L off, val` is `SETLE off, 4, val`. -/
def Instr.setdL (off : Half) (val : Word) : Instr := .setle 3 off val
/-- `SETD.M off, val` is `SETBE off, 4, val`. -/
def Instr.setdM (off : Half) (val : Word) : Instr := .setbe 3 off val

end Sys2Proof
end

