-- ==== Sys2Proof/WellFormed.lean ====
section
/-! DEFINITION. When a command is well formed. Every operand fits its field by its type; what is left is rule R76
(30_encoding.md): a payload has exactly the length its header announces. -/

namespace Sys2Proof

/-- The payload length a command announces (R76): `B` bytes for BULKWR and DMAWRITE, none otherwise. -/
def Instr.payloadLength : Instr → Nat
  | .bulkwr n _ => n.toNat
  | .dmawrite _ size _ _ => size.toNat
  | .bfget _ _ | .bfset _ _ _ | .wbfset _ _ _ | .getle _ _ | .getbe _ _ | .setle _ _ _ | .setbe _ _ _ => 0
  | .dmareset | .dmaenrd _ _ _ | .dmaenwr _ _ _ | .dmacancel | .dmawait _ | .bulkrd _ => 0
  | .dmaread _ _ _ | .settype _ | .detect => 0

/-- The payload a command carries. -/
def Instr.payload : Instr → List Byte
  | .bulkwr _ payload => payload
  | .dmawrite _ _ _ payload => payload
  | .bfget _ _ | .bfset _ _ _ | .wbfset _ _ _ | .getle _ _ | .getbe _ _ | .setle _ _ _ | .setbe _ _ _ => []
  | .dmareset | .dmaenrd _ _ _ | .dmaenwr _ _ _ | .dmacancel | .dmawait _ | .bulkrd _ => []
  | .dmaread _ _ _ | .settype _ | .detect => []

/-- A command is well formed when its payload has the length its header announces (R76). -/
def Instr.wellFormed (i : Instr) : Bool := i.payload.length == i.payloadLength

/-- `Instr.wellFormed` as a proposition. -/
abbrev WellFormed (i : Instr) : Prop := i.wellFormed = true

end Sys2Proof
end

