-- ==== Sys2Proof/Decode.lean ====
section
/-! DEFINITION. The command encoding of 30_encoding.md: the header's fields (R70), the opcode map with its fixed bits (R72),
the total decoder (R74 to R76) and the encoder. -/

namespace Sys2Proof

/-- The five fields of a header (R70). -/
structure Header where
  op : Byte
  ax : Byte
  ao : Half
  b : Word
  c : Word
deriving DecidableEq, Repr

/-- `OP = H[95:88]`, `AX = H[87:80]`, `AO = H[79:64]`, `B = H[63:32]`, `C = H[31:0]` (R70). -/
def Header.ofBits (w : HeaderBits) : Header where
  op := w.extractLsb' 88 8
  ax := w.extractLsb' 80 8
  ao := w.extractLsb' 64 16
  b := w.extractLsb' 32 32
  c := w.extractLsb' 0 32

/-- The header's bits, most significant field first (R70). -/
def Header.bits (h : Header) : HeaderBits := h.op ++ h.ax ++ h.ao ++ h.b ++ h.c

/-- A command as it comes over the command port: a header and a payload (R70, R76). -/
structure Command where
  header : HeaderBits
  payload : List Byte
deriving DecidableEq, Repr

/-- The eighteen operations of the opcode map (R72). -/
inductive Op where
  | bfget | bfset | wbfset | getle | getbe | setle | setbe
  | dmareset | dmaenrd | dmaenwr | dmacancel | dmawait | bulkrd | bulkwr
  | dmaread | dmawrite | settype | detect
deriving DecidableEq, Repr

/-- All rows of the opcode map, in its order. -/
def Op.all : List Op :=
  [.bfget, .bfset, .wbfset, .getle, .getbe, .setle, .setbe,
   .dmareset, .dmaenrd, .dmaenwr, .dmacancel, .dmawait, .bulkrd, .bulkwr,
   .dmaread, .dmawrite, .settype, .detect]

/-- The `OP` column of R72. -/
def Op.code : Op → Byte
  | .bfget => 0x01
  | .bfset => 0x02
  | .wbfset => 0x03
  | .getle => 0x04
  | .getbe => 0x05
  | .setle => 0x06
  | .setbe => 0x07
  | .dmareset => 0x10
  | .dmaenrd => 0x11
  | .dmaenwr => 0x12
  | .dmacancel => 0x13
  | .dmawait => 0x14
  | .bulkrd => 0x15
  | .bulkwr => 0x16
  | .dmaread => 0x18
  | .dmawrite => 0x19
  | .settype => 0x1A
  | .detect => 0x1B

/-- The operation of an `OP` value, none where R75 leaves the value unassigned. -/
def Op.ofCode (c : Byte) : Option Op := Op.all.find? fun op => op.code == c

/-- The `fixed bits` column of R72: the bits of the fields other than `OP` that must be 0, set here to 1. -/
def Op.fixed (op : Op) : Header :=
  match op with
  | .bfget => ⟨0, 0xFF, 0, 0xFFFFFF00, 0xFFFFFFFF⟩
  | .bfset => ⟨0, 0xFF, 0, 0xFFFFFF00, 0xFFFFFF00⟩
  | .wbfset => ⟨0, 0xFF, 0, 0, 0⟩
  | .getle | .getbe => ⟨0, 0xFC, 0, 0xFFFFFFFF, 0xFFFFFFFF⟩
  | .setle | .setbe => ⟨0, 0xFC, 0, 0xFFFFFFFF, 0⟩
  | .dmareset | .dmacancel | .detect => ⟨0, 0xFF, 0xFFFF, 0xFFFFFFFF, 0xFFFFFFFF⟩
  | .dmaenrd | .dmaenwr | .dmaread | .dmawrite => ⟨0, 0xFF, 0, 0, 0⟩
  | .dmawait | .bulkrd | .bulkwr => ⟨0, 0xFF, 0xFFFF, 0, 0xFFFFFFFF⟩
  | .settype => ⟨0, 0xF8, 0xFFFF, 0xFFFFFFFF, 0xFFFFFFFF⟩

/-- Are all the bits that `mask` marks 0 in `h`? -/
def Header.clear (mask h : Header) : Bool :=
  (h.op &&& mask.op) == 0 && (h.ax &&& mask.ax) == 0 && (h.ao &&& mask.ao) == 0
    && (h.b &&& mask.b) == 0 && (h.c &&& mask.c) == 0

/-- The command an operation's operand fields spell (R71 to R73). -/
def Op.build (op : Op) (h : Header) (payload : List Byte) : Instr :=
  match op with
  | .bfget => .bfget h.ao (h.b.setWidth 8)
  | .bfset => .bfset h.ao (h.b.setWidth 8) (h.c.setWidth 8)
  | .wbfset => .wbfset h.ao h.b h.c
  | .getle => .getle (h.ax.setWidth 2) h.ao
  | .getbe => .getbe (h.ax.setWidth 2) h.ao
  | .setle => .setle (h.ax.setWidth 2) h.ao h.c
  | .setbe => .setbe (h.ax.setWidth 2) h.ao h.c
  | .dmareset => .dmareset
  | .dmaenrd => .dmaenrd h.ao h.b h.c
  | .dmaenwr => .dmaenwr h.ao h.b h.c
  | .dmacancel => .dmacancel
  | .dmawait => .dmawait h.b
  | .bulkrd => .bulkrd h.b
  | .bulkwr => .bulkwr h.b payload
  | .dmaread => .dmaread h.ao h.b h.c
  | .dmawrite => .dmawrite h.ao h.b h.c payload
  | .settype => .settype (h.ax.setWidth 3)
  | .detect => .detect

/-- The payload length, a function of the header alone: `B` bytes when `OP` is 0x16 or 0x19, whatever the other fields
are, and 0 otherwise (R76). -/
def payloadLength (w : HeaderBits) : Nat :=
  let h := Header.ofBits w
  if h.op = 0x16 ∨ h.op = 0x19 then h.b.toNat else 0

/-- Why a header is illegal: the cases (a) and (b) of R74. -/
inductive Illegal where
  | unassignedOp
  | fixedBit
deriving DecidableEq, Repr

/-- What decoding gives: a command, an illegal header (which the block answers, R74), or a pair that is not a command at
all because its payload has the wrong length (R76). -/
inductive Decoded where
  | instr (i : Instr)
  | illegal (why : Illegal)
  | notCommand
deriving DecidableEq, Repr

/-- Decoding a header whose payload stands beside it (R72, R74): total on all 2^96 values. -/
def decodeHeader (w : HeaderBits) (payload : List Byte) : Decoded :=
  let h := Header.ofBits w
  match Op.ofCode h.op with
  | none => .illegal .unassignedOp
  | some op => if Header.clear op.fixed h then .instr (op.build h payload) else .illegal .fixedBit

/-- Decoding a (header, payload) pair: the pair must be a command (R76), then the header must be legal (R74). -/
def decode (c : Command) : Decoded :=
  if c.payload.length = payloadLength c.header then decodeHeader c.header c.payload else .notCommand

/-! The encoder, from the same rules. -/

/-- The operation a command is an instance of. -/
def Instr.op : Instr → Op
  | .bfget _ _ => .bfget
  | .bfset _ _ _ => .bfset
  | .wbfset _ _ _ => .wbfset
  | .getle _ _ => .getle
  | .getbe _ _ => .getbe
  | .setle _ _ _ => .setle
  | .setbe _ _ _ => .setbe
  | .dmareset => .dmareset
  | .dmaenrd _ _ _ => .dmaenrd
  | .dmaenwr _ _ _ => .dmaenwr
  | .dmacancel => .dmacancel
  | .dmawait _ => .dmawait
  | .bulkrd _ => .bulkrd
  | .bulkwr _ _ => .bulkwr
  | .dmaread _ _ _ => .dmaread
  | .dmawrite _ _ _ _ => .dmawrite
  | .settype _ => .settype
  | .detect => .detect

/-- The operand fields of a command, zero-extended into their header fields (R71, R73). -/
def Instr.fields (i : Instr) : Header :=
  let op := i.op.code
  match i with
  | .bfget off mask => ⟨op, 0, off, mask.setWidth 32, 0⟩
  | .bfset off mask val => ⟨op, 0, off, mask.setWidth 32, val.setWidth 32⟩
  | .wbfset off mask val => ⟨op, 0, off, mask, val⟩
  | .getle nm1 off | .getbe nm1 off => ⟨op, nm1.setWidth 8, off, 0, 0⟩
  | .setle nm1 off val | .setbe nm1 off val => ⟨op, nm1.setWidth 8, off, 0, val⟩
  | .dmareset | .dmacancel | .detect => ⟨op, 0, 0, 0, 0⟩
  | .dmaenrd cls size options | .dmaenwr cls size options | .dmaread cls size options => ⟨op, 0, cls, size, options⟩
  | .dmawrite cls size options _ => ⟨op, 0, cls, size, options⟩
  | .dmawait timeout => ⟨op, 0, 0, timeout, 0⟩
  | .bulkrd n => ⟨op, 0, 0, n, 0⟩
  | .bulkwr n _ => ⟨op, 0, 0, n, 0⟩
  | .settype code => ⟨op, code.setWidth 8, 0, 0, 0⟩

/-- The header and payload of a command. -/
def encode (i : Instr) : Command := ⟨i.fields.bits, i.payload⟩

/-! The host's probe. -/

/-- The command whose header is the low `nbits` bits of `w`, numbered as the opcode table numbers them (bit 0 is the
header's least significant bit), every other bit 0, with a payload of as many zero bytes as the header announces. -/
def tableCommand (nbits w : Nat) : Command :=
  let header := BitVec.ofNat 96 (w % 2 ^ nbits)
  ⟨header, List.replicate (payloadLength header) 0⟩

/-- What the decoder reads from that command. -/
def decodeTableWord (nbits w : Nat) : Option Instr :=
  match decode (tableCommand nbits w) with
  | .instr i => some i
  | .illegal _ => none
  | .notCommand => none

end Sys2Proof
end

