-- ==== Sys2Proof/Machine/State.lean ====
section
/-! DEFINITION. The state of the block as 10_state.md gives it (R10 to R27), the model's own fields for what the host and
the environment put in and see (R28, R31), the reasons a step can stop, and the state after reset (R32). -/

namespace Sys2Proof.Machine

/-- The status codes by name (R160 of 60_exceptions.md). -/
inductive Status where
  | ok
  | timeout
  | transportFailure
  /-- an internal event of the Write procedure, never in `STATUS` (R164) -/
  | verifyMismatch
  /-- out of scope, never in `STATUS` (R160) -/
  | capabilityAbsent
  /-- out of scope, never in `STATUS` (R160) -/
  | calibrationOutOfRange
  /-- out of scope, never in `STATUS` (R160) -/
  | cancelled
  | illegalCommand
  | boundsFault
  | badOperand
  | sequenceFault
  | initFatal
deriving DecidableEq, Repr

/-- The 8-bit code of a status (R160). -/
def Status.code : Status → Byte
  | .ok => 0
  | .timeout => 1
  | .transportFailure => 2
  | .verifyMismatch => 3
  | .capabilityAbsent => 4
  | .calibrationOutOfRange => 5
  | .cancelled => 6
  | .illegalCommand => 8
  | .boundsFault => 9
  | .badOperand => 10
  | .sequenceFault => 11
  | .initFatal => 12

/-- `DSTATE`: what the block last told the device's DMA unit (R21). -/
inductive DState where
  | idle
  | armedRd
  | armedWr
deriving DecidableEq, Repr

/-- The coding of `DSTATE` (R21). -/
def DState.code : DState → Nat
  | .idle => 0
  | .armedRd => 1
  | .armedWr => 2

/-- A DMA Transfer Descriptor (R22): address-class, byte-size, options. -/
structure Desc where
  cls : Half
  size : Word
  options : Word
deriving DecidableEq, Repr

/-- The descriptor `DESC` holds when nothing is set up: all zeros (R22). -/
def Desc.zero : Desc := ⟨0, 0, 0⟩

/-- The sequencer's labels (R20), but for `S_IDLE`, which is `Seq.idle`. -/
inductive Label where
  | codec
  | prim
  | bulk
  | wtPoll
  | rdReset | rdEnable | rdData
  | wrReset | wrEnable | wrData | wrVenable | wrVdata | wrCompare | wrCancel | wrReenable
  | stField | stPush
  | dtSettype | dtWait | dtReset | dtWrite | dtRead | dtCompare
  | dtRefWrite | dtRefRead | dtRefCompare | dtEncode | dtFinal
deriving DecidableEq, Repr

/-- `SEQ` (R20): `S_IDLE` between commands, a label inside a command, two labels where a composite has called another
procedure. -/
inductive Seq where
  | idle
  | one (label : Label)
  | two (outer inner : Label)
deriving DecidableEq, Repr

/-- One transaction as an observer of the transport port sees it (R31), with the sequencer's point that issued it. -/
structure Event where
  point : Seq
  tx : Transaction
  reply : Reply
deriving DecidableEq, Repr

/-- The part of an event that lies on the port. -/
def Event.exchange (e : Event) : Transaction × Reply := (e.tx, e.reply)

/-- A response (R77). -/
structure Response where
  status : Status
  res : Word
  dout : List Byte
deriving DecidableEq, Repr

/-- What the host can do to the block (R178). A reset brings the contents the Register Image has after it (R32). -/
inductive HostInput where
  | command (c : Command)
  | reset (image : Vector Byte Config.riSize)
  /-- the command is sent, and reset strikes when `n` of its transactions have been answered (R190, U26);
  one issued and not yet answered then is forgotten (notes/assumptions/24.md) -/
  | resetDuring (c : Command) (n : Nat) (image : Vector Byte Config.riSize)
deriving DecidableEq, Repr

/-- The machine's state: the block's own state (R10 to R27), then the model's fields for inputs and observations. -/
structure State where
  /-- `CFG` (R27) -/
  cfg : Config.Cfg
  /-- `RI` (R10): the bytes that differ from `cfg.riInit`, addresses strictly rising -/
  ri : List Host.Cell
  /-- `STATUS` (R16) -/
  status : Status
  /-- `RES` (R17) -/
  res : Word
  /-- `DOUT` (R18) -/
  dout : List Byte
  /-- `SEQ` (R20) -/
  seq : Seq
  /-- `DSTATE` (R21) -/
  dstate : DState
  /-- `DESC` (R22) -/
  desc : Desc
  /-- `REMAIN` (R23) -/
  remain : Word
  /-- `ATTEMPT` (R24) -/
  attempt : Nat
  /-- `POLLS` (R25) -/
  polls : Word
  /-- `CAND` (R25) -/
  cand : BitVec 3
  /-- `PROBE` (R25) -/
  probe : Byte
  /-- `SCRATCH` (R26): none when it does not exist -/
  scratch : Option (List Byte)
  /-- input: what the host does next, in order (R19, R178) -/
  host : List HostInput
  /-- input: the environment's next answers, in order (R28 a, R50) -/
  replies : List Reply
  /-- input: the next samples of `SCRATCH_AVAIL`, in order (R28 b, R134) -/
  avails : List Bool
  /-- observation: the transactions issued and their answers, oldest first (R31, R60) -/
  trace : List Event
  /-- observation: the responses given, oldest first (R31, R77) -/
  responses : List Response
deriving DecidableEq, Repr

/-- The reasons a step stops with a fault. -/
inductive Fault where
  /-- Raised by `step` in a state whose `SEQ` is not `S_IDLE`: a command would be in progress between two steps, which no
  run reaches, because a command is one step here (notes/assumptions/1.md and 16.md). Safe. -/
  | busy
deriving DecidableEq, Repr

/-- The reasons a step refuses. -/
inductive Refusal where
  /-- Raised by `exec` for an instruction that has no meaning yet. Safe. -/
  | notModelled (mnemonic : String)
  /-- Raised by `step` for a (header, payload) pair whose payload has not the length the header announces: it is refused
  at the boundary and is not a command (R76, U23; notes/assumptions/15.md). Safe. -/
  | payloadLength
deriving DecidableEq, Repr

/-- The block with every register at its value after reset (R32), under a configuration, with inputs and observations
as given. `RI` lists nothing: every byte reads as `RI_INIT`. -/
def State.afterReset (cfg : Config.Cfg) (host : List HostInput) (replies : List Reply) (avails : List Bool)
    (trace : List Event) (responses : List Response) : State where
  cfg := cfg
  ri := []
  status := .ok
  res := 0
  dout := []
  seq := .idle
  dstate := .idle
  desc := Desc.zero
  remain := 0
  attempt := 0
  polls := 0
  cand := 0
  probe := 0
  scratch := none
  host := host
  replies := replies
  avails := avails
  trace := trace
  responses := responses

/-- The machine right after its first reset (R32), with nothing sent, no answer at hand and nothing observed yet. -/
def State.reset : State := State.afterReset Config.strapped [] [] [] [] []

end Sys2Proof.Machine
end

