-- ==== Sys2Proof/Machine/Flags.lean ====
section
/-! DEFINITION. The conditions the block tests. Its only flag is `STATUS` (R16): a transaction's answer becomes a status
(R111, R163), and WaitReady tests the readiness bit (R118). -/

namespace Sys2Proof.Machine

/-- The status of a step that is one transaction: `TransportFailure` on `fail`, else `OK` (R111, R113, R115, R139). -/
def Reply.status (r : Reply) : Status := if r.failed then .transportFailure else .ok

/-- The readiness bit is set when the polled byte ANDed with `RDY_MASK` is not zero (R118). -/
def ready (cfg : Config.Cfg) (r : Reply) : Bool := (r.bytes.headD 0 &&& cfg.rdyMask.val) != 0

end Sys2Proof.Machine
end

