-- ==== Sys2Proof/Machine/Operands.lean ====
section
/-! DEFINITION. What the commands compute from their operands: the field arithmetic of the codec (R91 to R101 of
40_codec.md, R44 of 20_memory.md) and the operands of the DMA Engine (R112, R117 of 41_dma_primitives.md). -/

namespace Sys2Proof.Machine

/-! ### Masked single-byte fields -/

/-- The index of the lowest set bit of a mask; `lsb(0) = 0` (notation of 00_scope.md, R92). -/
def lsb (m : Byte) : Nat := ((List.range 8).find? fun i => m.getLsbD i).getD 0

/-- The field of a byte under a mask: `(b & mask) >> lsb(mask)` (R91). -/
def getField (mask b : Byte) : Byte := (b &&& mask) >>> lsb mask

/-- The byte with the field under a mask set: `(b & ~mask) | (trunc_8(val << lsb(mask)) & mask)` (R93). -/
def setField (mask val b : Byte) : Byte := (b &&& ~~~mask) ||| ((val <<< lsb mask) &&& mask)

/-- `m_width` of the source's round-trip law: `m >> lsb(m)` (R94). -/
def fieldWidthMask (mask : Byte) : Byte := mask >>> lsb mask

/-! ### Wide masks -/

/-- The mask bytes `M_0` to `M_3`, least significant first (R95). -/
def maskBytes (mask : Word) : List Byte := (List.range 4).map fun j => mask.extractLsb' (8 * j) 8

/-- `span(M)`: 0 for a zero mask, else 1 plus the index of its last non-zero byte (R95). -/
def span (mask : Word) : Nat :=
  if mask.extractLsb' 24 8 ≠ 0 then 4
  else if mask.extractLsb' 16 8 ≠ 0 then 3
  else if mask.extractLsb' 8 8 ≠ 0 then 2
  else if mask.extractLsb' 0 8 ≠ 0 then 1
  else 0

/-- The bytes WBFSET touches from its base offset: the base byte is always checked, even for a zero mask (R96). -/
def wideTouched (mask : Word) : Nat := max (span mask) 1

/-! ### Integers -/

/-- The byte count of an integer command: `N = AX[1:0] + 1`, from `INT_N_MIN` up (R5, R73). -/
def byteCount (nm1 : BitVec 2) : Nat := nm1.toNat + Config.intNMin

/-- `LE(s)`: the first byte is the least significant (R44). -/
def leNat : List Byte → Nat
  | [] => 0
  | b :: bs => b.toNat + 256 * leNat bs

/-- `BE(s)`: the first byte is the most significant (R44). -/
def beNat (bs : List Byte) : Nat := leNat bs.reverse

/-- The `n` bytes of a value, least significant first: `s[i] = val[8i+7 : 8i]` (R100). -/
def leBytes (n : Nat) (val : Word) : List Byte := (List.range n).map fun i => val.extractLsb' (8 * i) 8

/-- The `n` bytes of a value, most significant first: `s[i] = val[8(n-1-i)+7 : 8(n-1-i)]` (R101). -/
def beBytes (n : Nat) (val : Word) : List Byte := (leBytes n val).reverse

/-! ### The DMA Engine's operands -/

/-- Descriptor validity: the size is not 0 and is even (R112). -/
def Desc.valid (d : Desc) : Bool := d.size != 0 && d.size.toNat % 2 == 0

/-- The word count of a descriptor: `SIZE / 2` (R112). -/
def Desc.words (d : Desc) : Nat := d.size.toNat / 2

/-- `K(timeout) = max(1, ceil(timeout / POLL_MS))`, on unbounded naturals (R117, R125). -/
def pollBudget (cfg : Config.Cfg) (timeout : Word) : Nat :=
  max 1 ((timeout.toNat + cfg.pollMs.val - 1) / cfg.pollMs.val)

/-- `ceil(n / MAX_XFER)`: the chunks of a full transfer of `n` bytes (R121). -/
def chunkCount (cfg : Config.Cfg) (n : Nat) : Nat := (n + cfg.maxXfer.val - 1) / cfg.maxXfer.val

/-- The largest RAM-type code (R14). -/
def maxCode : BitVec 3 := BitVec.ofNat 3 Config.lastCode

/-- `DET_DESC = (DET_CLASS, DET_LEN, DET_OPTIONS)` (R7, R142). -/
def detDesc (cfg : Config.Cfg) : Desc := ⟨cfg.detCls, BitVec.ofNat 32 Config.detLen, cfg.detOptions⟩

/-- The place of a probe value among `PROBES` (R145). -/
def probeIndex (p : Byte) : Fin (Config.probeCount + 1) := Fin.ofNat (Config.probeCount + 1) (Config.probes.idxOf p)

/-- CFG's row for a probe. -/
def refStep (cfg : Config.Cfg) (p : Byte) : Config.RefStep := cfg.refSteps.toList.getD (probeIndex p).val default

/-- `REF_PATTERN(p)` (R7, R145). -/
def refPattern (cfg : Config.Cfg) (p : Byte) : List Byte := (refStep cfg p).pattern.toList

/-- `REF_WDESC(p)` (R7, R145). -/
def refWDesc (cfg : Config.Cfg) (p : Byte) : Desc :=
  ⟨(refStep cfg p).wCls, BitVec.ofNat 32 Config.refLen, (refStep cfg p).wOptions⟩

/-- `REF_RDESC(p)` (R7, R145). -/
def refRDesc (cfg : Config.Cfg) (p : Byte) : Desc :=
  ⟨(refStep cfg p).rCls, BitVec.ofNat 32 Config.refLen, (refStep cfg p).rOptions⟩

/-- `REFINE_CLASS(k, p)`, with `none` where no probe matched (R145, R147): a class 0 to 4. -/
def refineClass (cfg : Config.Cfg) (k : BitVec 3) (p : Option Byte) : BitVec 3 :=
  let row := cfg.refineTable[Fin.ofNat (Config.lastCode + 1) k.toNat]
  let column : Fin (Config.probeCount + 1) :=
    match p with
    | some p => probeIndex p
    | none => Fin.last Config.probeCount
  BitVec.ofNat 3 row[column].val

/-- `ENABLE_PAYLOAD(class, words, options)` (R7, R58). -/
def enablePayload (cfg : Config.Cfg) (cls : Half) (words : Nat) (options : Word) : Vector Byte Config.payloadLen :=
  match cfg.enablePayload.rows.find? fun r => r.cls == cls && r.words == words && r.options == options with
  | some r => r.payload
  | none => cfg.enablePayload.other

end Sys2Proof.Machine
end

