-- ==== Sys2Proof/Machine/Ops.lean ====
section
/-! DEFINITION. The named operations over the Register Image (R42, R43), the sequencer (R20), the transport port (R50), the
DMA registers (R110), the response (R77), a raised fault (R166) and reset (R190). -/

namespace Sys2Proof.Machine

/-! ### The Register Image -/

/-- The bounds rule (R43): bytes `a` to `a+n-1` with `n >= 1` lie inside offsets 0 to 1817, on unbounded naturals. -/
def inRange (a n : Nat) : Bool := decide (1 ≤ n) && decide (a + n ≤ Config.riSize)

/-- What an unlisted offset reads as: `RI_INIT` (R32). No rule reads an offset outside the image. -/
def initByte (cfg : Config.Cfg) (a : Nat) : Byte :=
  if h : a < Config.riSize then cfg.riInit[a] else 0

/-- The byte a list of cells holds at an address, if it lists one. -/
def Cells.find (a : Nat) : List Host.Cell → Option Byte
  | [] => none
  | (k, v) :: rest => if a = k then some v else Cells.find a rest

/-- Put a cell at its place among cells that do not list its address. -/
def Cells.insert (a : Nat) (b : Byte) : List Host.Cell → List Host.Cell
  | [] => [(a, b)]
  | (k, v) :: rest => if a < k then (a, b) :: (k, v) :: rest else (k, v) :: Cells.insert a b rest

/-- Take an address off the list. -/
def Cells.erase (a : Nat) (cells : List Host.Cell) : List Host.Cell := cells.filter fun c => c.1 != a

/-- Write one byte, keeping the addresses rising and listing no byte equal to what an unlisted address reads as. -/
def Cells.write (init : Nat → Byte) (a : Nat) (b : Byte) (cells : List Host.Cell) : List Host.Cell :=
  if b = init a then Cells.erase a cells else Cells.insert a b (Cells.erase a cells)

/-- Every address of a list of cells is above `low`, they rise strictly, each is inside the image, and no cell holds what
an unlisted address reads as. -/
def Cells.risingFrom (init : Nat → Byte) (low : Nat) : List Host.Cell → Bool
  | [] => true
  | (k, v) :: rest =>
    decide (low ≤ k) && decide (k < Config.riSize) && v != init k && Cells.risingFrom init (k + 1) rest

/-- The canonical form of the Register Image. -/
def Memory.wf (s : State) : Bool := Cells.risingFrom (initByte s.cfg) 0 s.ri

/-- `RI[a]`. -/
def State.riByte (s : State) (a : Nat) : Byte := (Cells.find a s.ri).getD (initByte s.cfg a)

/-- `RI[a] <- b`. -/
def State.writeByte (s : State) (a : Nat) (b : Byte) : State :=
  { s with ri := Cells.write (initByte s.cfg) a b s.ri }

/-- `MemRead(a, n)` (00_scope.md section 5), under the bounds check of the command that uses it. -/
def State.memRead (s : State) (a n : Nat) : List Byte := (List.range n).map fun i => s.riByte (a + i)

/-- `MemWrite(a, n, bytes)` (00_scope.md section 5), under the bounds check of the command that uses it. -/
def State.memWrite (s : State) (a : Nat) : List Byte → State
  | [] => s
  | b :: rest => (s.writeByte a b).memWrite (a + 1) rest

/-! ### The sequencer -/

/-- `SEQ` on entering a labelled step from a calling point: two levels at most (R20; notes/assumptions/2.md). -/
def Seq.enter (here : Seq) (l : Label) : Seq :=
  match here with
  | .idle => .one l
  | .one outer => .two outer l
  | .two outer inner => .two outer inner

/-- `SEQ <- point`. -/
def State.goto (s : State) (point : Seq) : State := { s with seq := point }

/-! ### The response, and a raised fault -/

/-- The response of a command (R77): `STATUS`, `RES` and `DOUT` are written, and the sequencer is idle again. -/
def State.respond (s : State) (status : Status) (res : Word) (dout : List Byte) : State :=
  { s with
    status := status, res := res, dout := dout, seq := .idle,
    responses := s.responses ++ [⟨status, res, dout⟩] }

/-- `raise <Status>` before anything is done (R165, R166): the response carries the status, `RES` is 0, `DOUT` is empty,
and nothing else changes. There is no trap entry and no return (R166, R167). -/
def State.raise (s : State) (status : Status) : State := s.respond status 0 []

/-! ### The transport port -/

/-- The transactions and answers so far, as they lie on the port (R31). -/
def State.history (s : State) : List (Transaction × Reply) := s.trace.map Event.exchange

/-- The environment's answer to a transaction issued now (R50): the next of `replies`, or the free value
`Config.env` where none is at hand; always a legal one (R51). -/
def State.nextReply (s : State) (tx : Transaction) : Reply :=
  tx.fit (s.replies.headD (Config.env s.history tx))

/-- Issue a transaction once (R56) and take its answer: it joins the ordered list of transactions (R60). -/
def State.exchange (s : State) (point : Seq) (tx : Transaction) : State :=
  { s with seq := point, replies := s.replies.tail, trace := s.trace ++ [⟨point, tx, s.nextReply tx⟩] }

/-- The sample of `SCRATCH_AVAIL` taken now (R28, R134). -/
def State.nextAvail (s : State) : Bool := s.avails.headD (Config.scratchAvail s.history)

/-- Take the sample: `SCRATCH` exists from here when it is true (R134). It holds nothing until a read-back fills it
(notes/assumptions/14.md). -/
def State.sampleScratch (s : State) : State :=
  { s with avails := s.avails.tail, scratch := if s.nextAvail then some [] else none }

/-! ### The DMA registers -/

/-- `DSTATE <- IDLE ; REMAIN <- 0 ; DESC <- 0` (R110, and `abort` of R130). -/
def State.disarm (s : State) : State := { s with dstate := .idle, remain := 0, desc := Desc.zero }

/-- The `DSTATE` of a transfer enabled in a direction (R110). -/
def Dir.armed : Dir → DState
  | .rd => .armedRd
  | .wr => .armedWr

/-- `DESC <- d ; REMAIN <- d.SIZE ; DSTATE <- ARMED` (R113). -/
def State.arm (s : State) (dir : Dir) (d : Desc) : State :=
  { s with dstate := dir.armed, desc := d, remain := d.size }

/-- `REMAIN <- REMAIN - m` (R121). -/
def State.moved (s : State) (m : Nat) : State := { s with remain := s.remain - BitVec.ofNat 32 m }

/-- `if REMAIN = 0: DSTATE <- IDLE ; DESC <- 0` (R121). -/
def State.settle (s : State) : State :=
  if s.remain = 0 then { s with dstate := .idle, desc := Desc.zero } else s

/-! ### The working registers -/

/-- `ATTEMPT <- n` (R24). -/
def State.setAttempt (s : State) (n : Nat) : State := { s with attempt := n }

/-- `POLLS <- n` (R25). -/
def State.setPolls (s : State) (n : Word) : State := { s with polls := n }

/-- `CAND <- k` (R25). -/
def State.setCand (s : State) (k : BitVec 3) : State := { s with cand := k }

/-- `PROBE <- p` (R25). -/
def State.setProbe (s : State) (p : Byte) : State := { s with probe := p }

/-- The scratch buffer is filled, or dropped (R26). -/
def State.setScratch (s : State) (buf : Option (List Byte)) : State := { s with scratch := buf }

/-! ### The host's side -/

/-- The input port with its first entry taken. -/
def State.takeInput (s : State) : State := { s with host := s.host.tail }

/-- Reset (R190): every piece of state at its value of R32, whatever it was; no transaction is sent, and only `CFG`
survives (R191), with the image the reset brings as its `RI_INIT`. Inputs and observations are not state of the block. -/
def State.blockReset (s : State) (image : Vector Byte Config.riSize) : State :=
  State.afterReset { s.cfg with riInit := image } s.host s.replies s.avails s.trace s.responses

end Sys2Proof.Machine
end

