-- ==== Sys2Proof/Machine/Codec.lean ====
section
/-! DEFINITION. The seven Bit-Field Codec commands (40_codec.md). -/

namespace Sys2Proof.Machine

/-- The steps common to the codec commands (R90): the whole range the command touches is checked before any byte is read
or written (R43); then its body runs as one step, `S_CODEC`, and cannot fault. -/
def codecCommand (off n : Nat) (s : State) (body : State → State × Word) : State :=
  if inRange off n then
    let r := body (s.goto (Seq.idle.enter .codec))
    r.1.respond .ok r.2 []
  else s.raise .boundsFault

/-- BFGET `off, mask` (R91). -/
def execBfget (off : Half) (mask : Byte) (s : State) : Host.Outcome State Fault Refusal :=
  .next (codecCommand off.toNat 1 s fun s => (s, (getField mask (s.riByte off.toNat)).setWidth 32))

/-- BFSET `off, mask, val` (R93). -/
def execBfset (off : Half) (mask val : Byte) (s : State) : Host.Outcome State Fault Refusal :=
  .next (codecCommand off.toNat 1 s fun s =>
    (s.memWrite off.toNat [setField mask val (s.riByte off.toNat)], 0))

/-- The loop of WBFSET (R96) over the mask bytes from offset `a` on: `d` holds the value bits not yet placed, `started`
whether the first non-zero mask byte has been met. Before it, a zero mask byte is skipped and consumes no bits; it takes
`8 - lsb` bits; every later byte takes 8. -/
def wideSet (a : Nat) (started : Bool) (d : Word) : List Byte → State → State
  | [], s => s
  | m :: ms, s =>
    if started = false ∧ m = 0 then wideSet (a + 1) false d ms s
    else
      wideSet (a + 1) true (if started then d >>> 8 else d >>> (8 - lsb m)) ms
        (s.memWrite a [setField m (d.setWidth 8) (s.riByte a)])

/-- WBFSET `off, mask, val` (R96): mask byte `j` belongs to offset `off + j` (R95). -/
def execWbfset (off : Half) (mask val : Word) (s : State) : Host.Outcome State Fault Refusal :=
  .next (codecCommand off.toNat (wideTouched mask) s fun s =>
    (wideSet off.toNat false val ((maskBytes mask).take (span mask)) s, 0))

/-- GETLE `off, n` (R98). -/
def execGetle (nm1 : BitVec 2) (off : Half) (s : State) : Host.Outcome State Fault Refusal :=
  .next (codecCommand off.toNat (byteCount nm1) s fun s =>
    (s, BitVec.ofNat 32 (leNat (s.memRead off.toNat (byteCount nm1)))))

/-- GETBE `off, n` (R99). -/
def execGetbe (nm1 : BitVec 2) (off : Half) (s : State) : Host.Outcome State Fault Refusal :=
  .next (codecCommand off.toNat (byteCount nm1) s fun s =>
    (s, BitVec.ofNat 32 (beNat (s.memRead off.toNat (byteCount nm1)))))

/-- SETLE `off, n, val` (R100). -/
def execSetle (nm1 : BitVec 2) (off : Half) (val : Word) (s : State) : Host.Outcome State Fault Refusal :=
  .next (codecCommand off.toNat (byteCount nm1) s fun s =>
    (s.memWrite off.toNat (leBytes (byteCount nm1) val), 0))

/-- SETBE `off, n, val` (R101). -/
def execSetbe (nm1 : BitVec 2) (off : Half) (val : Word) (s : State) : Host.Outcome State Fault Refusal :=
  .next (codecCommand off.toNat (byteCount nm1) s fun s =>
    (s.memWrite off.toNat (beBytes (byteCount nm1) val), 0))

end Sys2Proof.Machine
end

