-- ==== Sys2Proof/Machine/DmaProcedures.lean ====
section
/-! DEFINITION. The procedures the DMA commands are made of: `ResetProc`, `EnableProc`, `CancelProc`, `WaitReadyProc`,
`BulkOutProc`, `BulkInProc` (41_dma_primitives.md) and `DmaReadProc`, `DmaWriteProc`, `SetTypeProc`
(42_dma_composites.md). Each is given the sequencer's point it is called from. -/

namespace Sys2Proof.Machine

/-- A procedure's end: the state and the status it returns. -/
structure Done where
  state : State
  status : Status

/-- The end of a bulk-out: the bytes moved stand beside the status (R121). -/
structure Sent where
  state : State
  status : Status
  moved : Nat

/-- The end of a bulk-in: the bytes read stand beside the status; their number is the bytes moved (R121). -/
structure Got where
  state : State
  status : Status
  out : List Byte

/-! ### The primitives' procedures -/

/-- `ResetProc` (R111): the block ends `IDLE` whether the answer is `ok` or `fail`. -/
def resetProc (here : Seq) (s : State) : Done :=
  ⟨(s.exchange (here.enter .prim) .dmaReset).disarm, (s.nextReply .dmaReset).status⟩

/-- `CancelProc` (R115). -/
def cancelProc (here : Seq) (s : State) : Done :=
  ⟨(s.exchange (here.enter .prim) .dmaCancel).disarm, (s.nextReply .dmaCancel).status⟩

/-- The transaction that enables a transfer (R54). -/
def enableTx (dir : Dir) (d : Desc) : Transaction := .dmaEnable dir d.cls d.words d.options

/-- `EnableProc(dir, d)` (R113): the operand check, then the `DSTATE` check, then the transaction. -/
def enableProc (here : Seq) (dir : Dir) (d : Desc) (s : State) : Done :=
  if d.valid = false then ⟨s, .badOperand⟩
  else if s.dstate ≠ .idle then ⟨s, .sequenceFault⟩
  else if (s.nextReply (enableTx dir d)).failed then ⟨s.exchange (here.enter .prim) (enableTx dir d), .transportFailure⟩
  else ⟨(s.exchange (here.enter .prim) (enableTx dir d)).arm dir d, .ok⟩

/-- The transaction of one readiness poll (R118). -/
def pollTx (cfg : Config.Cfg) : Transaction := .regRead .reg cfg.rdyAddr 1

/-- The loop of `WaitReadyProc` (R118), with the polls still allowed. In one poll a failed transaction is seen first, then
a set bit, then the spent budget (R169). -/
def waitLoop (here : Seq) : Nat → State → Done
  | 0, s => ⟨s, .timeout⟩
  | left + 1, s =>
    let r := s.nextReply (pollTx s.cfg)
    let s1 := (s.exchange (here.enter .wtPoll) (pollTx s.cfg)).setPolls (s.polls + 1)
    if r.failed then ⟨s1, .transportFailure⟩
    else if ready s.cfg r then ⟨s1, .ok⟩
    else waitLoop here left s1

/-- `WaitReadyProc(timeout)` (R117, R118): at most `K(timeout)` polls. -/
def waitReadyProc (here : Seq) (timeout : Word) (s : State) : Done :=
  waitLoop here (pollBudget s.cfg timeout) (s.setPolls 0)

/-- The chunk loop of `BulkOutProc` (R121) over the bytes not yet sent. A chunk that the device moves in full has at least
one byte, so as many rounds as bytes are enough. -/
def bulkOutLoop (here : Seq) : Nat → List Byte → Nat → State → Sent
  | 0, _, moved, s => ⟨s, .ok, moved⟩
  | rounds + 1, rest, moved, s =>
    if rest = [] then ⟨s, .ok, moved⟩
    else
      let chunk := rest.take s.cfg.maxXfer.val
      let r := s.nextReply (.bulkOut chunk)
      let s1 := s.exchange (here.enter .bulk) (.bulkOut chunk)
      if r.failed then ⟨s1.disarm, .transportFailure, moved⟩
      else if r.moved < chunk.length then ⟨s1.moved r.moved, .ok, moved + r.moved⟩
      else bulkOutLoop here rounds (rest.drop chunk.length) (moved + r.moved) (s1.moved r.moved)

/-- `BulkOutProc(s)` (R121). -/
def bulkOutProc (here : Seq) (data : List Byte) (s : State) : Sent :=
  let e := bulkOutLoop here data.length data 0 s
  if e.status = .ok then ⟨e.state.settle, .ok, e.moved⟩ else e

/-- The chunk loop of `BulkInProc` (R121), with the bytes still wanted and those read so far. -/
def bulkInLoop (here : Seq) : Nat → Nat → List Byte → State → Got
  | 0, _, out, s => ⟨s, .ok, out⟩
  | rounds + 1, left, out, s =>
    if left = 0 then ⟨s, .ok, out⟩
    else
      let c := min s.cfg.maxXfer.val left
      let r := s.nextReply (.bulkIn c)
      let s1 := s.exchange (here.enter .bulk) (.bulkIn c)
      if r.failed then ⟨s1.disarm, .transportFailure, out⟩
      else if r.bytes.length < c then ⟨s1.moved r.bytes.length, .ok, out ++ r.bytes⟩
      else bulkInLoop here rounds (left - c) (out ++ r.bytes) (s1.moved r.bytes.length)

/-- `BulkInProc(n)` (R121). -/
def bulkInProc (here : Seq) (n : Nat) (s : State) : Got :=
  let e := bulkInLoop here n n [] s
  if e.status = .ok then ⟨e.state.settle, .ok, e.out⟩ else e

/-! ### The composites' procedures -/

/-- `DmaReadProc(d)` (R132): Reset, EnableRead, the bulk-in of `d.SIZE` bytes; a short transfer aborts (R131). -/
def dmaReadProc (here : Seq) (d : Desc) (s : State) : Got :=
  if d.valid = false then ⟨s, .badOperand, []⟩
  else
    let a := resetProc (here.enter .rdReset) s
    if a.status ≠ .ok then ⟨a.state, .transportFailure, []⟩
    else
      let b := enableProc (here.enter .rdEnable) .rd d a.state
      if b.status ≠ .ok then ⟨b.state, .transportFailure, []⟩
      else
        let e := bulkInProc (here.enter .rdData) d.size.toNat b.state
        if e.status ≠ .ok ∨ e.out.length ≠ d.size.toNat then ⟨e.state.disarm, .transportFailure, e.out⟩
        else e

/-- How one write-and-verify attempt ends (R135): the read-back equals the data, or differs (`VerifyMismatch`, an internal
event, R164), or a step failed and the procedure ends with `TransportFailure`. -/
inductive Attempt where
  | verified
  | mismatch
  | failed
deriving DecidableEq, Repr

/-- The end of one attempt. -/
structure Attempted where
  state : State
  result : Attempt

/-- `S_WR_DATA`: the data phase; a failed or short transfer aborts (R131, R135). -/
def writeData (here : Seq) (d : Desc) (data : List Byte) (s : State) : Done :=
  let w := bulkOutProc (here.enter .wrData) data s
  if w.status ≠ .ok ∨ w.moved ≠ d.size.toNat then ⟨w.state.disarm, .transportFailure⟩ else ⟨w.state, .ok⟩

/-- One attempt of the verifying path (R135), from `ATTEMPT <- ATTEMPT + 1` to the compare: write, re-enable a read of the
same descriptor, read back into `SCRATCH`, compare all bytes. -/
def writeAttempt (here : Seq) (d : Desc) (data : List Byte) (s : State) : Attempted :=
  let w := writeData here d data (s.setAttempt (s.attempt + 1))
  if w.status ≠ .ok then ⟨w.state, .failed⟩
  else
    let v := enableProc (here.enter .wrVenable) .rd d w.state
    if v.status ≠ .ok then ⟨v.state, .failed⟩
    else
      let r := bulkInProc (here.enter .wrVdata) d.size.toNat v.state
      let s1 := r.state.setScratch (some r.out)
      if r.status ≠ .ok ∨ r.out.length ≠ d.size.toNat then ⟨s1.disarm, .failed⟩
      else
        let s2 := s1.goto (here.enter .wrCompare)
        if s2.scratch = some data then ⟨s2, .verified⟩ else ⟨s2, .mismatch⟩

/-- The retry loop of the verifying path (R135): on a mismatch Cancel, and unless `ATTEMPT` has reached 10, EnableWrite and
another attempt. `left` is the attempts still allowed. -/
def writeLoop (here : Seq) (d : Desc) (data : List Byte) : Nat → State → Done
  | 0, s => ⟨s, .transportFailure⟩
  | left + 1, s =>
    let a := writeAttempt here d data s
    match a.result with
    | .verified => ⟨a.state, .ok⟩
    | .failed => ⟨a.state, .transportFailure⟩
    | .mismatch =>
      let c := cancelProc (here.enter .wrCancel) a.state
      if c.status ≠ .ok then ⟨c.state, .transportFailure⟩
      else if c.state.attempt = Config.writeAttempts then ⟨c.state, .transportFailure⟩
      else
        let e := enableProc (here.enter .wrReenable) .wr d c.state
        if e.status ≠ .ok then ⟨e.state, .transportFailure⟩ else writeLoop here d data left e.state

/-- `DmaWriteProc` from `S_WR_RESET` on (R135), with the sample of `SCRATCH_AVAIL`. -/
def writeBody (here : Seq) (d : Desc) (data : List Byte) (avail : Bool) (s : State) : Done :=
  let a := resetProc (here.enter .wrReset) s
  if a.status ≠ .ok then ⟨a.state, .transportFailure⟩
  else
    let b := enableProc (here.enter .wrEnable) .wr d a.state
    if b.status ≠ .ok then ⟨b.state, .transportFailure⟩
    else if avail then writeLoop here d data Config.writeAttempts b.state
    else writeData here d data b.state

/-- `DmaWriteProc(d, data)` (R134, R135): the self-verifying Write, or the non-verified one where no scratch buffer can be
had. `SCRATCH` is dropped when the procedure ends (R26). -/
def dmaWriteProc (here : Seq) (d : Desc) (data : List Byte) (s : State) : Done :=
  if d.valid = false then ⟨s, .badOperand⟩
  else
    let e := writeBody here d data s.nextAvail (s.setAttempt 0).sampleScratch
    ⟨e.state.setScratch none, e.status⟩

/-- The RAM-type field of the Register Image set to a code, as BFSET would (R139, R146). -/
def State.setRamType (s : State) (code : BitVec 3) : State :=
  let a := s.cfg.ramtypeOff.val
  s.memWrite a [setField s.cfg.ramtypeMask.val (code.setWidth 8) (s.riByte a)]

/-- The transaction that pushes the RAM-type byte to the device (R139). -/
def pushTx (s : State) : Transaction := .regWrite .reg s.cfg.ramtypeAddr [s.riByte s.cfg.ramtypeOff.val]

/-- `SetTypeProc(code)` (R139): the field of `RI` first, then the device register; no rollback. -/
def setTypeProc (here : Seq) (code : BitVec 3) (s : State) : Done :=
  if maxCode < code then ⟨s, .badOperand⟩
  else
    let s1 := (s.goto (here.enter .stField)).setRamType code
    ⟨s1.exchange (here.enter .stPush) (pushTx s1), (s1.nextReply (pushTx s1)).status⟩

end Sys2Proof.Machine
end

