-- ==== Sys2Proof/Machine/DmaPrimitives.lean ====
section
/-! DEFINITION. The seven primitive commands of the DMA Engine (41_dma_primitives.md). -/

namespace Sys2Proof.Machine

/-- The response of a command that answers a procedure's status and no result. -/
def Done.answer (e : Done) : State := e.state.respond e.status 0 []

/-- DMARESET (R111). -/
def execDmareset (s : State) : Host.Outcome State Fault Refusal :=
  .next (resetProc .idle s).answer

/-- DMAENRD `class, size, options` (R113). -/
def execDmaenrd (cls : Half) (size options : Word) (s : State) : Host.Outcome State Fault Refusal :=
  .next (enableProc .idle .rd ⟨cls, size, options⟩ s).answer

/-- DMAENWR `class, size, options` (R114). -/
def execDmaenwr (cls : Half) (size options : Word) (s : State) : Host.Outcome State Fault Refusal :=
  .next (enableProc .idle .wr ⟨cls, size, options⟩ s).answer

/-- DMACANCEL (R115). -/
def execDmacancel (s : State) : Host.Outcome State Fault Refusal :=
  .next (cancelProc .idle s).answer

/-- DMAWAIT `timeout` (R119): `RES` is the number of polls issued, in every outcome. -/
def execDmawait (timeout : Word) (s : State) : Host.Outcome State Fault Refusal :=
  let e := waitReadyProc .idle timeout s
  .next (e.state.respond e.status e.state.polls [])

/-- BULKRD `n` (R120, R122). -/
def execBulkrd (n : Word) (s : State) : Host.Outcome State Fault Refusal :=
  .next <|
    if n = 0 then s.raise .badOperand
    else if s.dstate ≠ .armedRd ∨ s.remain < n then s.raise .sequenceFault
    else
      let e := bulkInProc .idle n.toNat s
      e.state.respond e.status (BitVec.ofNat 32 e.out.length) e.out

/-- BULKWR `n, payload` (R120, R123). -/
def execBulkwr (n : Word) (payload : List Byte) (s : State) : Host.Outcome State Fault Refusal :=
  .next <|
    if n = 0 then s.raise .badOperand
    else if s.dstate ≠ .armedWr ∨ s.remain < n then s.raise .sequenceFault
    else
      let e := bulkOutProc .idle payload s
      e.state.respond e.status (BitVec.ofNat 32 e.moved) []

end Sys2Proof.Machine
end

