-- ==== Sys2Proof/Machine/DmaComposites.lean ====
section
/-! DEFINITION. The four composite commands of the DMA Engine (42_dma_composites.md): DMAREAD, DMAWRITE, SETTYPE, DETECT. -/

namespace Sys2Proof.Machine

/-- DMAREAD `class, size, options` (R132): `RES` is the bytes moved and `DOUT` the bytes read, also on
`TransportFailure`. -/
def execDmaread (cls : Half) (size options : Word) (s : State) : Host.Outcome State Fault Refusal :=
  let e := dmaReadProc .idle ⟨cls, size, options⟩ s
  .next (e.state.respond e.status (BitVec.ofNat 32 e.out.length) e.out)

/-- DMAWRITE `class, size, options, payload` (R136): `RES` is `ATTEMPT`, or 0 where the operands are refused. -/
def execDmawrite (cls : Half) (size options : Word) (payload : List Byte) (s : State) :
    Host.Outcome State Fault Refusal :=
  let d : Desc := ⟨cls, size, options⟩
  .next <|
    if d.valid = false then s.raise .badOperand
    else
      let e := dmaWriteProc .idle d payload s
      e.state.respond e.status (BitVec.ofNat 32 e.state.attempt) []

/-- SETTYPE `code` (R139). `DSTATE` is not changed (R139, R110, R199), also where R130 and R178 say `IDLE` of every composite
(notes/assumptions/17.md). -/
def execSettype (code : BitVec 3) (s : State) : Host.Outcome State Fault Refusal :=
  .next (setTypeProc .idle code s).answer

/-! ### DETECT -/

/-- How a candidate's round ends (R143): accepted, rejected, or DETECT itself ends because SetType failed. -/
inductive Verdict where
  | accepted
  | rejected
  | aborted
deriving DecidableEq, Repr

/-- The end of a candidate's round, of a probe's round or of a phase. -/
structure Judged where
  state : State
  verdict : Verdict

/-- One candidate's round of the coarse phase (R142, R143): SetType, WaitReady, Reset, Write, Read, compare. -/
def detectRound (k : BitVec 3) (s : State) : Judged :=
  let a := setTypeProc (Seq.idle.enter .dtSettype) k (s.setCand k)
  if a.status ≠ .ok then ⟨a.state, .aborted⟩
  else
    let b := waitReadyProc (Seq.idle.enter .dtWait) s.cfg.detTimeout a.state
    if b.status ≠ .ok then ⟨b.state, .rejected⟩
    else
      let c := resetProc (Seq.idle.enter .dtReset) b.state
      if c.status ≠ .ok then ⟨c.state, .rejected⟩
      else
        let w := dmaWriteProc (Seq.idle.enter .dtWrite) (detDesc s.cfg) s.cfg.detPattern.toList c.state
        if w.status ≠ .ok then ⟨w.state, .rejected⟩
        else
          let r := dmaReadProc (Seq.idle.enter .dtRead) (detDesc s.cfg) w.state
          if r.status ≠ .ok then ⟨r.state, .rejected⟩
          else if r.out ≠ s.cfg.detPattern.toList then ⟨r.state.goto (Seq.idle.enter .dtCompare), .rejected⟩
          else ⟨r.state.goto (Seq.idle.enter .dtCompare), .accepted⟩

/-- The coarse phase over the candidates left (R142), ending at the first that is not rejected; the accepted code is in
`CAND`. -/
def detectCoarse : List (BitVec 3) → State → Judged
  | [], s => ⟨s, .rejected⟩
  | k :: ks, s =>
    let r := detectRound k s
    match r.verdict with
    | .rejected => detectCoarse ks r.state
    | .accepted => r
    | .aborted => r

/-- One probe's round of the refine phase (R145): one Write, one Read, one compare of all `REF_LEN` bytes. -/
def refineRound (p : Byte) (s : State) : Judged :=
  let w := dmaWriteProc (Seq.idle.enter .dtRefWrite) (refWDesc s.cfg p) (refPattern s.cfg p) (s.setProbe p)
  if w.status ≠ .ok then ⟨w.state, .aborted⟩
  else
    let r := dmaReadProc (Seq.idle.enter .dtRefRead) (refRDesc s.cfg p) w.state
    if r.status ≠ .ok then ⟨r.state, .aborted⟩
    else if r.out = refPattern s.cfg p then ⟨r.state.goto (Seq.idle.enter .dtRefCompare), .accepted⟩
    else ⟨r.state.goto (Seq.idle.enter .dtRefCompare), .rejected⟩

/-- The refine phase over the probes left (R145), ending at the first that is not rejected; the matching probe is in
`PROBE`. -/
def detectRefine : List Byte → State → Judged
  | [], s => ⟨s, .rejected⟩
  | p :: ps, s =>
    let r := refineRound p s
    match r.verdict with
    | .rejected => detectRefine ps r.state
    | .accepted => r
    | .aborted => r

/-- `finish` (R146): the class is encoded into the RAM-type field, SetType is issued again with it, and it is the
result. -/
def detectFinish (cls : BitVec 3) (s : State) : State :=
  let f := setTypeProc (Seq.idle.enter .dtFinal) cls ((s.goto (Seq.idle.enter .dtEncode)).setRamType cls)
  if f.status ≠ .ok then f.state.respond .transportFailure 0 []
  else f.state.respond .ok (cls.setWidth 32) []

/-- The refine phase and the finish, with the accepted code `k` (R145, R146). -/
def detectRefineFinish (k : BitVec 3) (s : State) : State :=
  let r := detectRefine Config.probes s
  match r.verdict with
  | .aborted => (r.state.setProbe 0).respond .transportFailure 0 []
  | .accepted => detectFinish (refineClass s.cfg k (some r.state.probe)) (r.state.setProbe 0)
  | .rejected => detectFinish (refineClass s.cfg k none) (r.state.setProbe 0)

/-- `DetectProc` and its response (R141 to R146). An end in the coarse phase leaves `DSTATE = IDLE` as R141 and R130 say of
every exit, also where no step of the phase has reset a transfer armed before (notes/assumptions/17.md). -/
def detect (s : State) : State :=
  let c := detectCoarse Config.ramtypeCodes s
  match c.verdict with
  | .aborted => (c.state.disarm.setProbe 0).respond .transportFailure 0 []
  | .rejected => (c.state.disarm.setProbe 0).respond .initFatal 0 []
  | .accepted => detectRefineFinish c.state.cand c.state

/-- DETECT (R141). -/
def execDetect (s : State) : Host.Outcome State Fault Refusal := .next (detect s)

end Sys2Proof.Machine
end

