-- ==== Sys2Proof/Machine/Dispatch.lean ====
section
/-! DEFINITION. The dispatch: one arm per command, each one call of its meaning. -/

namespace Sys2Proof.Machine

-- The meaning of every command (R72 names each command's rule).
def exec (i : Instr) (s : State) : Host.Outcome State Fault Refusal :=
  match i with
  | .bfget off mask => Sys2Proof.Machine.execBfget off mask s
  | .bfset off mask val => Sys2Proof.Machine.execBfset off mask val s
  | .wbfset off mask val => Sys2Proof.Machine.execWbfset off mask val s
  | .getle nm1 off => Sys2Proof.Machine.execGetle nm1 off s
  | .getbe nm1 off => Sys2Proof.Machine.execGetbe nm1 off s
  | .setle nm1 off val => Sys2Proof.Machine.execSetle nm1 off val s
  | .setbe nm1 off val => Sys2Proof.Machine.execSetbe nm1 off val s
  | .dmareset => Sys2Proof.Machine.execDmareset s
  | .dmaenrd cls size options => Sys2Proof.Machine.execDmaenrd cls size options s
  | .dmaenwr cls size options => Sys2Proof.Machine.execDmaenwr cls size options s
  | .dmacancel => Sys2Proof.Machine.execDmacancel s
  | .dmawait timeout => Sys2Proof.Machine.execDmawait timeout s
  | .bulkrd n => Sys2Proof.Machine.execBulkrd n s
  | .bulkwr n payload => Sys2Proof.Machine.execBulkwr n payload s
  | .dmaread cls size options => Sys2Proof.Machine.execDmaread cls size options s
  | .dmawrite cls size options payload => Sys2Proof.Machine.execDmawrite cls size options payload s
  | .settype code => Sys2Proof.Machine.execSettype code s
  | .detect => Sys2Proof.Machine.execDetect s

end Sys2Proof.Machine
end

