-- ==== Sys2Proof/Machine/Port.lean ====
section
/-! DEFINITION. The command port: what the block does with each input of the host (R19, R74, R76, R178, R190). -/

namespace Sys2Proof.Machine

/-- A command arrives at the idle block: a pair that is not a command is refused at the boundary (R76), an illegal header
is answered and does nothing else (R74, R162), and a command runs. Its payload is consumed with it in every case
(R76). -/
def runCommand (c : Command) (s : State) : Host.Outcome State Fault Refusal :=
  match decode c with
  | .instr i => exec i s
  | .illegal _ => .next (s.raise .illegalCommand)
  | .notCommand => .refused .payloadLength

/-- What reset leaves of a command it strikes after `n` of its transactions (R190, U26): the command gives no response,
every register has its reset value, and the transactions already answered stay in the history. `t` is what the whole
command would have left. DESIGN CHOICE (notes/assumptions/24.md): a transaction that was issued and not yet answered when
reset strikes is not in the history, and takes no answer; the spec speaks only of those already answered. -/
def cutOff (n : Nat) (image : Vector Byte Config.riSize) (s t : State) : State :=
  { s.blockReset image with
    replies := s.replies.drop (min n (t.trace.length - s.trace.length))
    avails := t.avails
    trace := t.trace.take (s.trace.length + n) }

/-- What the block does with one input of the host (R178). -/
def accept (input : HostInput) (s : State) : Host.Outcome State Fault Refusal :=
  match input with
  | .command c => runCommand c s
  | .reset image => .next (s.blockReset image)
  | .resetDuring c n image =>
    match runCommand c s with
    | .next t => .next (cutOff n image s t)
    | .fault r => .fault r
    | .refused r => .refused r

/-- The block between commands: with nothing sent it waits with all state kept (R177), else it takes the next input. -/
def advance (s : State) : Host.Outcome State Fault Refusal :=
  match s.host with
  | [] => .next s
  | input :: _ => accept input s.takeInput

end Sys2Proof.Machine
end

