-- ==== Sys2Proof/Machine/Step.lean ====
section
/-! DEFINITION. One step of the machine: one input of the host, taken when the block is idle (R19). -/

namespace Sys2Proof.Machine

/-- The block takes the host's next input when no command is in progress (R19). -/
def step (s : State) : Host.Outcome State Fault Refusal :=
  if s.seq = .idle then advance s else .fault .busy

/-- The state with the command of an opcode-table word as the host's next input, and the block idle. -/
def State.withFetchWord (s : State) (nbits w : Nat) : State :=
  { s with host := .command (tableCommand nbits w) :: s.host, seq := .idle }

end Sys2Proof.Machine
end

