-- ==== Sys2Proof/Safety.lean ====
section
/-! DEFINITION. The terms the claims are stated in: what a command leaves unchanged, what it answers, what it put on the
transport port, which inputs it finds there, and the invariant every step keeps. -/

namespace Sys2Proof.Machine

/-! ### What stays unchanged -/

/-- Every byte of the Register Image reads as before. -/
def SameImage (s t : State) : Prop := ∀ a, t.riByte a = s.riByte a

/-- The DMA registers of R21 to R23 are unchanged. -/
structure SameDma (s t : State) : Prop where
  dstate : t.dstate = s.dstate
  desc : t.desc = s.desc
  remain : t.remain = s.remain

/-- The working registers of R24 to R26 are unchanged. -/
structure SameWork (s t : State) : Prop where
  attempt : t.attempt = s.attempt
  polls : t.polls = s.polls
  cand : t.cand = s.cand
  probe : t.probe = s.probe
  scratch : t.scratch = s.scratch

/-- No transaction was issued, and no input of the environment was taken. -/
structure SamePort (s t : State) : Prop where
  replies : t.replies = s.replies
  avails : t.avails = s.avails
  trace : t.trace = s.trace

/-- `CFG` and what the host does next are unchanged. -/
structure SameSetting (s t : State) : Prop where
  cfg : t.cfg = s.cfg
  host : t.host = s.host

/-- A command of the codec changes nothing but the response and the image (R90). -/
structure CodecFrame (s t : State) : Prop where
  dma : SameDma s t
  work : SameWork s t
  port : SamePort s t
  setting : SameSetting s t

/-- Nothing but the response has changed: what R165 calls a no-op apart from its response. -/
structure Quiet (s t : State) : Prop where
  image : SameImage s t
  dma : SameDma s t
  work : SameWork s t
  port : SamePort s t
  setting : SameSetting s t

/-- Transactions with the answers they get, in order. -/
abbrev Script := List (Transaction × Reply)

/-- The answers of a script. -/
def Script.answers (x : Script) : List Reply := x.map Prod.snd

/-! ### What a command answers -/

/-- Exactly one response was given, with this status, result and output, and the sequencer is idle (R77, R167). -/
structure Answers (s t : State) (st : Status) (r : Word) (out : List Byte) : Prop where
  status : t.status = st
  res : t.res = r
  dout : t.dout = out
  seq : t.seq = .idle
  responses : t.responses = s.responses ++ [⟨st, r, out⟩]

/-- A command that only answers. -/
def AnswersOnly (s t : State) (st : Status) (r : Word) (out : List Byte) : Prop :=
  Answers s t st r out ∧ Quiet s t

/-- The transactions and answers a command added to the history, in order (R31, R60); one answer was taken from the
environment for each. -/
structure Issued (s t : State) (x : Script) : Prop where
  history : t.history = s.history ++ x
  replies : t.replies = s.replies.drop x.length

/-- Each recorded answer is the one the environment gives to its transaction (R50, R59; notes/assumptions/5.md and 6.md): the
`k`-th is the `k`-th of the answers at hand, or where none is left what the free oracle gives for the history so far, cut to
the sizes of R51. -/
def Taken (s : State) (added : List Event) : Prop :=
  ∀ (k : Nat) (e : Event), added[k]? = some e →
    e.reply = e.tx.fit ((s.replies.drop k).headD (Config.env (s.history ++ (added.take k).map Event.exchange) e.tx))

/-- The image and the setting are unchanged: no DMA primitive, no Read and no Write touches them (R13, R27). -/
structure EngineFrame (s t : State) : Prop where
  image : SameImage s t
  setting : SameSetting s t

/-- Nothing is armed (R21, R22, R23). -/
structure Unarmed (t : State) : Prop where
  dstate : t.dstate = .idle
  desc : t.desc = Desc.zero
  remain : t.remain = 0

/-- What R32 and R190 ask of a reset that strikes a command: every register at its reset value, the image of this reset,
no response, and `CFG` otherwise kept (notes/assumptions/9.md and 22.md). -/
def LeavesReset (s t : State) (image : Vector Byte Config.riSize) (rest : List HostInput) : Prop :=
  t.status = .ok ∧ t.res = 0 ∧ t.dout = [] ∧ t.seq = .idle ∧ Unarmed t ∧ t.attempt = 0 ∧ t.polls = 0 ∧ t.cand = 0
    ∧ t.probe = 0 ∧ t.scratch = none ∧ (∀ (a : Nat) (h : a < Config.riSize), t.riByte a = image[a])
    ∧ t.cfg = { s.cfg with riInit := image } ∧ t.responses = s.responses ∧ t.host = rest

/-! ### The kinds of commands -/

/-- The seven codec commands (40_codec.md). -/
def isCodec (i : Instr) : Bool :=
  match i.op with
  | .bfget | .bfset | .wbfset | .getle | .getbe | .setle | .setbe => true
  | .dmareset | .dmaenrd | .dmaenwr | .dmacancel | .dmawait | .bulkrd | .bulkwr => false
  | .dmaread | .dmawrite | .settype | .detect => false

/-- The commands that may write the Register Image (R13). -/
def mayWriteImage (i : Instr) : Bool :=
  match i.op with
  | .bfset | .wbfset | .setle | .setbe | .settype | .detect => true
  | .bfget | .getle | .getbe => false
  | .dmareset | .dmaenrd | .dmaenwr | .dmacancel | .dmawait | .bulkrd | .bulkwr | .dmaread | .dmawrite => false

/-- The bytes a codec command touches: its base offset and their number (R91, R93, R96, R98 to R101). -/
def touches : Instr → Option (Nat × Nat)
  | .bfget off _ => some (off.toNat, 1)
  | .bfset off _ _ => some (off.toNat, 1)
  | .wbfset off mask _ => some (off.toNat, wideTouched mask)
  | .getle nm1 off => some (off.toNat, byteCount nm1)
  | .getbe nm1 off => some (off.toNat, byteCount nm1)
  | .setle nm1 off _ => some (off.toNat, byteCount nm1)
  | .setbe nm1 off _ => some (off.toNat, byteCount nm1)
  | .dmareset | .dmaenrd _ _ _ | .dmaenwr _ _ _ | .dmacancel | .dmawait _ | .bulkrd _ | .bulkwr _ _ => none
  | .dmaread _ _ _ | .dmawrite _ _ _ _ | .settype _ | .detect => none

/-- The rows of the opcode table (opcode_table.json): the operation, the mask of `OP` and of the fixed bits, and the value
under the mask. -/
def opcodeRows : List (Op × HeaderBits × HeaderBits) :=
  [(.bfget, 0xFFFF0000FFFFFF00FFFFFFFF, 0x010000000000000000000000),
   (.bfset, 0xFFFF0000FFFFFF00FFFFFF00, 0x020000000000000000000000),
   (.wbfset, 0xFFFF00000000000000000000, 0x030000000000000000000000),
   (.getle, 0xFFFC0000FFFFFFFFFFFFFFFF, 0x040000000000000000000000),
   (.getbe, 0xFFFC0000FFFFFFFFFFFFFFFF, 0x050000000000000000000000),
   (.setle, 0xFFFC0000FFFFFFFF00000000, 0x060000000000000000000000),
   (.setbe, 0xFFFC0000FFFFFFFF00000000, 0x070000000000000000000000),
   (.dmareset, 0xFFFFFFFFFFFFFFFFFFFFFFFF, 0x100000000000000000000000),
   (.dmaenrd, 0xFFFF00000000000000000000, 0x110000000000000000000000),
   (.dmaenwr, 0xFFFF00000000000000000000, 0x120000000000000000000000),
   (.dmacancel, 0xFFFFFFFFFFFFFFFFFFFFFFFF, 0x130000000000000000000000),
   (.dmawait, 0xFFFFFFFF00000000FFFFFFFF, 0x140000000000000000000000),
   (.bulkrd, 0xFFFFFFFF00000000FFFFFFFF, 0x150000000000000000000000),
   (.bulkwr, 0xFFFFFFFF00000000FFFFFFFF, 0x160000000000000000000000),
   (.dmaread, 0xFFFF00000000000000000000, 0x180000000000000000000000),
   (.dmawrite, 0xFFFF00000000000000000000, 0x190000000000000000000000),
   (.settype, 0xFFF8FFFFFFFFFFFFFFFFFFFF, 0x1A0000000000000000000000),
   (.detect, 0xFFFFFFFFFFFFFFFFFFFFFFFF, 0x1B0000000000000000000000)]

/-- The bits of the byte at offset `a` that a setter may change (R103): its mask, where it has one, and all bits of the
bytes of an integer. -/
def settable (i : Instr) (a : Nat) : Byte :=
  match i with
  | .bfset off mask _ => if a = off.toNat then mask else 0
  | .wbfset off mask _ => if off.toNat ≤ a ∧ a < off.toNat + 4 then mask.extractLsb' (8 * (a - off.toNat)) 8 else 0
  | .setle nm1 off _ | .setbe nm1 off _ => if off.toNat ≤ a ∧ a < off.toNat + byteCount nm1 then 0xFF else 0
  | .bfget _ _ | .getle _ _ | .getbe _ _ => 0
  | .dmareset | .dmaenrd _ _ _ | .dmaenwr _ _ _ | .dmacancel | .dmawait _ | .bulkrd _ | .bulkwr _ _ => 0
  | .dmaread _ _ _ | .dmawrite _ _ _ _ | .settype _ | .detect => 0

/-- The statuses each command can answer (the "raised by" column of R160). -/
def answersOf (op : Op) : List Status :=
  match op with
  | .bfget | .bfset | .wbfset | .getle | .getbe | .setle | .setbe => [.ok, .boundsFault]
  | .dmareset | .dmacancel => [.ok, .transportFailure]
  | .dmaenrd | .dmaenwr | .bulkrd | .bulkwr => [.ok, .transportFailure, .badOperand, .sequenceFault]
  | .dmawait => [.ok, .timeout, .transportFailure]
  | .dmaread | .dmawrite | .settype => [.ok, .transportFailure, .badOperand]
  | .detect => [.ok, .transportFailure, .initFatal]

/-- The most transactions a command issues (R149). -/
def transactionBound (cfg : Config.Cfg) (i : Instr) : Nat :=
  let c := fun n => chunkCount cfg n
  match i with
  | .bfget _ _ | .bfset _ _ _ | .wbfset _ _ _ | .getle _ _ | .getbe _ _ | .setle _ _ _ | .setbe _ _ _ => 0
  | .dmareset | .dmaenrd _ _ _ | .dmaenwr _ _ _ | .dmacancel | .settype _ => 1
  | .dmawait timeout => pollBudget cfg timeout
  | .bulkrd n | .bulkwr n _ => c n.toNat
  | .dmaread _ size _ => 2 + c size.toNat
  | .dmawrite _ size _ _ => Config.writeAttempts * (2 * c size.toNat + 3) + 1
  | .detect =>
    let write := fun n => Config.writeAttempts * (2 * c n + 3) + 1
    let read := fun n => 2 + c n
    Config.codeCount * (1 + pollBudget cfg cfg.detTimeout + 1 + write Config.detLen + read Config.detLen)
      + Config.probeCount * (write Config.refLen + read Config.refLen) + 1

/-- `k` is `lsb(m)` (notation of 00_scope.md): the index of the lowest set bit, 0 for a zero mask. -/
def IsLsb (m : Byte) (k : Nat) : Prop :=
  (m = 0 ∧ k = 0) ∨ (m.getLsbD k = true ∧ ∀ j < k, m.getLsbD j = false)

/-- `n` is `span(M)` (R95): 0 for a zero mask, else 1 plus the index of its last non-zero byte. -/
def IsSpan (mask : Word) (n : Nat) : Prop :=
  (mask = 0 ∧ n = 0)
    ∨ (1 ≤ n ∧ n ≤ 4 ∧ mask.extractLsb' (8 * (n - 1)) 8 ≠ 0 ∧ ∀ j, n ≤ j → j < 4 → mask.extractLsb' (8 * j) 8 = 0)

/-- The little-endian 32-bit value of the four bytes from an offset (R97). -/
def imageWord (s : State) (a : Nat) : Word :=
  s.riByte (a + 3) ++ s.riByte (a + 2) ++ s.riByte (a + 1) ++ s.riByte a

/-! ### Transactions and scripts -/

/-- The transactions the block issues (R51, R52, R55, R57): a one-byte read of `RDY_ADDR`, a one-byte write of
`RAMTYPE_ADDR`, Reset, Cancel, Enable of at least one word, and bulk chunks of 1 to `MAX_XFER` bytes. -/
def ownTransaction (cfg : Config.Cfg) : Transaction → Prop
  | .regRead space addr n => space = .reg ∧ addr = cfg.rdyAddr ∧ n = 1
  | .regWrite space addr bytes => space = .reg ∧ addr = cfg.ramtypeAddr ∧ bytes.length = 1
  | .dmaReset => True
  | .dmaCancel => True
  | .dmaEnable _ _ words _ => 1 ≤ words
  | .bulkOut bytes => 1 ≤ bytes.length ∧ bytes.length ≤ cfg.maxXfer.val
  | .bulkIn n => 1 ≤ n ∧ n ≤ cfg.maxXfer.val

/-- An event of the block's own making, with a legal answer (R51). -/
structure Event.Proper (cfg : Config.Cfg) (e : Event) : Prop where
  own : ownTransaction cfg e.tx
  legal : e.reply.legal e.tx = true

/-- The transaction succeeded and, in a bulk phase, moved every byte of its chunk. -/
def full : Transaction × Reply → Prop
  | (.bulkOut bytes, r) => r.failed = false ∧ r.moved = bytes.length
  | (.bulkIn n, r) => r.failed = false ∧ r.bytes.length = n
  | (_, r) => r.failed = false

/-- Does the transaction start a write attempt? An attempt starts when the EnableWrite before it is answered `ok` (R135). -/
def startsAttempt : Transaction × Reply → Bool
  | (.dmaEnable .wr _ _ _, r) => !r.failed
  | (.dmaEnable .rd _ _ _, _) | (.regRead _ _ _, _) | (.regWrite _ _ _, _) => false
  | (.dmaReset, _) | (.dmaCancel, _) | (.bulkOut _, _) | (.bulkIn _, _) => false

/-- The number of write attempts a script starts (R24, R135, R136). -/
def Script.attempts (x : Script) : Nat := x.countP startsAttempt

/-- An answer that carries nothing. -/
def okay : Reply := .ok 0 []

/-- The chunks of a byte string of which each is at most `n` long (R121), at most `rounds` of them. -/
def chunksOf (n : Nat) : Nat → List Byte → List (List Byte)
  | 0, _ => []
  | rounds + 1, bs => if bs = [] then [] else bs.take n :: chunksOf n rounds (bs.drop n)

/-- The chunks `MAX_XFER` cuts a byte string into (R121). -/
def chunks (cfg : Config.Cfg) (bs : List Byte) : List (List Byte) := chunksOf cfg.maxXfer.val bs.length bs

/-- A bulk-out of `bs` that is moved in full (R121). -/
def outScript (cfg : Config.Cfg) (bs : List Byte) : Script := (chunks cfg bs).map fun c => (.bulkOut c, .ok c.length [])

/-- A bulk-in that returns `bs` in full (R121). -/
def inScript (cfg : Config.Cfg) (bs : List Byte) : Script :=
  (chunks cfg bs).map fun c => (.bulkIn c.length, .ok c.length c)

/-- One write-and-verify attempt whose Enable, data phase and read-back all succeed and whose read-back is `back`
(R135). -/
def attemptScript (cfg : Config.Cfg) (d : Desc) (data back : List Byte) : Script :=
  (.dmaEnable .wr d.cls d.words d.options, okay) :: outScript cfg data
    ++ (.dmaEnable .rd d.cls d.words d.options, okay) :: inScript cfg back

/-- The attempts that read back each of `bad`, with the Cancel that follows each (R135). -/
def mismatchScript (cfg : Config.Cfg) (d : Desc) (data : List Byte) (bad : List (List Byte)) : Script :=
  bad.flatMap fun back => attemptScript cfg d data back ++ [(.dmaCancel, okay)]

/-- A verified Write that reads back each of `bad` and then its data (R135). -/
def writeScript (cfg : Config.Cfg) (d : Desc) (data : List Byte) (bad : List (List Byte)) : Script :=
  (.dmaReset, okay) :: mismatchScript cfg d data bad ++ attemptScript cfg d data data

/-- A Write that reads back each of `bad` and gives up (R135). -/
def failedWriteScript (cfg : Config.Cfg) (d : Desc) (data : List Byte) (bad : List (List Byte)) : Script :=
  (.dmaReset, okay) :: mismatchScript cfg d data bad

/-- A Write with no scratch buffer (R134, R135). -/
def blindWriteScript (cfg : Config.Cfg) (d : Desc) (data : List Byte) : Script :=
  [(.dmaReset, okay), (.dmaEnable .wr d.cls d.words d.options, okay)] ++ outScript cfg data

/-- A Read that returns `data` (R132). -/
def readScript (cfg : Config.Cfg) (d : Desc) (data : List Byte) : Script :=
  [(.dmaReset, okay), (.dmaEnable .rd d.cls d.words d.options, okay)] ++ inScript cfg data

/-- The start of a candidate's round in DETECT (R142): SetType with code `k` over the byte `b` of the image, a poll that
answers `ready`, a Reset. -/
def candidateScript (cfg : Config.Cfg) (b ready : Byte) (k : BitVec 3) : Script :=
  [(.regWrite .reg cfg.ramtypeAddr [setField cfg.ramtypeMask.val (k.setWidth 8) b], okay),
   (.regRead .reg cfg.rdyAddr 1, .ok 1 [ready]), (.dmaReset, okay)]

/-- The detection pattern as a byte string. -/
def detData (cfg : Config.Cfg) : List Byte := cfg.detPattern.toList

/-- The rounds of candidates whose Write reads back ten wrong patterns (R142, R148): `rejected` pairs each with its ten
read-backs. -/
def rejectedScript (cfg : Config.Cfg) (b ready : Byte) (rejected : List (BitVec 3 × List (List Byte))) : Script :=
  rejected.flatMap fun c =>
    candidateScript cfg b ready c.1 ++ failedWriteScript cfg (detDesc cfg) (detData cfg) c.2

/-- The round of the candidate that stores and returns the pattern (R142, R148). -/
def acceptedScript (cfg : Config.Cfg) (b ready : Byte) (k : BitVec 3) : Script :=
  candidateScript cfg b ready k ++ writeScript cfg (detDesc cfg) (detData cfg) []
    ++ readScript cfg (detDesc cfg) (detData cfg)

/-- One probe's round of the refine phase, whose Write verifies and whose Read returns `back` (R145). -/
def probeScript (cfg : Config.Cfg) (p : Byte) (back : List Byte) : Script :=
  writeScript cfg (refWDesc cfg p) (refPattern cfg p) [] ++ readScript cfg (refRDesc cfg p) back

/-- The refine phase in which the first probes miss, each with its read-back in `missed`, and the next probe, if one is
left, matches (R145). -/
def refineScript (cfg : Config.Cfg) (missed : List (List Byte)) : Script :=
  (Config.probes.zip missed).flatMap (fun c => probeScript cfg c.1 c.2)
    ++ match Config.probes[missed.length]? with
      | some p => probeScript cfg p (refPattern cfg p)
      | none => []

/-- A whole DETECT under an environment that supports code `k` (R148), with the size class `cls` at its end (R146). -/
def detectScript (cfg : Config.Cfg) (b ready : Byte) (rejected : List (BitVec 3 × List (List Byte))) (k : BitVec 3)
    (missed : List (List Byte)) (cls : BitVec 3) : Script :=
  rejectedScript cfg b ready rejected ++ acceptedScript cfg b ready k ++ refineScript cfg missed
    ++ [(.regWrite .reg cfg.ramtypeAddr [setField cfg.ramtypeMask.val (cls.setWidth 8) b], okay)]

/-! ### DETECT as a host would run it -/

/-- Two states agree in the image, the working registers but for `PROBE`, the inputs, the transactions with their answers,
and `CFG`. The DMA registers and the response are not in it, nor are the sequencer's points at which the transactions were
issued. -/
structure SameEffects (s t : State) : Prop where
  image : SameImage s t
  attempt : t.attempt = s.attempt
  polls : t.polls = s.polls
  cand : t.cand = s.cand
  scratch : t.scratch = s.scratch
  replies : t.replies = s.replies
  avails : t.avails = s.avails
  history : t.history = s.history
  setting : SameSetting s t

/-- The state after a command. -/
def after (i : Instr) (s : State) : State :=
  match exec i s with
  | .next t => t
  | .fault _ => s
  | .refused _ => s

/-- Commands run one after the other for as long as each ends `OK`: the state after the last one that ran. -/
def whileOk : List Instr → State → State
  | [], s => s
  | i :: rest, s => if (after i s).status = .ok then whileOk rest (after i s) else after i s

/-- One candidate's round as commands (R142, R143): a SETTYPE that does not end `OK` aborts; then WaitReady, Reset, the
Write and the Read of `DET_DESC`, for as long as each ends `OK`; the candidate is accepted when all did and the bytes read
are the pattern, and rejected otherwise. -/
def hostCandidate (k : BitVec 3) (s : State) : Judged :=
  let d := detDesc s.cfg
  let a := after (.settype k) (s.setCand k)
  let b := whileOk [.dmawait s.cfg.detTimeout, .dmareset, .dmawrite d.cls d.size d.options (detData s.cfg),
    .dmaread d.cls d.size d.options] a
  if a.status ≠ .ok then ⟨a, .aborted⟩
  else if b.status = .ok ∧ b.dout = detData s.cfg then ⟨b, .accepted⟩
  else ⟨b, .rejected⟩

/-- The coarse phase as commands (R142): candidates in order, up to the first that is not rejected. -/
def hostCoarse : List (BitVec 3) → State → Judged
  | [], s => ⟨s, .rejected⟩
  | k :: ks, s =>
    match (hostCandidate k s).verdict with
    | .rejected => hostCoarse ks (hostCandidate k s).state
    | .accepted => hostCandidate k s
    | .aborted => hostCandidate k s

/-- One probe's round as commands (R145): a Write or a Read that does not end `OK` aborts; the probe matches when the bytes
read are its pattern. -/
def hostProbe (p : Byte) (s : State) : Judged :=
  let w := refWDesc s.cfg p
  let d := refRDesc s.cfg p
  let a := whileOk [.dmawrite w.cls w.size w.options (refPattern s.cfg p), .dmaread d.cls d.size d.options] (s.setProbe p)
  if a.status ≠ .ok then ⟨a, .aborted⟩
  else if a.dout = refPattern s.cfg p then ⟨a, .accepted⟩
  else ⟨a, .rejected⟩

/-- The refine phase as commands (R145): probes in order, up to the first that matches or aborts. -/
def hostRefine : List Byte → State → Judged
  | [], s => ⟨s, .rejected⟩
  | p :: ps, s =>
    match (hostProbe p s).verdict with
    | .rejected => hostRefine ps (hostProbe p s).state
    | .accepted => hostProbe p s
    | .aborted => hostProbe p s

/-- The size class of an accepted code after the refine phase: that of the matching probe, or of none (R145). -/
def hostClass (k : BitVec 3) (r : Judged) : BitVec 3 :=
  refineClass r.state.cfg k (if r.verdict = .accepted then some r.state.probe else none)

/-! ### The invariant -/

/-- The statuses `STATUS` can hold (R160, U25). -/
def Status.answered : Status → Bool
  | .ok | .timeout | .transportFailure | .illegalCommand | .boundsFault | .badOperand | .sequenceFault | .initFatal => true
  | .verifyMismatch | .capabilityAbsent | .calibrationOutOfRange | .cancelled => false

/-- What holds of the block between commands: the sequencer is idle (R20), the image has its canonical form (R10), `DESC`
and `REMAIN` fit `DSTATE` (R21 to R23, R112), `ATTEMPT` is at most 10 (R24), `CAND` is a code and `PROBE` is 0 (R14, R25,
R141), there is no scratch buffer (R26), and `STATUS` and `DOUT` are as the block answers them (R160, R77). -/
structure State.Inv (s : State) : Prop where
  seq : s.seq = .idle
  image : Memory.wf s = true
  unarmed : s.dstate = .idle → s.remain = 0 ∧ s.desc = Desc.zero
  armed : s.dstate ≠ .idle → s.desc.valid = true ∧ s.remain ≠ 0 ∧ s.remain ≤ s.desc.size
  attempt : s.attempt ≤ Config.writeAttempts
  cand : s.cand ≤ maxCode
  probe : s.probe = 0
  scratch : s.scratch = none
  status : s.status.answered = true
  dout : s.dout = [] ∨ s.dout.length = s.res.toNat

end Sys2Proof.Machine
end

