-- ==== Sys2Proof/Certificates/Slice0/Obligations.lean ====
section
/-! DEFINITION. The statements about the model, from the numbered rules of spec/. Each docstring names the rules it
formalises. -/

open Sys2Proof Sys2Proof.Machine

/-! ### The encoding (30_encoding.md) -/

/-- R70 to R73, R76: decoding the encoding of a well-formed command gives the command back, at every operand value. -/
def Obligations.DecodeInvertsEncode : Prop :=
  ∀ i : Instr, WellFormed i → decode (encode i) = .instr i

/-- R72, R74: each command has one encoding: what decodes to it is its encoding, and it is well formed. -/
def Obligations.EncodeInvertsDecode : Prop :=
  ∀ (c : Command) (i : Instr), decode c = .instr i → encode i = c ∧ WellFormed i

/-- R72, R74, R75, against the rows of opcode_table.json: a header that fits a row decodes to that row's operation, and a
header that fits none is illegal. -/
def Obligations.LegalHeadersAreTheTableRows : Prop :=
  ∀ (w : HeaderBits) (payload : List Byte),
    (∀ row ∈ opcodeRows, w &&& row.2.1 = row.2.2 → ∃ i, decodeHeader w payload = .instr i ∧ i.op = row.1)
      ∧ ((∀ row ∈ opcodeRows, w &&& row.2.1 ≠ row.2.2) → ∃ why, decodeHeader w payload = .illegal why)

/-- R71, R73: every operand is a field of the header as it stands; a payload operand is the payload. -/
def Obligations.OperandsAreHeaderFields : Prop :=
  ∀ (w : HeaderBits) (payload : List Byte) (i : Instr), decodeHeader w payload = .instr i →
    match i with
    | .bfget off mask => off = w.extractLsb' 64 16 ∧ mask = w.extractLsb' 32 8
    | .bfset off mask val => off = w.extractLsb' 64 16 ∧ mask = w.extractLsb' 32 8 ∧ val = w.extractLsb' 0 8
    | .wbfset off mask val => off = w.extractLsb' 64 16 ∧ mask = w.extractLsb' 32 32 ∧ val = w.extractLsb' 0 32
    | .getle nm1 off | .getbe nm1 off => nm1 = w.extractLsb' 80 2 ∧ off = w.extractLsb' 64 16
    | .setle nm1 off val | .setbe nm1 off val =>
      nm1 = w.extractLsb' 80 2 ∧ off = w.extractLsb' 64 16 ∧ val = w.extractLsb' 0 32
    | .dmareset | .dmacancel | .detect => True
    | .dmaenrd cls size options | .dmaenwr cls size options | .dmaread cls size options =>
      cls = w.extractLsb' 64 16 ∧ size = w.extractLsb' 32 32 ∧ options = w.extractLsb' 0 32
    | .dmawrite cls size options data =>
      cls = w.extractLsb' 64 16 ∧ size = w.extractLsb' 32 32 ∧ options = w.extractLsb' 0 32 ∧ data = payload
    | .dmawait timeout => timeout = w.extractLsb' 32 32
    | .bulkrd n => n = w.extractLsb' 32 32
    | .bulkwr n data => n = w.extractLsb' 32 32 ∧ data = payload
    | .settype code => code = w.extractLsb' 80 3

/-- The worked examples' headers (R91, R96, R101, R113, R119, R123, R139): a sanity check of a few words. -/
def Obligations.SpecWordsDecode : Prop :=
  decode ⟨0x010000100000003800000000, []⟩ = .instr (.bfget 0x10 0x38)
    ∧ decode ⟨0x0300010000FFFFF0000ABCDE, []⟩ = .instr (.wbfset 0x100 0x00FFFFF0 0xABCDE)
    ∧ decode ⟨0x0702002000000000AABBCCDD, []⟩ = .instr (.setbe 2 0x20 0xAABBCCDD)
    ∧ decode ⟨0x110000040000002000000102, []⟩ = .instr (.dmaenrd 4 32 0x102)
    ∧ decode ⟨0x14000000000005DC00000000, []⟩ = .instr (.dmawait 1500)
    ∧ decode ⟨0x160000000000000400000000, [0xDE, 0xAD, 0xBE, 0xEF]⟩ = .instr (.bulkwr 4 [0xDE, 0xAD, 0xBE, 0xEF])
    ∧ decode ⟨0x1A0300000000000000000000, []⟩ = .instr (.settype 3)

/-! ### The command port (R19, R76, R77, R162, R178) -/

/-- R19, R178: when the block is idle and the host's next input is a command that decodes, the step is that command's
meaning, with the input taken. -/
def Obligations.StepRunsDecodedCommand : Prop :=
  ∀ (s : State) (c : Command) (rest : List HostInput) (i : Instr), s.seq = .idle → s.host = .command c :: rest →
    decode c = .instr i → step s = exec i { s with host := rest }

/-- R162: a command whose header is illegal is answered `IllegalCommand` and does nothing else. -/
def Obligations.IllegalHeaderOnlyAnswers : Prop :=
  ∀ (s : State) (c : Command) (rest : List HostInput) (why : Illegal), s.seq = .idle → s.host = .command c :: rest →
    decode c = .illegal why →
    ∃ t, step s = .next t ∧ AnswersOnly { s with host := rest } t .illegalCommand 0 []

/-- R76: the payload length is `B` for `OP` 0x16 and 0x19 and 0 otherwise; a command with a payload of that length, legal
or not, is consumed with it, and a pair with another payload is refused at the boundary. -/
def Obligations.PayloadLengthDecides : Prop :=
  ∀ (s : State) (c : Command) (rest : List HostInput), s.seq = .idle → s.host = .command c :: rest →
    let announced := if c.header.extractLsb' 88 8 = 0x16 ∨ c.header.extractLsb' 88 8 = 0x19
      then (c.header.extractLsb' 32 32).toNat else 0
    (c.payload.length = announced → ∃ t, step s = .next t ∧ t.host = rest)
      ∧ (c.payload.length ≠ announced → step s = .refused .payloadLength)

/-- R77: every command answers exactly one response, which is what `STATUS`, `RES` and `DOUT` hold; `DOUT` is empty but for
BULKRD and DMAREAD, where its length equals `RES` and is at most `B`. -/
def Obligations.OneResponsePerCommand : Prop :=
  ∀ (i : Instr) (s : State), WellFormed i → ∃ t, exec i s = .next t ∧ Answers s t t.status t.res t.dout
    ∧ match i with
      | .bulkrd n => t.dout.length = t.res.toNat ∧ t.dout.length ≤ n.toNat
      | .dmaread _ size _ => t.dout.length = t.res.toNat ∧ t.dout.length ≤ size.toNat
      | _ => t.dout = []

/-- R160: the "raised by" column, the statuses each command can answer, and the "code" column, the number of each status the
block answers. -/
def Obligations.StatusesOfEachCommand : Prop :=
  (∀ (i : Instr) (s t : State), WellFormed i → exec i s = .next t → t.status ∈ answersOf i.op)
    ∧ Status.ok.code = 0 ∧ Status.timeout.code = 1 ∧ Status.transportFailure.code = 2
    ∧ Status.illegalCommand.code = 8 ∧ Status.boundsFault.code = 9 ∧ Status.badOperand.code = 10
    ∧ Status.sequenceFault.code = 11 ∧ Status.initFatal.code = 12

/-- R165: a command that ends in one of the four added faults is a no-op apart from its response and its payload. -/
def Obligations.FaultingCommandsAreNoOps : Prop :=
  ∀ (s t : State) (c : Command) (rest : List HostInput), s.seq = .idle → s.host = .command c :: rest →
    step s = .next t → t.status ∈ [Status.boundsFault, .badOperand, .sequenceFault, .illegalCommand] →
    AnswersOnly { s with host := rest } t t.status 0 []

/-- R19, R27, R31, R60: a step takes at most one input, never changes `CFG` but for the image a reset brings, and only adds
to the list of transactions and to the list of responses. -/
def Obligations.StepExtendsHistory : Prop :=
  ∀ s t : State, step s = .next t →
    t.host = s.host.tail ∧ s.trace <+: t.trace ∧ s.responses <+: t.responses
      ∧ t.cfg = { s.cfg with riInit := t.cfg.riInit }
      ∧ ((∀ c, s.host.head? ≠ some (.reset c)) → (∀ c n image, s.host.head? ≠ some (.resetDuring c n image)) → t.cfg = s.cfg)

/-! ### Reset and the invariant (R32, R190 to R192) -/

/-- R32, with the observations the model adds (notes/assumptions/22.md): the registers after reset, and `RI_INIT` in the
image. Leans on `RI_SIZE = 1818` (R6, U28). -/
def Obligations.ResetValues : Prop :=
  State.reset.status.code = 0 ∧ State.reset.res = 0 ∧ State.reset.dout = [] ∧ State.reset.seq = .idle
    ∧ State.reset.dstate.code = 0 ∧ State.reset.desc = ⟨0, 0, 0⟩ ∧ State.reset.remain = 0 ∧ State.reset.attempt = 0
    ∧ State.reset.polls = 0 ∧ State.reset.cand = 0 ∧ State.reset.probe = 0 ∧ State.reset.scratch = none
    ∧ State.reset.cfg = Config.strapped ∧ State.reset.trace = []
    ∧ ∀ (a : Nat) (h : a < 1818), State.reset.riByte a = Config.riInit[a]

/-- R32, R190, R191, R192: a reset of an idle block puts every register at its value of R32, whatever it was, sends no
transaction and gives no response; only `CFG` survives. That each reset brings its own image, which `CFG` then holds as
`RI_INIT`, and that the lists of transactions and responses are kept, are the model's choices (notes/assumptions/9.md and
22.md). Leans on `RI_SIZE = 1818` (R6, U28). -/
def Obligations.HostResetRestores : Prop :=
  ∀ (s : State) (image : Vector Byte 1818) (rest : List HostInput), s.seq = .idle → s.host = .reset image :: rest →
    ∃ t, step s = .next t
      ∧ t.status = .ok ∧ t.res = 0 ∧ t.dout = [] ∧ t.seq = .idle ∧ Unarmed t ∧ t.attempt = 0 ∧ t.polls = 0 ∧ t.cand = 0
      ∧ t.probe = 0 ∧ t.scratch = none ∧ (∀ (a : Nat) (h : a < 1818), t.riByte a = image[a])
      ∧ t.cfg = { s.cfg with riInit := image } ∧ t.trace = s.trace ∧ t.responses = s.responses ∧ t.host = rest

/-- R190, U26: a reset that strikes a command after `n` of its transactions leaves the reset state and no response; the
transactions already answered stay in the history. A command with an illegal header has none, and is cut off in the same way;
a pair that is no command is refused (R76). That a command is cut off in this way, and that a transaction issued and not yet
answered is forgotten, are the model's choices (notes/assumptions/23.md and 24.md). Leans on `RI_SIZE = 1818` (R6, U28). -/
def Obligations.ResetCutsOffCommand : Prop :=
  ∀ (s : State) (c : Command) (n : Nat) (image : Vector Byte 1818) (rest : List HostInput),
    s.seq = .idle → s.host = .resetDuring c n image :: rest →
    (∀ (i : Instr) (u : State) (added : List Event), decode c = .instr i → exec i { s with host := rest } = .next u →
        u.trace = s.trace ++ added →
        ∃ t, step s = .next t ∧ LeavesReset s t image rest ∧ t.trace = s.trace ++ added.take n
          ∧ t.replies = s.replies.drop (added.take n).length)
      ∧ (∀ why, decode c = .illegal why →
        ∃ t, step s = .next t ∧ LeavesReset s t image rest ∧ t.trace = s.trace ∧ t.replies = s.replies
          ∧ t.avails = s.avails)
      ∧ (decode c = .notCommand → step s = .refused .payloadLength)

/-- The invariant holds at reset (R20 to R26, R32). -/
def Obligations.ResetMeetsInvariant : Prop := State.reset.Inv

/-- Every step keeps the invariant (R10, R14, R20 to R26, R77, R160, R164, R167): the sequencer is idle, the image has its
canonical form, `DESC` and `REMAIN` fit `DSTATE`, `ATTEMPT` is at most 10, `CAND` is a code, `PROBE` is 0, there is no
scratch buffer, and `STATUS` never holds a code the block does not answer. -/
def Obligations.StepKeepsInvariant : Prop :=
  ∀ s t : State, s.Inv → step s = .next t → t.Inv

/-! ### Whole-machine rules -/

/-- R13, R49: only BFSET, WBFSET, SETLE, SETBE, SETTYPE and DETECT change the Register Image. -/
def Obligations.OnlyTheNamedCommandsChangeTheImage : Prop :=
  ∀ (i : Instr) (s t : State), WellFormed i → exec i s = .next t →
    i.op ∉ [Op.bfset, .wbfset, .setle, .setbe, .settype, .detect] → SameImage s t

/-- R110, the rows "any codec command, SETTYPE" and `WaitReadyProc`: the DMA registers are unchanged in every outcome. -/
def Obligations.DmaRegistersKept : Prop :=
  ∀ (i : Instr) (s t : State), exec i s = .next t → isCodec i = true ∨ i.op = .settype ∨ i.op = .dmawait → SameDma s t

/-- R24, R25, R26: the working registers change only by the commands whose procedures own them. -/
def Obligations.WorkingRegistersKept : Prop :=
  ∀ (i : Instr) (s t : State), WellFormed i → exec i s = .next t →
    (i.op ∉ [Op.dmawrite, .detect] → t.attempt = s.attempt ∧ t.scratch = s.scratch ∧ t.avails = s.avails)
      ∧ (i.op ∉ [Op.dmawait, .detect] → t.polls = s.polls)
      ∧ (i.op ≠ .detect → t.cand = s.cand ∧ t.probe = s.probe)

/-- R149: every command ends, after at most the transactions R149 counts. -/
def Obligations.EveryCommandEndsWithinItsBound : Prop :=
  ∀ (i : Instr) (s : State), WellFormed i →
    ∃ (t : State) (added : List Event), exec i s = .next t ∧ t.trace = s.trace ++ added ∧ added.length ≤ transactionBound s.cfg i

/-- R51, R52, R55, R57: every transaction of every command is one the block may issue, with a legal answer; the command takes
one answer from the environment for each, and the answer recorded for the `k`-th IS the one taken (R50, R59): the `k`-th of
the answers at hand, or where none is left what the free oracle gives for the history so far, cut to the sizes of R51
(notes/assumptions/5.md and 6.md). The answers that the statements below bind by an existential over the transactions issued
are these. -/
def Obligations.TransactionsAreTheBlocksOwn : Prop :=
  ∀ (i : Instr) (s t : State), WellFormed i → exec i s = .next t →
    ∃ added, t.trace = s.trace ++ added ∧ t.replies = s.replies.drop added.length
      ∧ (∀ e ∈ added, e.Proper s.cfg) ∧ Taken s added

/-- R50, R51, in the model's form of the environment (notes/assumptions/5.md and 6.md): the answer to a transaction is
always one of the legal answers of its row of R51; where an answer is at hand or the free oracle gives one, it is that one,
cut to the sizes of R51; and a legal answer is not changed by the cut. -/
def Obligations.AnswersAreTheEnvironments : Prop :=
  ∀ (s : State) (tx : Transaction),
    (s.nextReply tx).legal tx = true
      ∧ (∀ r rest, s.replies = r :: rest → s.nextReply tx = tx.fit r)
      ∧ (s.replies = [] → s.nextReply tx = tx.fit (Config.env s.history tx))
      ∧ ∀ r, r.legal tx = true → tx.fit r = r

/-- R131: in DMAREAD, DMAWRITE and SETTYPE a transaction that fails, or a bulk chunk that moves fewer bytes than it has, is
the command's last, and the command ends `TransportFailure`, with nothing armed after DMAREAD and DMAWRITE. -/
def Obligations.CompositesStopAtTheFirstFailure : Prop :=
  ∀ (i : Instr) (s t : State) (x : Script), WellFormed i → i.op ∈ [Op.dmaread, .dmawrite, .settype] →
    exec i s = .next t → t.history = s.history ++ x →
    ∀ e (n : Nat), x[n]? = some e → ¬ full e →
      n + 1 = x.length ∧ t.status = .transportFailure ∧ (i.op ≠ .settype → Unarmed t)

/-! ### The codec (40_codec.md) -/

/-- R43: an access outside offsets 0 to 1817 answers `BoundsFault` and does nothing else; any other ends `OK`. Leans on
`RI_SIZE = 1818` (R6, U28). -/
def Obligations.BoundsAreAllOrNothing : Prop :=
  ∀ (i : Instr) (s : State) (a n : Nat), touches i = some (a, n) →
    ∃ t, exec i s = .next t
      ∧ (a + n - 1 ≤ 1817 → t.status = .ok)
      ∧ (1817 < a + n - 1 → AnswersOnly s t .boundsFault 0 [])

/-- R91: BFGET: its encoding, the field it answers, what it leaves, and where it faults. Leans on `RI_SIZE = 1818` (R6, U28).
-/
def Obligations.BfgetReturnsTheField : Prop :=
  ∀ (off : Half) (mask : Byte) (s : State), ∃ t k, exec (.bfget off mask) s = .next t
    ∧ encode (.bfget off mask) = ⟨(⟨0x01, 0, off, mask.setWidth 32, 0⟩ : Header).bits, []⟩ ∧ IsLsb mask k
    ∧ (off.toNat ≤ 1817 → AnswersOnly s t .ok (((s.riByte off.toNat &&& mask) >>> k).setWidth 32) [])
    ∧ (1817 < off.toNat → AnswersOnly s t .boundsFault 0 [])

/-- R93: BFSET: its encoding, the byte it writes, what it leaves, and where it faults. Leans on `RI_SIZE = 1818` (R6, U28).
-/
def Obligations.BfsetWritesTheField : Prop :=
  ∀ (off : Half) (mask val : Byte) (s : State), ∃ t k, exec (.bfset off mask val) s = .next t
    ∧ encode (.bfset off mask val) = ⟨(⟨0x02, 0, off, mask.setWidth 32, val.setWidth 32⟩ : Header).bits, []⟩ ∧ IsLsb mask k
    ∧ (off.toNat ≤ 1817 → Answers s t .ok 0 [] ∧ CodecFrame s t
        ∧ ∀ a, t.riByte a =
            if a = off.toNat then (s.riByte a &&& ~~~mask) ||| ((val <<< k) &&& mask) else s.riByte a)
    ∧ (1817 < off.toNat → AnswersOnly s t .boundsFault 0 [])

/-- R94: the laws of the single-byte accessors, through the commands. Leans on `RI_SIZE = 1818` (R6, U28). -/
def Obligations.SingleByteLaws : Prop :=
  ∀ (off : Half) (m v : Byte) (s : State), off.toNat ≤ 1817 →
    ∃ t u k, exec (.bfset off m v) s = .next t ∧ exec (.bfget off m) t = .next u ∧ IsLsb m k
      ∧ t.riByte off.toNat &&& ~~~m = s.riByte off.toNat &&& ~~~m
      ∧ u.status = .ok ∧ u.res = (v &&& (m >>> k)).setWidth 32

/-- R96, in closed form: with `first` the first non-zero mask byte and `p` its lowest set bit, byte `first` takes `8 - p`
value bits and every later byte of the span takes 8; the bytes before `first` and those outside the span are unchanged. Leans
on `RI_SIZE = 1818` (R6, U28). -/
def Obligations.WbfsetPlacesTheBits : Prop :=
  ∀ (off : Half) (mask val : Word) (s : State), ∃ t n, exec (.wbfset off mask val) s = .next t
    ∧ encode (.wbfset off mask val) = ⟨(⟨0x03, 0, off, mask, val⟩ : Header).bits, []⟩ ∧ IsSpan mask n
    ∧ (1817 < off.toNat + max n 1 - 1 → AnswersOnly s t .boundsFault 0 [])
    ∧ (off.toNat + max n 1 - 1 ≤ 1817 → Answers s t .ok 0 [] ∧ CodecFrame s t
        ∧ (∀ a, a < off.toNat ∨ off.toNat + n ≤ a → t.riByte a = s.riByte a)
        ∧ ∀ first, first < 4 → mask.extractLsb' (8 * first) 8 ≠ 0 →
            (∀ j, j < first → mask.extractLsb' (8 * j) 8 = 0) →
            ∃ p, IsLsb (mask.extractLsb' (8 * first) 8) p
              ∧ (∀ j, j < first → t.riByte (off.toNat + j) = s.riByte (off.toNat + j))
              ∧ t.riByte (off.toNat + first)
                = (s.riByte (off.toNat + first) &&& ~~~mask.extractLsb' (8 * first) 8)
                  ||| ((val.setWidth 8 <<< p) &&& mask.extractLsb' (8 * first) 8)
              ∧ ∀ j, first < j → j < n → ∃ q, IsLsb (mask.extractLsb' (8 * j) 8) q
                  ∧ t.riByte (off.toNat + j)
                    = (s.riByte (off.toNat + j) &&& ~~~mask.extractLsb' (8 * j) 8)
                      ||| (((val >>> (8 - p + 8 * (j - first - 1))).setWidth 8 <<< q)
                          &&& mask.extractLsb' (8 * j) 8))

/-- R97 (b): for a contiguous mask WBFSET is the plain little-endian field store. Leans on `RI_SIZE = 1818` (R6, U28). -/
def Obligations.WbfsetContiguousIsAFieldStore : Prop :=
  ∀ (off : Half) (w p : Nat) (val : Word) (s : State), 1 ≤ w → p + w ≤ 32 → off.toNat + (p + w - 1) / 8 ≤ 1817 →
    let mask := BitVec.ofNat 32 ((2 ^ w - 1) * 2 ^ p)
    ∃ t, exec (.wbfset off mask val) s = .next t ∧ t.status = .ok
      ∧ imageWord t off.toNat = (imageWord s off.toNat &&& ~~~mask) ||| ((val <<< p) &&& mask)

/-- R98: GETLE: its encoding, the zero-extended little-endian integer, and where it faults. Leans on `RI_SIZE = 1818`;
`INT_N_MIN = 1` (R6, U28). -/
def Obligations.GetleReturnsTheInteger : Prop :=
  ∀ (nm1 : BitVec 2) (off : Half) (s : State), ∃ t, exec (.getle nm1 off) s = .next t
    ∧ encode (.getle nm1 off) = ⟨(⟨0x04, nm1.setWidth 8, off, 0, 0⟩ : Header).bits, []⟩
    ∧ (off.toNat + (nm1.toNat + 1) - 1 ≤ 1817 → AnswersOnly s t .ok
        (BitVec.ofNat 32 (∑ i ∈ Finset.range (nm1.toNat + 1), (s.riByte (off.toNat + i)).toNat * 2 ^ (8 * i))) [])
    ∧ (1817 < off.toNat + (nm1.toNat + 1) - 1 → AnswersOnly s t .boundsFault 0 [])

/-- R99: GETBE: its encoding, the zero-extended big-endian integer, and where it faults. Leans on `RI_SIZE = 1818`;
`INT_N_MIN = 1` (R6, U28). -/
def Obligations.GetbeReturnsTheInteger : Prop :=
  ∀ (nm1 : BitVec 2) (off : Half) (s : State), ∃ t, exec (.getbe nm1 off) s = .next t
    ∧ encode (.getbe nm1 off) = ⟨(⟨0x05, nm1.setWidth 8, off, 0, 0⟩ : Header).bits, []⟩
    ∧ (off.toNat + (nm1.toNat + 1) - 1 ≤ 1817 → AnswersOnly s t .ok
        (BitVec.ofNat 32
          (∑ i ∈ Finset.range (nm1.toNat + 1), (s.riByte (off.toNat + (nm1.toNat - i))).toNat * 2 ^ (8 * i))) [])
    ∧ (1817 < off.toNat + (nm1.toNat + 1) - 1 → AnswersOnly s t .boundsFault 0 [])

/-- R100: SETLE: its encoding, the bytes it writes, what it leaves, and where it faults. Leans on `RI_SIZE = 1818`;
`INT_N_MIN = 1` (R6, U28). -/
def Obligations.SetleStoresTheInteger : Prop :=
  ∀ (nm1 : BitVec 2) (off : Half) (val : Word) (s : State), ∃ t, exec (.setle nm1 off val) s = .next t
    ∧ encode (.setle nm1 off val) = ⟨(⟨0x06, nm1.setWidth 8, off, 0, val⟩ : Header).bits, []⟩
    ∧ (off.toNat + (nm1.toNat + 1) - 1 ≤ 1817 → Answers s t .ok 0 [] ∧ CodecFrame s t
        ∧ (∀ i, i < nm1.toNat + 1 → t.riByte (off.toNat + i) = val.extractLsb' (8 * i) 8)
        ∧ ∀ a, a < off.toNat ∨ off.toNat + (nm1.toNat + 1) ≤ a → t.riByte a = s.riByte a)
    ∧ (1817 < off.toNat + (nm1.toNat + 1) - 1 → AnswersOnly s t .boundsFault 0 [])

/-- R101: SETBE: its encoding, the bytes it writes, what it leaves, and where it faults. Leans on `RI_SIZE = 1818`;
`INT_N_MIN = 1` (R6, U28). -/
def Obligations.SetbeStoresTheInteger : Prop :=
  ∀ (nm1 : BitVec 2) (off : Half) (val : Word) (s : State), ∃ t, exec (.setbe nm1 off val) s = .next t
    ∧ encode (.setbe nm1 off val) = ⟨(⟨0x07, nm1.setWidth 8, off, 0, val⟩ : Header).bits, []⟩
    ∧ (off.toNat + (nm1.toNat + 1) - 1 ≤ 1817 → Answers s t .ok 0 [] ∧ CodecFrame s t
        ∧ (∀ i, i < nm1.toNat + 1 → t.riByte (off.toNat + i) = val.extractLsb' (8 * (nm1.toNat - i)) 8)
        ∧ ∀ a, a < off.toNat ∨ off.toNat + (nm1.toNat + 1) ≤ a → t.riByte a = s.riByte a)
    ∧ (1817 < off.toNat + (nm1.toNat + 1) - 1 → AnswersOnly s t .boundsFault 0 [])

/-- R102: the laws of the integer accessors, through the commands. Leans on `RI_SIZE = 1818`; `INT_N_MIN = 1` (R6, U28). -/
def Obligations.IntegerRoundTrips : Prop :=
  ∀ (nm1 : BitVec 2) (off : Half) (val : Word) (s : State), off.toNat + (nm1.toNat + 1) - 1 ≤ 1817 →
    ∃ t le again be again' t' be',
      exec (.setle nm1 off val) s = .next t
      ∧ exec (.getle nm1 off) t = .next le ∧ le.res.toNat = val.toNat % 2 ^ (8 * (nm1.toNat + 1))
      ∧ exec (.getle nm1 off) le = .next again ∧ again.res = le.res
      ∧ exec (.getbe nm1 off) t = .next be
      ∧ exec (.getbe nm1 off) be = .next again' ∧ again'.res = be.res
      ∧ be.res.toNat
        = ∑ i ∈ Finset.range (nm1.toNat + 1), (val.extractLsb' (8 * (nm1.toNat - i)) 8).toNat * 2 ^ (8 * i)
      ∧ exec (.setbe nm1 off val) s = .next t'
      ∧ exec (.getbe nm1 off) t' = .next be' ∧ be'.res.toNat = val.toNat % 2 ^ (8 * (nm1.toNat + 1))

/-- R103: a setter that ends `OK` changes only bits that are in a touched byte and under its mask, and one that ends
otherwise changes no bit. -/
def Obligations.SettersKeepUnrelatedBits : Prop :=
  ∀ (i : Instr) (s t : State), i.op ∈ [Op.bfset, .wbfset, .setle, .setbe] → exec i s = .next t →
    (t.status = .ok → ∀ a, t.riByte a &&& ~~~settable i a = s.riByte a &&& ~~~settable i a)
      ∧ (t.status ≠ .ok → SameImage s t)

/-- R47: a set command done twice leaves the same image as done once. -/
def Obligations.SettersAreIdempotent : Prop :=
  ∀ (i : Instr) (s t u : State), i.op ∈ [Op.bfset, .wbfset, .setle, .setbe] → exec i s = .next t → exec i t = .next u →
    SameImage t u

/-! ### The DMA primitives (41_dma_primitives.md) -/

/-- R111: DMARESET issues its one transaction in every `DSTATE` and leaves nothing armed, whether the answer is `ok` or `fail`. -/
def Obligations.DmaresetForcesIdle : Prop :=
  ∀ s : State, ∃ t, exec .dmareset s = .next t
    ∧ encode .dmareset = ⟨(⟨0x10, 0, 0, 0, 0⟩ : Header).bits, []⟩
    ∧ Answers s t (if (s.nextReply .dmaReset).failed then .transportFailure else .ok) 0 []
    ∧ Issued s t [(.dmaReset, s.nextReply .dmaReset)] ∧ Unarmed t
    ∧ EngineFrame s t ∧ SameWork s t ∧ t.avails = s.avails

/-- R115: DMACANCEL issues its one transaction in every `DSTATE` and leaves nothing armed, whether the answer is `ok` or `fail`. -/
def Obligations.DmacancelForcesIdle : Prop :=
  ∀ s : State, ∃ t, exec .dmacancel s = .next t
    ∧ encode .dmacancel = ⟨(⟨0x13, 0, 0, 0, 0⟩ : Header).bits, []⟩
    ∧ Answers s t (if (s.nextReply .dmaCancel).failed then .transportFailure else .ok) 0 []
    ∧ Issued s t [(.dmaCancel, s.nextReply .dmaCancel)] ∧ Unarmed t
    ∧ EngineFrame s t ∧ SameWork s t ∧ t.avails = s.avails

/-- R112, R113: the operand check, then the `DSTATE` check, then one transaction, which arms a read when it succeeds. -/
def Obligations.DmaenrdArmsARead : Prop :=
  ∀ (cls : Half) (size options : Word) (s : State), ∃ t, exec (.dmaenrd cls size options) s = .next t
    ∧ encode (.dmaenrd cls size options) = ⟨(⟨0x11, 0, cls, size, options⟩ : Header).bits, []⟩
    ∧ (size = 0 ∨ size.toNat % 2 = 1 → AnswersOnly s t .badOperand 0 [])
    ∧ (size ≠ 0 → size.toNat % 2 = 0 → s.dstate ≠ .idle → AnswersOnly s t .sequenceFault 0 [])
    ∧ (size ≠ 0 → size.toNat % 2 = 0 → s.dstate = .idle →
        let tx : Transaction := .dmaEnable .rd cls (size.toNat / 2) options
        Issued s t [(tx, s.nextReply tx)] ∧ EngineFrame s t ∧ SameWork s t ∧ t.avails = s.avails
          ∧ ((s.nextReply tx).failed = true → Answers s t .transportFailure 0 [] ∧ SameDma s t)
          ∧ ((s.nextReply tx).failed = false → Answers s t .ok 0 []
              ∧ t.dstate = .armedRd ∧ t.desc = ⟨cls, size, options⟩ ∧ t.remain = size))

/-- R112, R114: as DMAENRD, for a write. -/
def Obligations.DmaenwrArmsAWrite : Prop :=
  ∀ (cls : Half) (size options : Word) (s : State), ∃ t, exec (.dmaenwr cls size options) s = .next t
    ∧ encode (.dmaenwr cls size options) = ⟨(⟨0x12, 0, cls, size, options⟩ : Header).bits, []⟩
    ∧ (size = 0 ∨ size.toNat % 2 = 1 → AnswersOnly s t .badOperand 0 [])
    ∧ (size ≠ 0 → size.toNat % 2 = 0 → s.dstate ≠ .idle → AnswersOnly s t .sequenceFault 0 [])
    ∧ (size ≠ 0 → size.toNat % 2 = 0 → s.dstate = .idle →
        let tx : Transaction := .dmaEnable .wr cls (size.toNat / 2) options
        Issued s t [(tx, s.nextReply tx)] ∧ EngineFrame s t ∧ SameWork s t ∧ t.avails = s.avails
          ∧ ((s.nextReply tx).failed = true → Answers s t .transportFailure 0 [] ∧ SameDma s t)
          ∧ ((s.nextReply tx).failed = false → Answers s t .ok 0 []
              ∧ t.dstate = .armedWr ∧ t.desc = ⟨cls, size, options⟩ ∧ t.remain = size))

/-- R117: the poll budget is `max(1, ceil(timeout / POLL_MS))`, and poll `i` is within it when it is the first or its time
`i * POLL_MS` is less than the timeout. -/
def Obligations.PollBudgetIsTheCeiling : Prop :=
  ∀ (cfg : Config.Cfg) (timeout : Word),
    pollBudget cfg timeout = max 1 ⌈(timeout.toNat : ℚ) / (cfg.pollMs.val : ℚ)⌉₊
      ∧ ∀ i, i < pollBudget cfg timeout ↔ i = 0 ∨ i * cfg.pollMs.val < timeout.toNat

/-- R118, R119: DMAWAIT polls until a poll fails, shows the bit set, or is the last of its budget; `RES` is the number of
polls in every outcome. -/
def Obligations.DmawaitPolls : Prop :=
  ∀ (timeout : Word) (s : State), ∃ (t : State) (x : Script) (last : Transaction × Reply),
    exec (.dmawait timeout) s = .next t
    ∧ encode (.dmawait timeout) = ⟨(⟨0x14, 0, 0, timeout, 0⟩ : Header).bits, []⟩ ∧ Issued s t x ∧ x.getLast? = some last
      ∧ (∀ e ∈ x, e.1 = .regRead .reg s.cfg.rdyAddr 1)
      ∧ (∀ e ∈ x.dropLast, e.2.failed = false ∧ e.2.bytes.headD 0 &&& s.cfg.rdyMask.val = 0)
      ∧ x.length ≤ pollBudget s.cfg timeout ∧ t.polls.toNat = x.length
      ∧ Answers s t t.status t.polls []
      ∧ (last.2.failed = true → t.status = .transportFailure)
      ∧ (last.2.failed = false → last.2.bytes.headD 0 &&& s.cfg.rdyMask.val ≠ 0 → t.status = .ok)
      ∧ (last.2.failed = false → last.2.bytes.headD 0 &&& s.cfg.rdyMask.val = 0 →
          t.status = .timeout ∧ x.length = pollBudget s.cfg timeout)
      ∧ SameDma s t ∧ EngineFrame s t ∧ t.attempt = s.attempt ∧ t.cand = s.cand ∧ t.probe = s.probe
      ∧ t.scratch = s.scratch ∧ t.avails = s.avails

/-- R120: the preconditions of a bulk command, checked before any transaction. -/
def Obligations.BulkPreconditions : Prop :=
  ∀ (n : Word) (payload : List Byte) (s : State), payload.length = n.toNat →
    ∃ t u, exec (.bulkrd n) s = .next t ∧ exec (.bulkwr n payload) s = .next u
      ∧ (n = 0 → AnswersOnly s t .badOperand 0 [] ∧ AnswersOnly s u .badOperand 0 [])
      ∧ (n ≠ 0 → s.dstate ≠ .armedRd ∨ s.remain.toNat < n.toNat → AnswersOnly s t .sequenceFault 0 [])
      ∧ (n ≠ 0 → s.dstate ≠ .armedWr ∨ s.remain.toNat < n.toNat → AnswersOnly s u .sequenceFault 0 [])
      ∧ (n ≠ 0 → s.dstate = .armedRd → n.toNat ≤ s.remain.toNat → t.status = .ok ∨ t.status = .transportFailure)
      ∧ (n ≠ 0 → s.dstate = .armedWr → n.toNat ≤ s.remain.toNat → u.status = .ok ∨ u.status = .transportFailure)

/-- R110, R121, R122: BULKRD asks for its bytes chunk by chunk, up to the first chunk that fails or is short; `DOUT` is what
arrived, `REMAIN` goes down by it, and nothing is armed after a failure or when `REMAIN` reaches 0. -/
def Obligations.BulkrdMovesByChunks : Prop :=
  ∀ (n : Word) (s : State), n ≠ 0 → s.dstate = .armedRd → n.toNat ≤ s.remain.toNat →
    ∃ (t : State) (x : Script) (last : Transaction × Reply),
      exec (.bulkrd n) s = .next t ∧ Issued s t x ∧ x.getLast? = some last
        ∧ (∀ k e, x[k]? = some e →
            e.1 = .bulkIn (min s.cfg.maxXfer.val (n.toNat - s.cfg.maxXfer.val * k)) ∧ (k + 1 < x.length → full e))
        ∧ Answers s t t.status (BitVec.ofNat 32 t.dout.length) t.dout
        ∧ t.dout = x.flatMap (fun e => e.2.bytes)
        ∧ (last.2.failed = true → t.status = .transportFailure ∧ Unarmed t)
        ∧ (last.2.failed = false → t.status = .ok ∧ t.remain.toNat = s.remain.toNat - t.dout.length
            ∧ t.dstate = (if t.remain = 0 then .idle else .armedRd)
            ∧ t.desc = (if t.remain = 0 then ⟨0, 0, 0⟩ else s.desc))
        ∧ (full last → t.dout.length = n.toNat)
        ∧ EngineFrame s t ∧ SameWork s t ∧ t.avails = s.avails

/-- R110, R121, R123: BULKWR sends its payload chunk by chunk, up to the first chunk that fails or is short. -/
def Obligations.BulkwrMovesByChunks : Prop :=
  ∀ (n : Word) (payload : List Byte) (s : State), payload.length = n.toNat → n ≠ 0 → s.dstate = .armedWr →
    n.toNat ≤ s.remain.toNat →
    ∃ (t : State) (x : Script) (last : Transaction × Reply),
      exec (.bulkwr n payload) s = .next t ∧ Issued s t x ∧ x.getLast? = some last
        ∧ (∀ k e, x[k]? = some e →
            e.1 = .bulkOut ((payload.drop (s.cfg.maxXfer.val * k)).take s.cfg.maxXfer.val)
              ∧ (k + 1 < x.length → full e))
        ∧ Answers s t t.status t.res []
        ∧ t.res.toNat = (x.map fun e => e.2.moved).sum
        ∧ (last.2.failed = true → t.status = .transportFailure ∧ Unarmed t)
        ∧ (last.2.failed = false → t.status = .ok ∧ t.remain.toNat = s.remain.toNat - t.res.toNat
            ∧ t.dstate = (if t.remain = 0 then .idle else .armedWr)
            ∧ t.desc = (if t.remain = 0 then ⟨0, 0, 0⟩ else s.desc))
        ∧ (full last → t.res = n)
        ∧ EngineFrame s t ∧ SameWork s t ∧ t.avails = s.avails

/-- R121, R122: an armed read whose chunks the device answers in full returns all its bytes, after exactly
`ceil(n / MAX_XFER)` transactions. -/
def Obligations.BulkrdFullTransfer : Prop :=
  ∀ (n : Word) (data : List Byte) (rest : List Reply) (s : State), n ≠ 0 → data.length = n.toNat → s.dstate = .armedRd →
    n.toNat ≤ s.remain.toNat → s.replies = Script.answers (inScript s.cfg data) ++ rest →
    ∃ t, exec (.bulkrd n) s = .next t ∧ Answers s t .ok n data ∧ Issued s t (inScript s.cfg data)
      ∧ (inScript s.cfg data).length = ⌈(n.toNat : ℚ) / (s.cfg.maxXfer.val : ℚ)⌉₊
      ∧ t.remain = s.remain - n ∧ (t.remain = 0 → Unarmed t) ∧ (t.remain ≠ 0 → t.dstate = .armedRd ∧ t.desc = s.desc)
      ∧ EngineFrame s t ∧ SameWork s t ∧ t.avails = s.avails

/-- R121, R123: an armed write whose chunks the device moves in full moves all its bytes, after exactly
`ceil(n / MAX_XFER)` transactions. -/
def Obligations.BulkwrFullTransfer : Prop :=
  ∀ (n : Word) (data : List Byte) (rest : List Reply) (s : State), n ≠ 0 → data.length = n.toNat → s.dstate = .armedWr →
    n.toNat ≤ s.remain.toNat → s.replies = Script.answers (outScript s.cfg data) ++ rest →
    ∃ t, exec (.bulkwr n data) s = .next t ∧ Answers s t .ok n [] ∧ Issued s t (outScript s.cfg data)
      ∧ (outScript s.cfg data).length = ⌈(n.toNat : ℚ) / (s.cfg.maxXfer.val : ℚ)⌉₊
      ∧ t.remain = s.remain - n ∧ (t.remain = 0 → Unarmed t) ∧ (t.remain ≠ 0 → t.dstate = .armedWr ∧ t.desc = s.desc)
      ∧ EngineFrame s t ∧ SameWork s t ∧ t.avails = s.avails

/-! ### The DMA composites (42_dma_composites.md) -/

/-- R130, R132, R165: what DMAREAD does in every outcome: with legal operands its transactions are a first part of Reset,
Enable and the bulk-in chunks, and nothing is armed afterwards. With a size of 0 or an odd size it only answers, so that an
armed transfer stays armed: the model follows R165, and U12 of 93_implementation_defined.md, there and not the words of
R130, "in every outcome" (notes/assumptions/17.md). -/
def Obligations.DmareadOutcomes : Prop :=
  ∀ (cls : Half) (size options : Word) (s : State), ∃ (t : State) (x : Script),
    exec (.dmaread cls size options) s = .next t ∧ Issued s t x
      ∧ (size = 0 ∨ size.toNat % 2 = 1 → AnswersOnly s t .badOperand 0 [])
      ∧ (size ≠ 0 → size.toNat % 2 = 0 →
          x.map Prod.fst <+: ([.dmaReset, .dmaEnable .rd cls (size.toNat / 2) options] : List Transaction)
              ++ (List.range (chunkCount s.cfg size.toNat)).map (fun k =>
                  Transaction.bulkIn (min s.cfg.maxXfer.val (size.toNat - s.cfg.maxXfer.val * k)))
          ∧ ((Answers s t .ok size t.dout ∧ t.dout.length = size.toNat)
              ∨ (Answers s t .transportFailure (BitVec.ofNat 32 t.dout.length) t.dout ∧ t.dout.length ≤ size.toNat))
          ∧ t.dout = x.flatMap (fun e => e.2.bytes)
          ∧ Unarmed t ∧ EngineFrame s t ∧ SameWork s t ∧ t.avails = s.avails)

/-- R132: a DMAREAD whose every transaction succeeds in full answers `OK` with the bytes the device returned. -/
def Obligations.DmareadReturnsTheData : Prop :=
  ∀ (cls : Half) (size options : Word) (data : List Byte) (rest : List Reply) (s : State),
    size ≠ 0 → size.toNat % 2 = 0 → data.length = size.toNat →
    s.replies = Script.answers (readScript s.cfg ⟨cls, size, options⟩ data) ++ rest →
    ∃ t, exec (.dmaread cls size options) s = .next t ∧ Answers s t .ok size data
      ∧ Issued s t (readScript s.cfg ⟨cls, size, options⟩ data) ∧ t.trace.length = s.trace.length + 2 + chunkCount s.cfg size.toNat
      ∧ Unarmed t ∧ EngineFrame s t ∧ SameWork s t ∧ t.avails = s.avails

/-- R24, R130, R134, R135, R136, R165: what DMAWRITE does in every outcome. `ATTEMPT`, which it answers in `RES`, is on the
verifying path the number of write attempts started, whichever transaction then fails or is short: an attempt starts when the
EnableWrite before it is answered `ok`, so a failed Reset or first EnableWrite leaves 0, a first data phase that fails or is
short leaves 1, and so does a Cancel or a second EnableWrite that fails after one mismatch. With a size of 0 or an odd size
it only answers, so that an armed transfer stays armed: the model follows R165, and U12 of 93_implementation_defined.md,
there and not the words of R130, "in every outcome" (notes/assumptions/17.md). Leans on `WRITE_ATTEMPTS = 10` (R6, U28). -/
def Obligations.DmawriteOutcomes : Prop :=
  ∀ (cls : Half) (size options : Word) (payload : List Byte) (s : State), payload.length = size.toNat →
    ∃ t, exec (.dmawrite cls size options payload) s = .next t
      ∧ (size = 0 ∨ size.toNat % 2 = 1 → AnswersOnly s t .badOperand 0 [])
      ∧ (size ≠ 0 → size.toNat % 2 = 0 →
          (t.status = .ok ∨ t.status = .transportFailure)
          ∧ Answers s t t.status (BitVec.ofNat 32 t.attempt) [] ∧ t.attempt ≤ 10
          ∧ (t.status = .ok → (1 ≤ t.attempt ↔ s.nextAvail = true))
          ∧ (s.nextAvail = false → t.attempt = 0)
          ∧ (s.nextAvail = true → ∃ x, Issued s t x ∧ t.attempt = x.attempts)
          ∧ Unarmed t ∧ EngineFrame s t ∧ t.polls = s.polls ∧ t.cand = s.cand ∧ t.probe = s.probe ∧ t.scratch = none
          ∧ t.avails = s.avails.tail)

/-- R137, the first clause: with a scratch buffer and every transaction `ok` in full, a Write whose first `a - 1` read-backs
differ and whose `a`-th equals the data, `a` from 1 to 10, ends `OK` with `RES = a` after `a (2c + 3)` transactions. The
exact transactions of a retry (one Reset, a Cancel after each mismatch, no new Reset) are the spec's decision D18. Leans on
`WRITE_ATTEMPTS = 10` (R6, U28). -/
def Obligations.DmawriteMatchesOnTheLastAttempt : Prop :=
  ∀ (cls : Half) (size options : Word) (payload : List Byte) (bad : List (List Byte)) (rest : List Reply) (s : State),
    size ≠ 0 → size.toNat % 2 = 0 → payload.length = size.toNat → s.nextAvail = true →
    bad.length < 10 → (∀ back ∈ bad, back.length = size.toNat ∧ back ≠ payload) →
    s.replies = Script.answers (writeScript s.cfg ⟨cls, size, options⟩ payload bad) ++ rest →
    ∃ t, exec (.dmawrite cls size options payload) s = .next t
      ∧ Answers s t .ok (BitVec.ofNat 32 (bad.length + 1)) []
      ∧ Issued s t (writeScript s.cfg ⟨cls, size, options⟩ payload bad)
      ∧ t.trace.length = s.trace.length + (bad.length + 1) * (2 * chunkCount s.cfg size.toNat + 3)
      ∧ t.attempt = bad.length + 1
      ∧ Unarmed t ∧ EngineFrame s t ∧ t.polls = s.polls ∧ t.cand = s.cand ∧ t.probe = s.probe ∧ t.scratch = none
      ∧ t.avails = s.avails.tail

/-- R137, the second clause: ten read-backs that all differ end the Write `TransportFailure` with `RES = 10` after
`10 (2c + 3) + 1` transactions, by the spec's decision D18. Leans on `WRITE_ATTEMPTS = 10` (R6, U28). -/
def Obligations.DmawriteGivesUpAfterTen : Prop :=
  ∀ (cls : Half) (size options : Word) (payload : List Byte) (bad : List (List Byte)) (rest : List Reply) (s : State),
    size ≠ 0 → size.toNat % 2 = 0 → payload.length = size.toNat → s.nextAvail = true →
    bad.length = 10 → (∀ back ∈ bad, back.length = size.toNat ∧ back ≠ payload) →
    s.replies = Script.answers (failedWriteScript s.cfg ⟨cls, size, options⟩ payload bad) ++ rest →
    ∃ t, exec (.dmawrite cls size options payload) s = .next t
      ∧ Answers s t .transportFailure 10 []
      ∧ Issued s t (failedWriteScript s.cfg ⟨cls, size, options⟩ payload bad)
      ∧ t.trace.length = s.trace.length + (10 * (2 * chunkCount s.cfg size.toNat + 3) + 1)
      ∧ Unarmed t ∧ EngineFrame s t

/-- R134, R137, the third clause: with no scratch buffer the Write is not verified and ends `OK` with `RES = 0` after
`2 + c` transactions. -/
def Obligations.DmawriteWithoutScratch : Prop :=
  ∀ (cls : Half) (size options : Word) (payload : List Byte) (rest : List Reply) (s : State),
    size ≠ 0 → size.toNat % 2 = 0 → payload.length = size.toNat → s.nextAvail = false →
    s.replies = Script.answers (blindWriteScript s.cfg ⟨cls, size, options⟩ payload) ++ rest →
    ∃ t, exec (.dmawrite cls size options payload) s = .next t
      ∧ Answers s t .ok 0 []
      ∧ Issued s t (blindWriteScript s.cfg ⟨cls, size, options⟩ payload)
      ∧ t.trace.length = s.trace.length + (2 + chunkCount s.cfg size.toNat)
      ∧ t.attempt = 0 ∧ Unarmed t ∧ EngineFrame s t

/-- R135, R164: whatever the environment does, a verified Write that ends `OK` has read back, after its last EnableRead of
the same descriptor, exactly the bytes it was to write. -/
def Obligations.DmawriteOkMeansReadBackEqual : Prop :=
  ∀ (cls : Half) (size options : Word) (payload : List Byte) (s t : State),
    payload.length = size.toNat → s.nextAvail = true → exec (.dmawrite cls size options payload) s = .next t →
    t.status = .ok →
    ∃ (before back : Script) (r : Reply),
      t.history = s.history ++ before ++ (.dmaEnable .rd cls (size.toNat / 2) options, r) :: back
        ∧ r.failed = false ∧ (∀ e ∈ back, ∃ n, e.1 = .bulkIn n) ∧ back.flatMap (fun e => e.2.bytes) = payload

/-- R138: under a fault-free transport that returns what was written, DMAWRITE and then DMAREAD of the same descriptor
returns the data, with a scratch buffer and without. The exact transactions of the Write are the spec's decision
D18. -/
def Obligations.WriteThenReadRoundTrip : Prop :=
  ∀ (cls : Half) (size options : Word) (data : List Byte) (rest : List Reply) (s : State),
    size ≠ 0 → size.toNat % 2 = 0 → data.length = size.toNat →
    s.replies = Script.answers (if s.nextAvail then writeScript s.cfg ⟨cls, size, options⟩ data []
        else blindWriteScript s.cfg ⟨cls, size, options⟩ data)
      ++ Script.answers (readScript s.cfg ⟨cls, size, options⟩ data) ++ rest →
    ∃ t u, exec (.dmawrite cls size options data) s = .next t ∧ exec (.dmaread cls size options) t = .next u
      ∧ Issued s t (if s.nextAvail then writeScript s.cfg ⟨cls, size, options⟩ data []
          else blindWriteScript s.cfg ⟨cls, size, options⟩ data)
      ∧ Issued t u (readScript s.cfg ⟨cls, size, options⟩ data)
      ∧ t.status = .ok ∧ t.res = (if s.nextAvail then 1 else 0)
      ∧ u.status = .ok ∧ u.dout = data ∧ u.replies = rest

/-- R139: SETTYPE sets the RAM-type field first and then writes the byte to the device register; no rollback. Leans on the
largest of `RAMTYPE_CODES`, 4 (R6, U28). -/
def Obligations.SettypeSetsFieldThenDevice : Prop :=
  ∀ (code : BitVec 3) (s : State), ∃ t k, exec (.settype code) s = .next t
    ∧ encode (.settype code) = ⟨(⟨0x1A, code.setWidth 8, 0, 0, 0⟩ : Header).bits, []⟩ ∧ IsLsb s.cfg.ramtypeMask.val k
    ∧ (4 < code.toNat → AnswersOnly s t .badOperand 0 [])
    ∧ (code.toNat ≤ 4 →
        let off := s.cfg.ramtypeOff.val
        let mask := s.cfg.ramtypeMask.val
        let b := (s.riByte off &&& ~~~mask) ||| ((code.setWidth 8 <<< k) &&& mask)
        ∃ r, Issued s t [(.regWrite .reg s.cfg.ramtypeAddr [b], r)]
          ∧ Answers s t (if r.failed then .transportFailure else .ok) 0 []
          ∧ (∀ a, t.riByte a = if a = off then b else s.riByte a)
          ∧ SameDma s t ∧ SameWork s t ∧ SameSetting s t ∧ t.avails = s.avails)

/-- R141 to R146: DETECT in every outcome, and when each happens. Its phases are told as the commands a host would send for
them (`hostCoarse`, `hostRefine` of Safety.lean): a SETTYPE of the coarse phase that fails ends it `TransportFailure`; any
other step there that does not end `OK`, and a differing compare, only reject the candidate; it ends `InitFatal` exactly when
all five are rejected; a Write or Read of the refine phase that does not end `OK` ends it `TransportFailure`; and otherwise
the SETTYPE of the class found decides. In each it does to the image, the registers and the transactions what those commands
do. That a DETECT which ends in its coarse phase leaves nothing armed is R141's own sentence; the model disarms there where
the pseudocode does not say so (notes/assumptions/17.md). Leans on `RAMTYPE_CODES = 4, 3, 2, 1, 0`;
`PROBES = 1, 2, 4, 8, 16, 32, 64, 128` (R6, U28). -/
def Obligations.DetectOutcomes : Prop :=
  ∀ s : State,
    let c := hostCoarse [4, 3, 2, 1, 0] s
    let r := hostRefine [1, 2, 4, 8, 16, 32, 64, 128] c.state
    let cls := hostClass c.state.cand r
    let f := after (.settype cls) r.state
    ∃ t, exec .detect s = .next t
    ∧ ((t.status = .ok ∧ t.res.toNat ≤ 4)
        ∨ (t.status = .initFatal ∧ t.res = 0 ∧ t.cand = 0
            ∧ t.riByte s.cfg.ramtypeOff.val &&& s.cfg.ramtypeMask.val = 0)
        ∨ (t.status = .transportFailure ∧ t.res = 0))
    ∧ (t.status = .initFatal ↔ c.verdict = .rejected)
    ∧ (c.verdict = .rejected → SameEffects c.state t)
    ∧ (c.verdict = .aborted → t.status = .transportFailure ∧ SameEffects c.state t)
    ∧ (c.verdict = .accepted → r.verdict = .aborted → t.status = .transportFailure ∧ SameEffects r.state t)
    ∧ (c.verdict = .accepted → r.verdict ≠ .aborted →
        t.status = f.status ∧ (t.status = .ok → t.res = cls.setWidth 32) ∧ SameEffects f t)
    ∧ Answers s t t.status t.res [] ∧ Unarmed t ∧ t.probe = 0 ∧ t.cand.toNat ≤ 4 ∧ SameSetting s t
    ∧ (∀ a, a ≠ s.cfg.ramtypeOff.val → t.riByte a = s.riByte a)
    ∧ t.riByte s.cfg.ramtypeOff.val &&& ~~~s.cfg.ramtypeMask.val
      = s.riByte s.cfg.ramtypeOff.val &&& ~~~s.cfg.ramtypeMask.val

/-- R146: after a DETECT that ends `OK`, BFGET of the RAM-type field returns the class in `RES`, and the last transaction
wrote `RI[RAMTYPE_OFF]` to the device's RAM-type register. -/
def Obligations.DetectOkLeavesTheClass : Prop :=
  ∀ s t : State, exec .detect s = .next t → t.status = .ok →
    ∃ (u : State) (before : Script) (r : Reply),
      exec (.bfget (BitVec.ofNat 16 s.cfg.ramtypeOff.val) s.cfg.ramtypeMask.val) t = .next u
        ∧ u.status = .ok ∧ u.res = t.res
        ∧ t.history = before ++ [(.regWrite .reg s.cfg.ramtypeAddr [t.riByte s.cfg.ramtypeOff.val], r)]
        ∧ r.failed = false

/-- R135, R143, R145, R148: under an environment that supports code `k` (every transaction `ok`, the readiness bit set, the
pattern stored and returned at `k`, other data read back at every code above `k`, a scratch buffer for every Write), DETECT
rejects the codes above `k`, accepts `k`, and ends `OK` with the class of `k` and of the first probe that matches, or of
none; the RAM-type field reads as that class. The exact transactions of each Write and of the retries of a rejected code's
Write are the spec's decision D18, on which this statement depends. Leans on `RAMTYPE_CODES = 4, 3, 2, 1, 0`; the number of
`PROBES`, 8; `WRITE_ATTEMPTS = 10`; `DET_LEN = 2072`; `REF_LEN = 32` (R6, U28). -/
def Obligations.DetectFindsTheSupportedCode : Prop :=
  ∀ (s : State) (k : BitVec 3) (ready : Byte) (rejected : List (BitVec 3 × List (List Byte)))
    (missed : List (List Byte)) (rest : List Reply) (availsRest : List Bool),
    let cls := refineClass s.cfg k Config.probes[missed.length]?
    let b := s.riByte s.cfg.ramtypeOff.val
    ready &&& s.cfg.rdyMask.val ≠ 0 →
    rejected.map Prod.fst ++ [k] <+: [4, 3, 2, 1, 0] →
    (∀ c ∈ rejected, c.2.length = 10 ∧ ∀ back ∈ c.2, back.length = 2072 ∧ back ≠ detData s.cfg) →
    missed.length ≤ 8 →
    (∀ c ∈ Config.probes.zip missed, c.2.length = 32 ∧ c.2 ≠ refPattern s.cfg c.1) →
    s.avails = List.replicate (rejected.length + 1 + min 8 (missed.length + 1)) true ++ availsRest →
    s.replies = Script.answers (detectScript s.cfg b ready rejected k missed cls) ++ rest →
    ∃ t, exec .detect s = .next t ∧ Answers s t .ok (cls.setWidth 32) []
      ∧ Issued s t (detectScript s.cfg b ready rejected k missed cls)
      ∧ getField s.cfg.ramtypeMask.val (t.riByte s.cfg.ramtypeOff.val) = cls.setWidth 8
      ∧ t.cand = k ∧ t.probe = 0 ∧ Unarmed t ∧ t.avails = availsRest
end

