-- ==== Sys2Proof/Laws/State.lean ====
section
/-! SUPPORT. The small lemmas of the record updates on State: one per field per update, so that no later proof unfolds one.
(`settle`, `memWrite` and `raise`, which are not one update, follow from these.) -/

namespace Sys2Proof.Machine

variable (s : State)

/-! ### `State.writeByte` -/

@[simp] theorem writeByte_cfg (a : Nat) (b : Byte) : (s.writeByte a b).cfg = s.cfg := rfl
@[simp] theorem writeByte_ri (a : Nat) (b : Byte) : (s.writeByte a b).ri = Cells.write (initByte s.cfg) a b s.ri := rfl
@[simp] theorem writeByte_status (a : Nat) (b : Byte) : (s.writeByte a b).status = s.status := rfl
@[simp] theorem writeByte_res (a : Nat) (b : Byte) : (s.writeByte a b).res = s.res := rfl
@[simp] theorem writeByte_dout (a : Nat) (b : Byte) : (s.writeByte a b).dout = s.dout := rfl
@[simp] theorem writeByte_seq (a : Nat) (b : Byte) : (s.writeByte a b).seq = s.seq := rfl
@[simp] theorem writeByte_dstate (a : Nat) (b : Byte) : (s.writeByte a b).dstate = s.dstate := rfl
@[simp] theorem writeByte_desc (a : Nat) (b : Byte) : (s.writeByte a b).desc = s.desc := rfl
@[simp] theorem writeByte_remain (a : Nat) (b : Byte) : (s.writeByte a b).remain = s.remain := rfl
@[simp] theorem writeByte_attempt (a : Nat) (b : Byte) : (s.writeByte a b).attempt = s.attempt := rfl
@[simp] theorem writeByte_polls (a : Nat) (b : Byte) : (s.writeByte a b).polls = s.polls := rfl
@[simp] theorem writeByte_cand (a : Nat) (b : Byte) : (s.writeByte a b).cand = s.cand := rfl
@[simp] theorem writeByte_probe (a : Nat) (b : Byte) : (s.writeByte a b).probe = s.probe := rfl
@[simp] theorem writeByte_scratch (a : Nat) (b : Byte) : (s.writeByte a b).scratch = s.scratch := rfl
@[simp] theorem writeByte_host (a : Nat) (b : Byte) : (s.writeByte a b).host = s.host := rfl
@[simp] theorem writeByte_replies (a : Nat) (b : Byte) : (s.writeByte a b).replies = s.replies := rfl
@[simp] theorem writeByte_avails (a : Nat) (b : Byte) : (s.writeByte a b).avails = s.avails := rfl
@[simp] theorem writeByte_trace (a : Nat) (b : Byte) : (s.writeByte a b).trace = s.trace := rfl
@[simp] theorem writeByte_responses (a : Nat) (b : Byte) : (s.writeByte a b).responses = s.responses := rfl

/-! ### `State.goto` -/

@[simp] theorem goto_cfg (p : Seq) : (s.goto p).cfg = s.cfg := rfl
@[simp] theorem goto_ri (p : Seq) : (s.goto p).ri = s.ri := rfl
@[simp] theorem goto_status (p : Seq) : (s.goto p).status = s.status := rfl
@[simp] theorem goto_res (p : Seq) : (s.goto p).res = s.res := rfl
@[simp] theorem goto_dout (p : Seq) : (s.goto p).dout = s.dout := rfl
@[simp] theorem goto_seq (p : Seq) : (s.goto p).seq = p := rfl
@[simp] theorem goto_dstate (p : Seq) : (s.goto p).dstate = s.dstate := rfl
@[simp] theorem goto_desc (p : Seq) : (s.goto p).desc = s.desc := rfl
@[simp] theorem goto_remain (p : Seq) : (s.goto p).remain = s.remain := rfl
@[simp] theorem goto_attempt (p : Seq) : (s.goto p).attempt = s.attempt := rfl
@[simp] theorem goto_polls (p : Seq) : (s.goto p).polls = s.polls := rfl
@[simp] theorem goto_cand (p : Seq) : (s.goto p).cand = s.cand := rfl
@[simp] theorem goto_probe (p : Seq) : (s.goto p).probe = s.probe := rfl
@[simp] theorem goto_scratch (p : Seq) : (s.goto p).scratch = s.scratch := rfl
@[simp] theorem goto_host (p : Seq) : (s.goto p).host = s.host := rfl
@[simp] theorem goto_replies (p : Seq) : (s.goto p).replies = s.replies := rfl
@[simp] theorem goto_avails (p : Seq) : (s.goto p).avails = s.avails := rfl
@[simp] theorem goto_trace (p : Seq) : (s.goto p).trace = s.trace := rfl
@[simp] theorem goto_responses (p : Seq) : (s.goto p).responses = s.responses := rfl

/-! ### `State.respond` -/

@[simp] theorem respond_cfg (st : Status) (r : Word) (o : List Byte) : (s.respond st r o).cfg = s.cfg := rfl
@[simp] theorem respond_ri (st : Status) (r : Word) (o : List Byte) : (s.respond st r o).ri = s.ri := rfl
@[simp] theorem respond_status (st : Status) (r : Word) (o : List Byte) : (s.respond st r o).status = st := rfl
@[simp] theorem respond_res (st : Status) (r : Word) (o : List Byte) : (s.respond st r o).res = r := rfl
@[simp] theorem respond_dout (st : Status) (r : Word) (o : List Byte) : (s.respond st r o).dout = o := rfl
@[simp] theorem respond_seq (st : Status) (r : Word) (o : List Byte) : (s.respond st r o).seq = .idle := rfl
@[simp] theorem respond_dstate (st : Status) (r : Word) (o : List Byte) : (s.respond st r o).dstate = s.dstate := rfl
@[simp] theorem respond_desc (st : Status) (r : Word) (o : List Byte) : (s.respond st r o).desc = s.desc := rfl
@[simp] theorem respond_remain (st : Status) (r : Word) (o : List Byte) : (s.respond st r o).remain = s.remain := rfl
@[simp] theorem respond_attempt (st : Status) (r : Word) (o : List Byte) : (s.respond st r o).attempt = s.attempt := rfl
@[simp] theorem respond_polls (st : Status) (r : Word) (o : List Byte) : (s.respond st r o).polls = s.polls := rfl
@[simp] theorem respond_cand (st : Status) (r : Word) (o : List Byte) : (s.respond st r o).cand = s.cand := rfl
@[simp] theorem respond_probe (st : Status) (r : Word) (o : List Byte) : (s.respond st r o).probe = s.probe := rfl
@[simp] theorem respond_scratch (st : Status) (r : Word) (o : List Byte) : (s.respond st r o).scratch = s.scratch := rfl
@[simp] theorem respond_host (st : Status) (r : Word) (o : List Byte) : (s.respond st r o).host = s.host := rfl
@[simp] theorem respond_replies (st : Status) (r : Word) (o : List Byte) : (s.respond st r o).replies = s.replies := rfl
@[simp] theorem respond_avails (st : Status) (r : Word) (o : List Byte) : (s.respond st r o).avails = s.avails := rfl
@[simp] theorem respond_trace (st : Status) (r : Word) (o : List Byte) : (s.respond st r o).trace = s.trace := rfl
@[simp] theorem respond_responses (st : Status) (r : Word) (o : List Byte) : (s.respond st r o).responses = s.responses ++ [⟨st, r, o⟩] := rfl

/-! ### `State.exchange` -/

@[simp] theorem exchange_cfg (p : Seq) (tx : Transaction) : (s.exchange p tx).cfg = s.cfg := rfl
@[simp] theorem exchange_ri (p : Seq) (tx : Transaction) : (s.exchange p tx).ri = s.ri := rfl
@[simp] theorem exchange_status (p : Seq) (tx : Transaction) : (s.exchange p tx).status = s.status := rfl
@[simp] theorem exchange_res (p : Seq) (tx : Transaction) : (s.exchange p tx).res = s.res := rfl
@[simp] theorem exchange_dout (p : Seq) (tx : Transaction) : (s.exchange p tx).dout = s.dout := rfl
@[simp] theorem exchange_seq (p : Seq) (tx : Transaction) : (s.exchange p tx).seq = p := rfl
@[simp] theorem exchange_dstate (p : Seq) (tx : Transaction) : (s.exchange p tx).dstate = s.dstate := rfl
@[simp] theorem exchange_desc (p : Seq) (tx : Transaction) : (s.exchange p tx).desc = s.desc := rfl
@[simp] theorem exchange_remain (p : Seq) (tx : Transaction) : (s.exchange p tx).remain = s.remain := rfl
@[simp] theorem exchange_attempt (p : Seq) (tx : Transaction) : (s.exchange p tx).attempt = s.attempt := rfl
@[simp] theorem exchange_polls (p : Seq) (tx : Transaction) : (s.exchange p tx).polls = s.polls := rfl
@[simp] theorem exchange_cand (p : Seq) (tx : Transaction) : (s.exchange p tx).cand = s.cand := rfl
@[simp] theorem exchange_probe (p : Seq) (tx : Transaction) : (s.exchange p tx).probe = s.probe := rfl
@[simp] theorem exchange_scratch (p : Seq) (tx : Transaction) : (s.exchange p tx).scratch = s.scratch := rfl
@[simp] theorem exchange_host (p : Seq) (tx : Transaction) : (s.exchange p tx).host = s.host := rfl
@[simp] theorem exchange_replies (p : Seq) (tx : Transaction) : (s.exchange p tx).replies = s.replies.tail := rfl
@[simp] theorem exchange_avails (p : Seq) (tx : Transaction) : (s.exchange p tx).avails = s.avails := rfl
@[simp] theorem exchange_trace (p : Seq) (tx : Transaction) : (s.exchange p tx).trace = s.trace ++ [⟨p, tx, s.nextReply tx⟩] := rfl
@[simp] theorem exchange_responses (p : Seq) (tx : Transaction) : (s.exchange p tx).responses = s.responses := rfl

/-! ### `State.sampleScratch` -/

@[simp] theorem sampleScratch_cfg : (s.sampleScratch).cfg = s.cfg := rfl
@[simp] theorem sampleScratch_ri : (s.sampleScratch).ri = s.ri := rfl
@[simp] theorem sampleScratch_status : (s.sampleScratch).status = s.status := rfl
@[simp] theorem sampleScratch_res : (s.sampleScratch).res = s.res := rfl
@[simp] theorem sampleScratch_dout : (s.sampleScratch).dout = s.dout := rfl
@[simp] theorem sampleScratch_seq : (s.sampleScratch).seq = s.seq := rfl
@[simp] theorem sampleScratch_dstate : (s.sampleScratch).dstate = s.dstate := rfl
@[simp] theorem sampleScratch_desc : (s.sampleScratch).desc = s.desc := rfl
@[simp] theorem sampleScratch_remain : (s.sampleScratch).remain = s.remain := rfl
@[simp] theorem sampleScratch_attempt : (s.sampleScratch).attempt = s.attempt := rfl
@[simp] theorem sampleScratch_polls : (s.sampleScratch).polls = s.polls := rfl
@[simp] theorem sampleScratch_cand : (s.sampleScratch).cand = s.cand := rfl
@[simp] theorem sampleScratch_probe : (s.sampleScratch).probe = s.probe := rfl
@[simp] theorem sampleScratch_scratch : (s.sampleScratch).scratch = if s.nextAvail then some [] else none := rfl
@[simp] theorem sampleScratch_host : (s.sampleScratch).host = s.host := rfl
@[simp] theorem sampleScratch_replies : (s.sampleScratch).replies = s.replies := rfl
@[simp] theorem sampleScratch_avails : (s.sampleScratch).avails = s.avails.tail := rfl
@[simp] theorem sampleScratch_trace : (s.sampleScratch).trace = s.trace := rfl
@[simp] theorem sampleScratch_responses : (s.sampleScratch).responses = s.responses := rfl

/-! ### `State.disarm` -/

@[simp] theorem disarm_cfg : (s.disarm).cfg = s.cfg := rfl
@[simp] theorem disarm_ri : (s.disarm).ri = s.ri := rfl
@[simp] theorem disarm_status : (s.disarm).status = s.status := rfl
@[simp] theorem disarm_res : (s.disarm).res = s.res := rfl
@[simp] theorem disarm_dout : (s.disarm).dout = s.dout := rfl
@[simp] theorem disarm_seq : (s.disarm).seq = s.seq := rfl
@[simp] theorem disarm_dstate : (s.disarm).dstate = .idle := rfl
@[simp] theorem disarm_desc : (s.disarm).desc = Desc.zero := rfl
@[simp] theorem disarm_remain : (s.disarm).remain = 0 := rfl
@[simp] theorem disarm_attempt : (s.disarm).attempt = s.attempt := rfl
@[simp] theorem disarm_polls : (s.disarm).polls = s.polls := rfl
@[simp] theorem disarm_cand : (s.disarm).cand = s.cand := rfl
@[simp] theorem disarm_probe : (s.disarm).probe = s.probe := rfl
@[simp] theorem disarm_scratch : (s.disarm).scratch = s.scratch := rfl
@[simp] theorem disarm_host : (s.disarm).host = s.host := rfl
@[simp] theorem disarm_replies : (s.disarm).replies = s.replies := rfl
@[simp] theorem disarm_avails : (s.disarm).avails = s.avails := rfl
@[simp] theorem disarm_trace : (s.disarm).trace = s.trace := rfl
@[simp] theorem disarm_responses : (s.disarm).responses = s.responses := rfl

/-! ### `State.arm` -/

@[simp] theorem arm_cfg (dir : Dir) (d : Desc) : (s.arm dir d).cfg = s.cfg := rfl
@[simp] theorem arm_ri (dir : Dir) (d : Desc) : (s.arm dir d).ri = s.ri := rfl
@[simp] theorem arm_status (dir : Dir) (d : Desc) : (s.arm dir d).status = s.status := rfl
@[simp] theorem arm_res (dir : Dir) (d : Desc) : (s.arm dir d).res = s.res := rfl
@[simp] theorem arm_dout (dir : Dir) (d : Desc) : (s.arm dir d).dout = s.dout := rfl
@[simp] theorem arm_seq (dir : Dir) (d : Desc) : (s.arm dir d).seq = s.seq := rfl
@[simp] theorem arm_dstate (dir : Dir) (d : Desc) : (s.arm dir d).dstate = dir.armed := rfl
@[simp] theorem arm_desc (dir : Dir) (d : Desc) : (s.arm dir d).desc = d := rfl
@[simp] theorem arm_remain (dir : Dir) (d : Desc) : (s.arm dir d).remain = d.size := rfl
@[simp] theorem arm_attempt (dir : Dir) (d : Desc) : (s.arm dir d).attempt = s.attempt := rfl
@[simp] theorem arm_polls (dir : Dir) (d : Desc) : (s.arm dir d).polls = s.polls := rfl
@[simp] theorem arm_cand (dir : Dir) (d : Desc) : (s.arm dir d).cand = s.cand := rfl
@[simp] theorem arm_probe (dir : Dir) (d : Desc) : (s.arm dir d).probe = s.probe := rfl
@[simp] theorem arm_scratch (dir : Dir) (d : Desc) : (s.arm dir d).scratch = s.scratch := rfl
@[simp] theorem arm_host (dir : Dir) (d : Desc) : (s.arm dir d).host = s.host := rfl
@[simp] theorem arm_replies (dir : Dir) (d : Desc) : (s.arm dir d).replies = s.replies := rfl
@[simp] theorem arm_avails (dir : Dir) (d : Desc) : (s.arm dir d).avails = s.avails := rfl
@[simp] theorem arm_trace (dir : Dir) (d : Desc) : (s.arm dir d).trace = s.trace := rfl
@[simp] theorem arm_responses (dir : Dir) (d : Desc) : (s.arm dir d).responses = s.responses := rfl

/-! ### `State.moved` -/

@[simp] theorem moved_cfg (m : Nat) : (s.moved m).cfg = s.cfg := rfl
@[simp] theorem moved_ri (m : Nat) : (s.moved m).ri = s.ri := rfl
@[simp] theorem moved_status (m : Nat) : (s.moved m).status = s.status := rfl
@[simp] theorem moved_res (m : Nat) : (s.moved m).res = s.res := rfl
@[simp] theorem moved_dout (m : Nat) : (s.moved m).dout = s.dout := rfl
@[simp] theorem moved_seq (m : Nat) : (s.moved m).seq = s.seq := rfl
@[simp] theorem moved_dstate (m : Nat) : (s.moved m).dstate = s.dstate := rfl
@[simp] theorem moved_desc (m : Nat) : (s.moved m).desc = s.desc := rfl
@[simp] theorem moved_remain (m : Nat) : (s.moved m).remain = s.remain - BitVec.ofNat 32 m := rfl
@[simp] theorem moved_attempt (m : Nat) : (s.moved m).attempt = s.attempt := rfl
@[simp] theorem moved_polls (m : Nat) : (s.moved m).polls = s.polls := rfl
@[simp] theorem moved_cand (m : Nat) : (s.moved m).cand = s.cand := rfl
@[simp] theorem moved_probe (m : Nat) : (s.moved m).probe = s.probe := rfl
@[simp] theorem moved_scratch (m : Nat) : (s.moved m).scratch = s.scratch := rfl
@[simp] theorem moved_host (m : Nat) : (s.moved m).host = s.host := rfl
@[simp] theorem moved_replies (m : Nat) : (s.moved m).replies = s.replies := rfl
@[simp] theorem moved_avails (m : Nat) : (s.moved m).avails = s.avails := rfl
@[simp] theorem moved_trace (m : Nat) : (s.moved m).trace = s.trace := rfl
@[simp] theorem moved_responses (m : Nat) : (s.moved m).responses = s.responses := rfl

/-! ### `State.setAttempt` -/

@[simp] theorem setAttempt_cfg (n : Nat) : (s.setAttempt n).cfg = s.cfg := rfl
@[simp] theorem setAttempt_ri (n : Nat) : (s.setAttempt n).ri = s.ri := rfl
@[simp] theorem setAttempt_status (n : Nat) : (s.setAttempt n).status = s.status := rfl
@[simp] theorem setAttempt_res (n : Nat) : (s.setAttempt n).res = s.res := rfl
@[simp] theorem setAttempt_dout (n : Nat) : (s.setAttempt n).dout = s.dout := rfl
@[simp] theorem setAttempt_seq (n : Nat) : (s.setAttempt n).seq = s.seq := rfl
@[simp] theorem setAttempt_dstate (n : Nat) : (s.setAttempt n).dstate = s.dstate := rfl
@[simp] theorem setAttempt_desc (n : Nat) : (s.setAttempt n).desc = s.desc := rfl
@[simp] theorem setAttempt_remain (n : Nat) : (s.setAttempt n).remain = s.remain := rfl
@[simp] theorem setAttempt_attempt (n : Nat) : (s.setAttempt n).attempt = n := rfl
@[simp] theorem setAttempt_polls (n : Nat) : (s.setAttempt n).polls = s.polls := rfl
@[simp] theorem setAttempt_cand (n : Nat) : (s.setAttempt n).cand = s.cand := rfl
@[simp] theorem setAttempt_probe (n : Nat) : (s.setAttempt n).probe = s.probe := rfl
@[simp] theorem setAttempt_scratch (n : Nat) : (s.setAttempt n).scratch = s.scratch := rfl
@[simp] theorem setAttempt_host (n : Nat) : (s.setAttempt n).host = s.host := rfl
@[simp] theorem setAttempt_replies (n : Nat) : (s.setAttempt n).replies = s.replies := rfl
@[simp] theorem setAttempt_avails (n : Nat) : (s.setAttempt n).avails = s.avails := rfl
@[simp] theorem setAttempt_trace (n : Nat) : (s.setAttempt n).trace = s.trace := rfl
@[simp] theorem setAttempt_responses (n : Nat) : (s.setAttempt n).responses = s.responses := rfl

/-! ### `State.setPolls` -/

@[simp] theorem setPolls_cfg (n : Word) : (s.setPolls n).cfg = s.cfg := rfl
@[simp] theorem setPolls_ri (n : Word) : (s.setPolls n).ri = s.ri := rfl
@[simp] theorem setPolls_status (n : Word) : (s.setPolls n).status = s.status := rfl
@[simp] theorem setPolls_res (n : Word) : (s.setPolls n).res = s.res := rfl
@[simp] theorem setPolls_dout (n : Word) : (s.setPolls n).dout = s.dout := rfl
@[simp] theorem setPolls_seq (n : Word) : (s.setPolls n).seq = s.seq := rfl
@[simp] theorem setPolls_dstate (n : Word) : (s.setPolls n).dstate = s.dstate := rfl
@[simp] theorem setPolls_desc (n : Word) : (s.setPolls n).desc = s.desc := rfl
@[simp] theorem setPolls_remain (n : Word) : (s.setPolls n).remain = s.remain := rfl
@[simp] theorem setPolls_attempt (n : Word) : (s.setPolls n).attempt = s.attempt := rfl
@[simp] theorem setPolls_polls (n : Word) : (s.setPolls n).polls = n := rfl
@[simp] theorem setPolls_cand (n : Word) : (s.setPolls n).cand = s.cand := rfl
@[simp] theorem setPolls_probe (n : Word) : (s.setPolls n).probe = s.probe := rfl
@[simp] theorem setPolls_scratch (n : Word) : (s.setPolls n).scratch = s.scratch := rfl
@[simp] theorem setPolls_host (n : Word) : (s.setPolls n).host = s.host := rfl
@[simp] theorem setPolls_replies (n : Word) : (s.setPolls n).replies = s.replies := rfl
@[simp] theorem setPolls_avails (n : Word) : (s.setPolls n).avails = s.avails := rfl
@[simp] theorem setPolls_trace (n : Word) : (s.setPolls n).trace = s.trace := rfl
@[simp] theorem setPolls_responses (n : Word) : (s.setPolls n).responses = s.responses := rfl

/-! ### `State.setCand` -/

@[simp] theorem setCand_cfg (k : BitVec 3) : (s.setCand k).cfg = s.cfg := rfl
@[simp] theorem setCand_ri (k : BitVec 3) : (s.setCand k).ri = s.ri := rfl
@[simp] theorem setCand_status (k : BitVec 3) : (s.setCand k).status = s.status := rfl
@[simp] theorem setCand_res (k : BitVec 3) : (s.setCand k).res = s.res := rfl
@[simp] theorem setCand_dout (k : BitVec 3) : (s.setCand k).dout = s.dout := rfl
@[simp] theorem setCand_seq (k : BitVec 3) : (s.setCand k).seq = s.seq := rfl
@[simp] theorem setCand_dstate (k : BitVec 3) : (s.setCand k).dstate = s.dstate := rfl
@[simp] theorem setCand_desc (k : BitVec 3) : (s.setCand k).desc = s.desc := rfl
@[simp] theorem setCand_remain (k : BitVec 3) : (s.setCand k).remain = s.remain := rfl
@[simp] theorem setCand_attempt (k : BitVec 3) : (s.setCand k).attempt = s.attempt := rfl
@[simp] theorem setCand_polls (k : BitVec 3) : (s.setCand k).polls = s.polls := rfl
@[simp] theorem setCand_cand (k : BitVec 3) : (s.setCand k).cand = k := rfl
@[simp] theorem setCand_probe (k : BitVec 3) : (s.setCand k).probe = s.probe := rfl
@[simp] theorem setCand_scratch (k : BitVec 3) : (s.setCand k).scratch = s.scratch := rfl
@[simp] theorem setCand_host (k : BitVec 3) : (s.setCand k).host = s.host := rfl
@[simp] theorem setCand_replies (k : BitVec 3) : (s.setCand k).replies = s.replies := rfl
@[simp] theorem setCand_avails (k : BitVec 3) : (s.setCand k).avails = s.avails := rfl
@[simp] theorem setCand_trace (k : BitVec 3) : (s.setCand k).trace = s.trace := rfl
@[simp] theorem setCand_responses (k : BitVec 3) : (s.setCand k).responses = s.responses := rfl

/-! ### `State.setProbe` -/

@[simp] theorem setProbe_cfg (p : Byte) : (s.setProbe p).cfg = s.cfg := rfl
@[simp] theorem setProbe_ri (p : Byte) : (s.setProbe p).ri = s.ri := rfl
@[simp] theorem setProbe_status (p : Byte) : (s.setProbe p).status = s.status := rfl
@[simp] theorem setProbe_res (p : Byte) : (s.setProbe p).res = s.res := rfl
@[simp] theorem setProbe_dout (p : Byte) : (s.setProbe p).dout = s.dout := rfl
@[simp] theorem setProbe_seq (p : Byte) : (s.setProbe p).seq = s.seq := rfl
@[simp] theorem setProbe_dstate (p : Byte) : (s.setProbe p).dstate = s.dstate := rfl
@[simp] theorem setProbe_desc (p : Byte) : (s.setProbe p).desc = s.desc := rfl
@[simp] theorem setProbe_remain (p : Byte) : (s.setProbe p).remain = s.remain := rfl
@[simp] theorem setProbe_attempt (p : Byte) : (s.setProbe p).attempt = s.attempt := rfl
@[simp] theorem setProbe_polls (p : Byte) : (s.setProbe p).polls = s.polls := rfl
@[simp] theorem setProbe_cand (p : Byte) : (s.setProbe p).cand = s.cand := rfl
@[simp] theorem setProbe_probe (p : Byte) : (s.setProbe p).probe = p := rfl
@[simp] theorem setProbe_scratch (p : Byte) : (s.setProbe p).scratch = s.scratch := rfl
@[simp] theorem setProbe_host (p : Byte) : (s.setProbe p).host = s.host := rfl
@[simp] theorem setProbe_replies (p : Byte) : (s.setProbe p).replies = s.replies := rfl
@[simp] theorem setProbe_avails (p : Byte) : (s.setProbe p).avails = s.avails := rfl
@[simp] theorem setProbe_trace (p : Byte) : (s.setProbe p).trace = s.trace := rfl
@[simp] theorem setProbe_responses (p : Byte) : (s.setProbe p).responses = s.responses := rfl

/-! ### `State.setScratch` -/

@[simp] theorem setScratch_cfg (buf : Option (List Byte)) : (s.setScratch buf).cfg = s.cfg := rfl
@[simp] theorem setScratch_ri (buf : Option (List Byte)) : (s.setScratch buf).ri = s.ri := rfl
@[simp] theorem setScratch_status (buf : Option (List Byte)) : (s.setScratch buf).status = s.status := rfl
@[simp] theorem setScratch_res (buf : Option (List Byte)) : (s.setScratch buf).res = s.res := rfl
@[simp] theorem setScratch_dout (buf : Option (List Byte)) : (s.setScratch buf).dout = s.dout := rfl
@[simp] theorem setScratch_seq (buf : Option (List Byte)) : (s.setScratch buf).seq = s.seq := rfl
@[simp] theorem setScratch_dstate (buf : Option (List Byte)) : (s.setScratch buf).dstate = s.dstate := rfl
@[simp] theorem setScratch_desc (buf : Option (List Byte)) : (s.setScratch buf).desc = s.desc := rfl
@[simp] theorem setScratch_remain (buf : Option (List Byte)) : (s.setScratch buf).remain = s.remain := rfl
@[simp] theorem setScratch_attempt (buf : Option (List Byte)) : (s.setScratch buf).attempt = s.attempt := rfl
@[simp] theorem setScratch_polls (buf : Option (List Byte)) : (s.setScratch buf).polls = s.polls := rfl
@[simp] theorem setScratch_cand (buf : Option (List Byte)) : (s.setScratch buf).cand = s.cand := rfl
@[simp] theorem setScratch_probe (buf : Option (List Byte)) : (s.setScratch buf).probe = s.probe := rfl
@[simp] theorem setScratch_scratch (buf : Option (List Byte)) : (s.setScratch buf).scratch = buf := rfl
@[simp] theorem setScratch_host (buf : Option (List Byte)) : (s.setScratch buf).host = s.host := rfl
@[simp] theorem setScratch_replies (buf : Option (List Byte)) : (s.setScratch buf).replies = s.replies := rfl
@[simp] theorem setScratch_avails (buf : Option (List Byte)) : (s.setScratch buf).avails = s.avails := rfl
@[simp] theorem setScratch_trace (buf : Option (List Byte)) : (s.setScratch buf).trace = s.trace := rfl
@[simp] theorem setScratch_responses (buf : Option (List Byte)) : (s.setScratch buf).responses = s.responses := rfl

/-! ### `State.takeInput` -/

@[simp] theorem takeInput_cfg : (s.takeInput).cfg = s.cfg := rfl
@[simp] theorem takeInput_ri : (s.takeInput).ri = s.ri := rfl
@[simp] theorem takeInput_status : (s.takeInput).status = s.status := rfl
@[simp] theorem takeInput_res : (s.takeInput).res = s.res := rfl
@[simp] theorem takeInput_dout : (s.takeInput).dout = s.dout := rfl
@[simp] theorem takeInput_seq : (s.takeInput).seq = s.seq := rfl
@[simp] theorem takeInput_dstate : (s.takeInput).dstate = s.dstate := rfl
@[simp] theorem takeInput_desc : (s.takeInput).desc = s.desc := rfl
@[simp] theorem takeInput_remain : (s.takeInput).remain = s.remain := rfl
@[simp] theorem takeInput_attempt : (s.takeInput).attempt = s.attempt := rfl
@[simp] theorem takeInput_polls : (s.takeInput).polls = s.polls := rfl
@[simp] theorem takeInput_cand : (s.takeInput).cand = s.cand := rfl
@[simp] theorem takeInput_probe : (s.takeInput).probe = s.probe := rfl
@[simp] theorem takeInput_scratch : (s.takeInput).scratch = s.scratch := rfl
@[simp] theorem takeInput_host : (s.takeInput).host = s.host.tail := rfl
@[simp] theorem takeInput_replies : (s.takeInput).replies = s.replies := rfl
@[simp] theorem takeInput_avails : (s.takeInput).avails = s.avails := rfl
@[simp] theorem takeInput_trace : (s.takeInput).trace = s.trace := rfl
@[simp] theorem takeInput_responses : (s.takeInput).responses = s.responses := rfl

/-! ### `State.settle` -/

@[simp] theorem settle_cfg : s.settle.cfg = s.cfg := by
  unfold State.settle; split <;> rfl
@[simp] theorem settle_ri : s.settle.ri = s.ri := by
  unfold State.settle; split <;> rfl
@[simp] theorem settle_status : s.settle.status = s.status := by
  unfold State.settle; split <;> rfl
@[simp] theorem settle_res : s.settle.res = s.res := by
  unfold State.settle; split <;> rfl
@[simp] theorem settle_dout : s.settle.dout = s.dout := by
  unfold State.settle; split <;> rfl
@[simp] theorem settle_seq : s.settle.seq = s.seq := by
  unfold State.settle; split <;> rfl
theorem settle_dstate : s.settle.dstate = if s.remain = 0 then .idle else s.dstate := by
  unfold State.settle; split <;> rfl
theorem settle_desc : s.settle.desc = if s.remain = 0 then Desc.zero else s.desc := by
  unfold State.settle; split <;> rfl
@[simp] theorem settle_remain : s.settle.remain = s.remain := by
  unfold State.settle; split <;> rfl
@[simp] theorem settle_attempt : s.settle.attempt = s.attempt := by
  unfold State.settle; split <;> rfl
@[simp] theorem settle_polls : s.settle.polls = s.polls := by
  unfold State.settle; split <;> rfl
@[simp] theorem settle_cand : s.settle.cand = s.cand := by
  unfold State.settle; split <;> rfl
@[simp] theorem settle_probe : s.settle.probe = s.probe := by
  unfold State.settle; split <;> rfl
@[simp] theorem settle_scratch : s.settle.scratch = s.scratch := by
  unfold State.settle; split <;> rfl
@[simp] theorem settle_host : s.settle.host = s.host := by
  unfold State.settle; split <;> rfl
@[simp] theorem settle_replies : s.settle.replies = s.replies := by
  unfold State.settle; split <;> rfl
@[simp] theorem settle_avails : s.settle.avails = s.avails := by
  unfold State.settle; split <;> rfl
@[simp] theorem settle_trace : s.settle.trace = s.trace := by
  unfold State.settle; split <;> rfl
@[simp] theorem settle_responses : s.settle.responses = s.responses := by
  unfold State.settle; split <;> rfl

/-! ### `State.memWrite`: it changes `RI` alone -/

@[simp] theorem memWrite_cfg (a : Nat) (bs : List Byte) : (s.memWrite a bs).cfg = s.cfg := by
  induction bs generalizing s a with
  | nil => rfl
  | cons b rest ih => simp [State.memWrite, ih]
@[simp] theorem memWrite_status (a : Nat) (bs : List Byte) : (s.memWrite a bs).status = s.status := by
  induction bs generalizing s a with
  | nil => rfl
  | cons b rest ih => simp [State.memWrite, ih]
@[simp] theorem memWrite_res (a : Nat) (bs : List Byte) : (s.memWrite a bs).res = s.res := by
  induction bs generalizing s a with
  | nil => rfl
  | cons b rest ih => simp [State.memWrite, ih]
@[simp] theorem memWrite_dout (a : Nat) (bs : List Byte) : (s.memWrite a bs).dout = s.dout := by
  induction bs generalizing s a with
  | nil => rfl
  | cons b rest ih => simp [State.memWrite, ih]
@[simp] theorem memWrite_seq (a : Nat) (bs : List Byte) : (s.memWrite a bs).seq = s.seq := by
  induction bs generalizing s a with
  | nil => rfl
  | cons b rest ih => simp [State.memWrite, ih]
@[simp] theorem memWrite_dstate (a : Nat) (bs : List Byte) : (s.memWrite a bs).dstate = s.dstate := by
  induction bs generalizing s a with
  | nil => rfl
  | cons b rest ih => simp [State.memWrite, ih]
@[simp] theorem memWrite_desc (a : Nat) (bs : List Byte) : (s.memWrite a bs).desc = s.desc := by
  induction bs generalizing s a with
  | nil => rfl
  | cons b rest ih => simp [State.memWrite, ih]
@[simp] theorem memWrite_remain (a : Nat) (bs : List Byte) : (s.memWrite a bs).remain = s.remain := by
  induction bs generalizing s a with
  | nil => rfl
  | cons b rest ih => simp [State.memWrite, ih]
@[simp] theorem memWrite_attempt (a : Nat) (bs : List Byte) : (s.memWrite a bs).attempt = s.attempt := by
  induction bs generalizing s a with
  | nil => rfl
  | cons b rest ih => simp [State.memWrite, ih]
@[simp] theorem memWrite_polls (a : Nat) (bs : List Byte) : (s.memWrite a bs).polls = s.polls := by
  induction bs generalizing s a with
  | nil => rfl
  | cons b rest ih => simp [State.memWrite, ih]
@[simp] theorem memWrite_cand (a : Nat) (bs : List Byte) : (s.memWrite a bs).cand = s.cand := by
  induction bs generalizing s a with
  | nil => rfl
  | cons b rest ih => simp [State.memWrite, ih]
@[simp] theorem memWrite_probe (a : Nat) (bs : List Byte) : (s.memWrite a bs).probe = s.probe := by
  induction bs generalizing s a with
  | nil => rfl
  | cons b rest ih => simp [State.memWrite, ih]
@[simp] theorem memWrite_scratch (a : Nat) (bs : List Byte) : (s.memWrite a bs).scratch = s.scratch := by
  induction bs generalizing s a with
  | nil => rfl
  | cons b rest ih => simp [State.memWrite, ih]
@[simp] theorem memWrite_host (a : Nat) (bs : List Byte) : (s.memWrite a bs).host = s.host := by
  induction bs generalizing s a with
  | nil => rfl
  | cons b rest ih => simp [State.memWrite, ih]
@[simp] theorem memWrite_replies (a : Nat) (bs : List Byte) : (s.memWrite a bs).replies = s.replies := by
  induction bs generalizing s a with
  | nil => rfl
  | cons b rest ih => simp [State.memWrite, ih]
@[simp] theorem memWrite_avails (a : Nat) (bs : List Byte) : (s.memWrite a bs).avails = s.avails := by
  induction bs generalizing s a with
  | nil => rfl
  | cons b rest ih => simp [State.memWrite, ih]
@[simp] theorem memWrite_trace (a : Nat) (bs : List Byte) : (s.memWrite a bs).trace = s.trace := by
  induction bs generalizing s a with
  | nil => rfl
  | cons b rest ih => simp [State.memWrite, ih]
@[simp] theorem memWrite_responses (a : Nat) (bs : List Byte) : (s.memWrite a bs).responses = s.responses := by
  induction bs generalizing s a with
  | nil => rfl
  | cons b rest ih => simp [State.memWrite, ih]

/-! ### `State.raise` -/

@[simp] theorem raise_eq (st : Status) : s.raise st = s.respond st 0 [] := rfl

end Sys2Proof.Machine
end

