-- ==== Sys2Proof/Laws/Memory.lean ====
section
/-! SUPPORT. The laws of the Register Image: what a byte reads as after a write, that every write keeps the canonical form,
and that the image after reset has it. -/

namespace Sys2Proof.Machine

/-! ### Cells -/

theorem Cells.find_erase (a x : Nat) (m : List Host.Cell) :
    Cells.find x (Cells.erase a m) = if x = a then none else Cells.find x m := by
  induction m with
  | nil => simp [Cells.erase, Cells.find]
  | cons c rest ih =>
    obtain ⟨k, v⟩ := c
    simp only [Cells.erase] at ih ⊢
    by_cases hk : k = a
    · subst hk
      simp only [List.filter_cons, bne_self_eq_false, Bool.false_eq_true, if_false, ih, Cells.find]
      split <;> simp_all
    · simp only [List.filter_cons, bne_iff_ne, ne_eq, hk, not_false_eq_true, if_true, Cells.find, ih]
      split <;> simp_all

theorem Cells.find_insert (a x : Nat) (b : Byte) (m : List Host.Cell) (h : Cells.find a m = none) :
    Cells.find x (Cells.insert a b m) = if x = a then some b else Cells.find x m := by
  induction m with
  | nil => simp [Cells.insert, Cells.find]
  | cons c rest ih =>
    obtain ⟨k, v⟩ := c
    simp only [Cells.find] at h
    split at h
    · simp at h
    · rename_i hak
      simp only [Cells.insert]
      split
      · simp [Cells.find]
      · simp only [Cells.find, ih h]
        by_cases hx : x = k
        · simp [hx, Ne.symm hak]
        · simp [hx]

/-- Reading any address after a write. -/
theorem Cells.read_write (init : Nat → Byte) (a x : Nat) (b : Byte) (m : List Host.Cell) :
    (Cells.find x (Cells.write init a b m)).getD (init x)
      = if x = a then b else (Cells.find x m).getD (init x) := by
  unfold Cells.write
  split
  · rename_i h
    rw [Cells.find_erase]
    split <;> simp_all
  · rw [Cells.find_insert _ _ _ _ (by simp [Cells.find_erase]), Cells.find_erase]
    split <;> simp_all

theorem Cells.risingFrom_mono (init : Nat → Byte) {low low' : Nat} (h : low' ≤ low) (m : List Host.Cell)
    (hm : Cells.risingFrom init low m = true) : Cells.risingFrom init low' m = true := by
  cases m with
  | nil => rfl
  | cons c rest =>
    simp only [Cells.risingFrom, Bool.and_eq_true, decide_eq_true_eq] at hm ⊢
    exact ⟨⟨⟨by omega, hm.1.1.2⟩, hm.1.2⟩, hm.2⟩

theorem Cells.risingFrom_erase (init : Nat → Byte) (a low : Nat) (m : List Host.Cell)
    (hm : Cells.risingFrom init low m = true) : Cells.risingFrom init low (Cells.erase a m) = true := by
  induction m generalizing low with
  | nil => rfl
  | cons c rest ih =>
    obtain ⟨k, v⟩ := c
    simp only [Cells.risingFrom, Bool.and_eq_true, decide_eq_true_eq] at hm
    have hr := ih (k + 1) hm.2
    simp only [Cells.erase] at hr ⊢
    rw [List.filter_cons]
    split
    · simp only [Cells.risingFrom, Bool.and_eq_true, decide_eq_true_eq]
      exact ⟨hm.1, hr⟩
    · exact Cells.risingFrom_mono init (by omega) _ hr

theorem Cells.risingFrom_insert (init : Nat → Byte) (a low : Nat) (b : Byte) (m : List Host.Cell)
    (hlow : low ≤ a) (ha : a < Config.riSize) (hb : b ≠ init a) (hn : Cells.find a m = none)
    (hm : Cells.risingFrom init low m = true) : Cells.risingFrom init low (Cells.insert a b m) = true := by
  induction m generalizing low with
  | nil => simp [Cells.insert, Cells.risingFrom, hlow, ha, hb]
  | cons c rest ih =>
    obtain ⟨k, v⟩ := c
    simp only [Cells.find] at hn
    split at hn
    · simp at hn
    · rename_i hak
      simp only [Cells.risingFrom, Bool.and_eq_true, decide_eq_true_eq] at hm
      simp only [Cells.insert]
      split
      · rename_i hlt
        simp only [Cells.risingFrom, Bool.and_eq_true, decide_eq_true_eq]
        exact ⟨⟨⟨hlow, ha⟩, by simpa using hb⟩, ⟨⟨by omega, hm.1.1.2⟩, hm.1.2⟩, hm.2⟩
      · simp only [Cells.risingFrom, Bool.and_eq_true, decide_eq_true_eq]
        exact ⟨hm.1, ih (k + 1) (by omega) hn hm.2⟩

/-! ### The image -/

/-- Read after write (R42). -/
theorem riByte_writeByte (s : State) (a x : Nat) (b : Byte) :
    (s.writeByte a b).riByte x = if x = a then b else s.riByte x :=
  Cells.read_write (initByte s.cfg) a x b s.ri

/-- A byte depends on the image and its initial contents alone. -/
theorem riByte_congr {s t : State} (hc : t.cfg = s.cfg) (hr : t.ri = s.ri) (a : Nat) : t.riByte a = s.riByte a := by
  simp [State.riByte, hc, hr]

/-- Reading any offset after a run of bytes is written (R42). -/
theorem riByte_memWrite (s : State) (a x : Nat) (bs : List Byte) :
    (s.memWrite a bs).riByte x
      = if h : a ≤ x ∧ x - a < bs.length then bs[x - a]'h.2 else s.riByte x := by
  induction bs generalizing s a with
  | nil => simp [State.memWrite]
  | cons b rest ih =>
    rw [State.memWrite, ih, riByte_writeByte]
    by_cases hx : x = a
    · subst hx; simp
    · rcases Nat.lt_or_ge x a with hlt | hge
      · rw [dif_neg (by omega), dif_neg (by omega), if_neg hx]
      · by_cases hin : x - a < rest.length + 1
        · rw [dif_pos ⟨by omega, by omega⟩, dif_pos ⟨hge, by simpa using hin⟩]
          have : x - a = (x - (a + 1)) + 1 := by omega
          simp [this]
        · rw [dif_neg (by omega), dif_neg (by simp; omega), if_neg hx]

/-- A write inside the image keeps the canonical form. -/
theorem writeByte_wf {s : State} (a : Nat) (b : Byte) (ha : a < Config.riSize) (h : Memory.wf s = true) :
    Memory.wf (s.writeByte a b) = true := by
  unfold Memory.wf at *
  simp only [writeByte_ri, writeByte_cfg]
  unfold Cells.write
  have he := Cells.risingFrom_erase (initByte s.cfg) a 0 s.ri h
  split
  · exact he
  · rename_i hb
    exact Cells.risingFrom_insert _ a 0 b _ (Nat.zero_le a) ha hb (by simp [Cells.find_erase]) he

/-- A run of writes inside the image keeps the canonical form. -/
theorem memWrite_wf {s : State} (a : Nat) (bs : List Byte) (ha : a + bs.length ≤ Config.riSize)
    (h : Memory.wf s = true) : Memory.wf (s.memWrite a bs) = true := by
  induction bs generalizing s a with
  | nil => exact h
  | cons b rest ih =>
    simp only [List.length_cons] at ha
    exact ih (a + 1) (by omega) (writeByte_wf a b (by omega) h)

/-- The canonical form depends on the image and its initial contents alone. -/
theorem wf_congr {s t : State} (hc : t.cfg = s.cfg) (hr : t.ri = s.ri) (h : Memory.wf s = true) :
    Memory.wf t = true := by
  simpa [Memory.wf, hc, hr] using h

/-- The image after reset has the canonical form. -/
theorem reset_wf : Memory.wf State.reset = true := rfl

end Sys2Proof.Machine
end

