-- ==== Sys2Proof/Laws/Fields.lean ====
section
/-! SUPPORT. The laws of the field arithmetic: what `lsb` is, what a masked field reads as after it is set, that a set leaves
the bits outside the mask alone, and the byte strings of integers. -/

namespace Sys2Proof.Machine

/-- `lsb` of a non-zero mask is its lowest set bit, and `lsb(0) = 0` (R92). -/
theorem lsb_spec : ∀ m : Byte, (m = 0 → lsb m = 0) ∧
    (m ≠ 0 → lsb m < 8 ∧ m.getLsbD (lsb m) = true ∧ (List.range (lsb m)).all fun i => !m.getLsbD i) := by
  decide +kernel

theorem lsb_isLsb (m : Byte) : IsLsb m (lsb m) := by
  by_cases h : m = 0
  · exact .inl ⟨h, (lsb_spec m).1 h⟩
  · obtain ⟨_, h1, h2⟩ := (lsb_spec m).2 h
    refine .inr ⟨h1, fun j hj => ?_⟩
    simp only [List.all_eq_true, List.mem_range, Bool.not_eq_true'] at h2
    exact h2 j hj

theorem lsb_lt (m : Byte) : lsb m < 8 := by
  by_cases h : m = 0
  · rw [(lsb_spec m).1 h]; decide
  · exact ((lsb_spec m).2 h).1

/-- Round trip of a masked field (R94 b). -/
theorem getField_setField (m v b : Byte) : getField m (setField m v b) = v &&& fieldWidthMask m := by
  unfold getField setField fieldWidthMask
  apply BitVec.eq_of_getLsbD_eq
  intro i hi
  simp only [BitVec.getLsbD_ushiftRight, BitVec.getLsbD_and, BitVec.getLsbD_or, BitVec.getLsbD_not,
    BitVec.getLsbD_shiftLeft]
  by_cases h : lsb m + i < 8
  · have h' : ¬ lsb m + i < lsb m := by omega
    have he : lsb m + i - lsb m = i := by omega
    simp only [h, h', he, decide_true, decide_false, Bool.not_false, Bool.true_and]
    cases b.getLsbD (lsb m + i) <;> cases m.getLsbD (lsb m + i) <;> simp
  · simp [BitVec.getLsbD_of_ge m (lsb m + i) (by omega)]

/-- A field write leaves the bits outside the mask alone (R94 a). -/
theorem setField_outside (m v b : Byte) : setField m v b &&& ~~~m = b &&& ~~~m := by
  unfold setField
  ext i hi
  simp only [BitVec.getElem_and, BitVec.getElem_or, BitVec.getElem_not]
  cases b[i] <;> cases m[i] <;> simp

/-- Setting a field twice is setting it once (R47). -/
theorem setField_twice (m v b : Byte) : setField m v (setField m v b) = setField m v b := by
  unfold setField
  ext i hi
  simp only [BitVec.getElem_and, BitVec.getElem_or, BitVec.getElem_not]
  cases m[i] <;> simp

/-- The constraint on `RAMTYPE_MASK` in the form R7 gives it. -/
theorem holdsCodes_spec : ∀ m : Byte, Config.holdsCodes m = true ↔ (m ≠ 0 ∧ (m >>> lsb m) &&& 7 = 7) := by
  decide +kernel

theorem codes_fit_field : ∀ m : Byte, Config.holdsCodes m = true → ∀ c : BitVec 3, c.setWidth 8 &&& fieldWidthMask m = c.setWidth 8 := by
  decide +kernel

/-! ### Byte strings of integers -/

theorem leBytes_getElem? (n : Nat) (v : Word) (i : Nat) (h : i < n) :
    (leBytes n v)[i]? = some (v.extractLsb' (8 * i) 8) := by
  simp [leBytes, h]

theorem beBytes_getElem? (n : Nat) (v : Word) (i : Nat) (h : i < n) :
    (beBytes n v)[i]? = some (v.extractLsb' (8 * (n - 1 - i)) 8) := by
  unfold beBytes
  rw [List.getElem?_reverse (by simpa [leBytes] using h)]
  have : (leBytes n v).length = n := by simp [leBytes]
  rw [this, leBytes_getElem? _ _ _ (by omega)]

/-- A little-endian integer as a sum (R44). -/
theorem leNat_sum (bs : List Byte) : leNat bs = ∑ i ∈ Finset.range bs.length, (bs.getD i 0).toNat * 2 ^ (8 * i) := by
  induction bs with
  | nil => rfl
  | cons b rest ih =>
    rw [List.length_cons, Finset.sum_range_succ']
    simp only [leNat, ih, Finset.mul_sum, List.getD_cons_zero, List.getD_cons_succ, Nat.mul_zero, Nat.pow_zero, Nat.mul_one]
    rw [Nat.add_comm]
    congr 1
    apply Finset.sum_congr rfl
    intro i _
    rw [Nat.mul_add, Nat.pow_add]; ring


theorem length_leBytes (n : Nat) (v : Word) : (leBytes n v).length = n := by simp [leBytes]

theorem length_beBytes (n : Nat) (v : Word) : (beBytes n v).length = n := by simp [beBytes, length_leBytes]

theorem leNat_lt (bs : List Byte) : leNat bs < 2 ^ (8 * bs.length) := by
  induction bs with
  | nil => simp [leNat]
  | cons b rest ih =>
    simp only [leNat, List.length_cons]
    have hb := b.isLt
    have : 2 ^ (8 * (rest.length + 1)) = 256 * 2 ^ (8 * rest.length) := by rw [Nat.mul_succ, Nat.pow_add]; omega
    omega

end Sys2Proof.Machine
end

