-- ==== Sys2Proof/Laws/Engine.lean ====
section
/-! SUPPORT. What the procedures of the DMA Engine can do, said once: what none of them changes, how many transactions each
issues at most, that every bulk chunk is within `MAX_XFER`, and what each leaves in the DMA registers. -/

namespace Sys2Proof.Machine

/-! ### One transaction -/

@[simp] theorem failed_status (r : Reply) : (r.status = .ok) ↔ r.failed = false := by
  cases r <;> simp [Reply.status, Reply.failed]

theorem status_of_failed {r : Reply} (h : r.failed = true) : r.status = .transportFailure := by
  simp [Reply.status, h]

theorem status_cases (r : Reply) : r.status = .ok ∨ r.status = .transportFailure := by
  cases r <;> simp [Reply.status, Reply.failed]

/-- An answer to a bulk-out moves at most what was sent (R51). -/
theorem moved_le (s : State) (bs : List Byte) : (s.nextReply (.bulkOut bs)).moved ≤ bs.length := by
  unfold State.nextReply
  generalize s.replies.headD _ = r
  cases r <;> simp [Transaction.fit, Reply.moved]

/-- An answer to a bulk-in returns at most what was asked (R51). -/
theorem bytes_le (s : State) (n : Nat) : (s.nextReply (.bulkIn n)).bytes.length ≤ n := by
  unfold State.nextReply
  generalize s.replies.headD _ = r
  cases r <;> simp [Transaction.fit, Reply.bytes]

/-- The answer a raw answer stands for is a legal one (R51). -/
theorem fit_legal (tx : Transaction) (r : Reply) : (tx.fit r).legal tx = true := by
  cases r <;> cases tx <;> simp [Transaction.fit, Reply.legal]

theorem nextReply_legal (s : State) (tx : Transaction) : (s.nextReply tx).legal tx = true := fit_legal _ _

/-! ### What no procedure of the engine changes -/

@[simp] theorem taken_nil (s : State) : Taken s [] := by simp [Taken]

/-- The answer taken for one transaction (R50). -/
theorem taken_one (s : State) (p : Seq) (tx : Transaction) : Taken s [⟨p, tx, s.nextReply tx⟩] := by
  intro k e he
  rcases k with _ | k
  · simp only [List.getElem?_cons_zero, Option.some.injEq] at he
    subst he
    simp [State.nextReply]
  · simp at he

/-- The answers of two runs, one after the other. -/
theorem Taken.append {s t : State} {a b : List Event} (h : Taken s a) (k : Taken t b) (ht : t.trace = s.trace ++ a)
    (hr : t.replies = s.replies.drop a.length) : Taken s (a ++ b) := by
  intro n e he
  rcases Nat.lt_or_ge n a.length with hn | hn
  · rw [List.getElem?_append_left hn] at he
    rw [List.take_append_of_le_length (Nat.le_of_lt hn)]
    exact h n e he
  · rw [List.getElem?_append_right hn] at he
    have hk := k (n - a.length) e he
    rw [hr, List.drop_drop, Nat.add_sub_cancel' hn] at hk
    rw [hk]
    simp [State.history, ht, List.take_append, List.take_of_length_le hn]

/-- From `s` to `t` at most `n` transactions were issued, each of the block's own, and one answer was taken for each;
`RI`, the response, `CAND`, `PROBE`, `CFG` and what the host does next are unchanged. -/
structure Engine (n : Nat) (s t : State) : Prop where
  cfg : t.cfg = s.cfg
  ri : t.ri = s.ri
  status : t.status = s.status
  res : t.res = s.res
  dout : t.dout = s.dout
  cand : t.cand = s.cand
  probe : t.probe = s.probe
  host : t.host = s.host
  responses : t.responses = s.responses
  grown : ∃ added, t.trace = s.trace ++ added ∧ t.replies = s.replies.drop added.length ∧ added.length ≤ n
    ∧ (∀ e ∈ added, e.Proper s.cfg) ∧ Taken s added

theorem Engine.refl (s : State) (n : Nat) : Engine n s s :=
  ⟨rfl, rfl, rfl, rfl, rfl, rfl, rfl, rfl, rfl, [], by simp⟩

theorem Engine.trans {n m : Nat} {s t u : State} (h : Engine n s t) (k : Engine m t u) : Engine (n + m) s u := by
  obtain ⟨a, ha, hr, hn, hs, hy⟩ := h.grown
  obtain ⟨b, hb, kr, kn, ks, ky⟩ := k.grown
  refine ⟨k.cfg.trans h.cfg, k.ri.trans h.ri, k.status.trans h.status, k.res.trans h.res, k.dout.trans h.dout,
    k.cand.trans h.cand, k.probe.trans h.probe, k.host.trans h.host, k.responses.trans h.responses, a ++ b, ?_, ?_, ?_, ?_, hy.append ky ha hr⟩
  · rw [hb, ha, List.append_assoc]
  · rw [kr, hr, List.drop_drop, List.length_append]
  · rw [List.length_append]; omega
  · intro e he
    rcases List.mem_append.mp he with he | he
    · exact hs e he
    · have := ks e he; rwa [h.cfg] at this

theorem Engine.mono {n m : Nat} {s t : State} (h : Engine n s t) (hnm : n ≤ m) : Engine m s t := by
  obtain ⟨a, ha, hr, hn, hs⟩ := h.grown
  exact ⟨h.cfg, h.ri, h.status, h.res, h.dout, h.cand, h.probe, h.host, h.responses, a, ha, hr, by omega, hs⟩

/-- A step that issues nothing and keeps the parts above, after an engine run. -/
theorem Engine.then {n : Nat} {s t u : State} (h : Engine n s t) (k : Engine 0 t u) : Engine n s u := h.trans k

theorem exchange_engine (s : State) (p : Seq) (tx : Transaction) (h : ownTransaction s.cfg tx) : Engine 1 s (s.exchange p tx) :=
  ⟨rfl, rfl, rfl, rfl, rfl, rfl, rfl, rfl, rfl, [⟨p, tx, s.nextReply tx⟩], rfl, by simp, by simp,
    by simpa using Event.Proper.mk h (nextReply_legal s tx), taken_one s p tx⟩

theorem disarm_engine (s : State) : Engine 0 s s.disarm := ⟨rfl, rfl, rfl, rfl, rfl, rfl, rfl, rfl, rfl, [], by simp⟩
theorem arm_engine (s : State) (dir : Dir) (d : Desc) : Engine 0 s (s.arm dir d) :=
  ⟨rfl, rfl, rfl, rfl, rfl, rfl, rfl, rfl, rfl, [], by simp⟩
theorem moved_engine (s : State) (m : Nat) : Engine 0 s (s.moved m) :=
  ⟨rfl, rfl, rfl, rfl, rfl, rfl, rfl, rfl, rfl, [], by simp⟩
theorem settle_engine (s : State) : Engine 0 s s.settle := by
  refine ⟨?_, ?_, ?_, ?_, ?_, ?_, ?_, ?_, ?_, [], ?_⟩ <;> simp
theorem goto_engine (s : State) (p : Seq) : Engine 0 s (s.goto p) :=
  ⟨rfl, rfl, rfl, rfl, rfl, rfl, rfl, rfl, rfl, [], by simp⟩
theorem setAttempt_engine (s : State) (n : Nat) : Engine 0 s (s.setAttempt n) :=
  ⟨rfl, rfl, rfl, rfl, rfl, rfl, rfl, rfl, rfl, [], by simp⟩
theorem setPolls_engine (s : State) (n : Word) : Engine 0 s (s.setPolls n) :=
  ⟨rfl, rfl, rfl, rfl, rfl, rfl, rfl, rfl, rfl, [], by simp⟩
theorem setScratch_engine (s : State) (b : Option (List Byte)) : Engine 0 s (s.setScratch b) :=
  ⟨rfl, rfl, rfl, rfl, rfl, rfl, rfl, rfl, rfl, [], by simp⟩
theorem sampleScratch_engine (s : State) : Engine 0 s s.sampleScratch :=
  ⟨rfl, rfl, rfl, rfl, rfl, rfl, rfl, rfl, rfl, [], by simp⟩

/-! ### Reset, Cancel, Enable -/

theorem resetProc_engine (here : Seq) (s : State) : Engine 1 s (resetProc here s).state :=
  (exchange_engine s _ .dmaReset trivial).then (disarm_engine _)

theorem resetProc_unarmed (here : Seq) (s : State) : Unarmed (resetProc here s).state := ⟨rfl, rfl, rfl⟩

theorem cancelProc_engine (here : Seq) (s : State) : Engine 1 s (cancelProc here s).state :=
  (exchange_engine s _ .dmaCancel trivial).then (disarm_engine _)

theorem cancelProc_unarmed (here : Seq) (s : State) : Unarmed (cancelProc here s).state := ⟨rfl, rfl, rfl⟩

/-- A valid descriptor has at least one word (R112). -/
theorem one_le_words {d : Desc} (h : d.valid = true) : 1 ≤ d.words := by
  simp only [Desc.valid, Bool.and_eq_true, bne_iff_ne, ne_eq, beq_iff_eq] at h
  have : d.size.toNat ≠ 0 := fun h0 => h.1 (BitVec.eq_of_toNat_eq (by simpa using h0))
  simp only [Desc.words]; omega

theorem enableProc_engine (here : Seq) (dir : Dir) (d : Desc) (s : State) :
    Engine 1 s (enableProc here dir d s).state := by
  unfold enableProc
  split
  · exact Engine.refl _ _
  · rename_i hv
    have hx := exchange_engine s (here.enter .prim) (enableTx dir d) (one_le_words (by simpa using hv))
    split
    · exact Engine.refl _ _
    · split
      · exact hx
      · exact hx.then (arm_engine _ _ _)

/-- `EnableProc` from `IDLE` with a valid descriptor (R113): it arms the transfer, or the transaction has failed and the
DMA registers are as before. -/
theorem enableProc_cases (here : Seq) (dir : Dir) (d : Desc) (s : State) (hv : d.valid = true) (hs : s.dstate = .idle) :
    ((enableProc here dir d s).status = .ok ∧ (enableProc here dir d s).state.dstate = dir.armed
      ∧ (enableProc here dir d s).state.desc = d ∧ (enableProc here dir d s).state.remain = d.size)
    ∨ ((enableProc here dir d s).status = .transportFailure ∧ SameDma s (enableProc here dir d s).state) := by
  unfold enableProc
  rw [if_neg (by simp [hv]), if_neg (by simp [hs])]
  split
  · exact .inr ⟨rfl, rfl, rfl, rfl⟩
  · exact .inl ⟨rfl, rfl, rfl, rfl⟩

/-! ### WaitReady -/

theorem waitLoop_engine (here : Seq) (left : Nat) (s : State) : Engine left s (waitLoop here left s).state := by
  induction left generalizing s with
  | zero => exact Engine.refl _ _
  | succ left ih =>
    have h1 : Engine 1 s ((s.exchange (here.enter .wtPoll) (pollTx s.cfg)).setPolls (s.polls + 1)) :=
      (exchange_engine s _ (pollTx s.cfg) ⟨rfl, rfl, rfl⟩).then (setPolls_engine _ _)
    simp only [waitLoop]
    split
    · exact h1.mono (by omega)
    · split
      · exact h1.mono (by omega)
      · exact (h1.trans (ih _)).mono (by omega)

theorem waitReadyProc_engine (here : Seq) (timeout : Word) (s : State) :
    Engine (pollBudget s.cfg timeout) s (waitReadyProc here timeout s).state :=
  ((setPolls_engine s 0).trans (waitLoop_engine here _ _)).mono (by simp)

theorem waitLoop_keeps (here : Seq) (left : Nat) (s : State) :
    SameDma s (waitLoop here left s).state ∧ (waitLoop here left s).state.attempt = s.attempt
      ∧ (waitLoop here left s).state.scratch = s.scratch ∧ (waitLoop here left s).state.avails = s.avails := by
  induction left generalizing s with
  | zero => exact ⟨⟨rfl, rfl, rfl⟩, rfl, rfl, rfl⟩
  | succ left ih =>
    simp only [waitLoop]
    split
    · exact ⟨⟨rfl, rfl, rfl⟩, rfl, rfl, rfl⟩
    · split
      · exact ⟨⟨rfl, rfl, rfl⟩, rfl, rfl, rfl⟩
      · have h := ih ((s.exchange (here.enter .wtPoll) (pollTx s.cfg)).setPolls (s.polls + 1))
        exact ⟨⟨h.1.dstate, h.1.desc, h.1.remain⟩, h.2⟩

theorem waitLoop_status (here : Seq) (left : Nat) (s : State) :
    (waitLoop here left s).status = .ok ∨ (waitLoop here left s).status = .timeout
      ∨ (waitLoop here left s).status = .transportFailure := by
  induction left generalizing s with
  | zero => exact .inr (.inl rfl)
  | succ left ih =>
    simp only [waitLoop]
    split
    · exact .inr (.inr rfl)
    · split
      · exact .inl rfl
      · exact ih _

/-! ### The bulk loops -/

theorem chunkCount_step (cfg : Config.Cfg) {n : Nat} (h : 0 < n) :
    chunkCount cfg n = 1 + chunkCount cfg (n - min cfg.maxXfer.val n) := by
  unfold chunkCount
  have hm := cfg.maxXfer.property
  generalize cfg.maxXfer.val = m at hm ⊢
  rcases Nat.le_total m n with hle | hle
  · rw [Nat.min_eq_left hle]
    have : n + m - 1 = (n - m + m - 1) + m := by omega
    rw [this, Nat.add_div_right _ hm]; omega
  · rw [Nat.min_eq_right hle]
    have h1 : (n + m - 1) / m = 1 := Nat.div_eq_of_lt_le (by omega) (by omega)
    have h2 : (n - n + m - 1) / m = 0 := Nat.div_eq_of_lt (by omega)
    omega

theorem bulkOutLoop_engine (here : Seq) (rounds : Nat) (rest : List Byte) (moved : Nat) (s : State) :
    Engine (chunkCount s.cfg rest.length) s (bulkOutLoop here rounds rest moved s).state := by
  induction rounds generalizing rest moved s with
  | zero => exact Engine.refl _ _
  | succ rounds ih =>
    simp only [bulkOutLoop]
    split
    · exact Engine.refl _ _
    · rename_i hne
      have hpos : 0 < rest.length := List.length_pos_iff.mpr hne
      have hx := s.cfg.maxXfer.property
      have hsz : ownTransaction s.cfg (.bulkOut (rest.take s.cfg.maxXfer.val)) := by
        simp only [ownTransaction, List.length_take]; omega
      have h1 := exchange_engine s (here.enter .bulk) _ hsz
      rw [chunkCount_step s.cfg hpos]
      split
      · exact (h1.then (disarm_engine _)).mono (by omega)
      · split
        · exact (h1.then (moved_engine _ _)).mono (by omega)
        · have h2 := ih (rest.drop (rest.take s.cfg.maxXfer.val).length)
            (moved + (s.nextReply (.bulkOut (rest.take s.cfg.maxXfer.val))).moved)
            ((s.exchange (here.enter .bulk) (.bulkOut (rest.take s.cfg.maxXfer.val))).moved
              (s.nextReply (.bulkOut (rest.take s.cfg.maxXfer.val))).moved)
          refine ((h1.then (moved_engine _ _)).trans h2).mono ?_
          simp only [moved_cfg, exchange_cfg, List.length_drop, List.length_take]
          exact Nat.le_refl _

theorem bulkOutProc_engine (here : Seq) (data : List Byte) (s : State) :
    Engine (chunkCount s.cfg data.length) s (bulkOutProc here data s).state := by
  simp only [bulkOutProc]
  have h := bulkOutLoop_engine here data.length data 0 s
  split
  · exact h.then (settle_engine _)
  · exact h

theorem bulkInLoop_engine (here : Seq) (rounds left : Nat) (out : List Byte) (s : State) :
    Engine (chunkCount s.cfg left) s (bulkInLoop here rounds left out s).state := by
  induction rounds generalizing left out s with
  | zero => exact Engine.refl _ _
  | succ rounds ih =>
    simp only [bulkInLoop]
    split
    · exact Engine.refl _ _
    · rename_i hne
      have hx := s.cfg.maxXfer.property
      have hsz : ownTransaction s.cfg (.bulkIn (min s.cfg.maxXfer.val left)) := by
        simp only [ownTransaction]; omega
      have h1 := exchange_engine s (here.enter .bulk) _ hsz
      rw [chunkCount_step s.cfg (by omega)]
      split
      · exact (h1.then (disarm_engine _)).mono (by omega)
      · split
        · exact (h1.then (moved_engine _ _)).mono (by omega)
        · exact ((h1.then (moved_engine _ _)).trans (ih _ _ _)).mono (Nat.le_refl _)

theorem bulkInProc_engine (here : Seq) (n : Nat) (s : State) :
    Engine (chunkCount s.cfg n) s (bulkInProc here n s).state := by
  simp only [bulkInProc]
  have h := bulkInLoop_engine here n n [] s
  split
  · exact h.then (settle_engine _)
  · exact h

end Sys2Proof.Machine
end

