-- ==== Sys2Proof/Laws/Transfer.lean ====
section
/-! SUPPORT. What the bulk procedures, Read, Write and SetType leave in the DMA and working registers, said once. -/

namespace Sys2Proof.Machine

/-- The working registers and samples that the primitives' procedures other than WaitReady leave alone. -/
structure Held (s t : State) : Prop where
  attempt : t.attempt = s.attempt
  polls : t.polls = s.polls
  scratch : t.scratch = s.scratch
  avails : t.avails = s.avails

theorem Held.refl (s : State) : Held s s := ⟨rfl, rfl, rfl, rfl⟩

theorem Held.trans {s t u : State} (h : Held s t) (k : Held t u) : Held s u :=
  ⟨k.attempt.trans h.attempt, k.polls.trans h.polls, k.scratch.trans h.scratch, k.avails.trans h.avails⟩

theorem resetProc_held (here : Seq) (s : State) : Held s (resetProc here s).state := ⟨rfl, rfl, rfl, rfl⟩

theorem cancelProc_held (here : Seq) (s : State) : Held s (cancelProc here s).state := ⟨rfl, rfl, rfl, rfl⟩

theorem enableProc_held (here : Seq) (dir : Dir) (d : Desc) (s : State) : Held s (enableProc here dir d s).state := by
  unfold enableProc
  split
  · exact Held.refl s
  · split
    · exact Held.refl s
    · split <;> exact ⟨rfl, rfl, rfl, rfl⟩

theorem resetProc_status (here : Seq) (s : State) :
    (resetProc here s).status = .ok ∨ (resetProc here s).status = .transportFailure := status_cases _

theorem cancelProc_status (here : Seq) (s : State) :
    (cancelProc here s).status = .ok ∨ (cancelProc here s).status = .transportFailure := status_cases _

/-! ### The bulk loops -/

theorem sub_ofNat_add (r : Word) (a b : Nat) :
    r - BitVec.ofNat 32 a - BitVec.ofNat 32 b = r - BitVec.ofNat 32 (a + b) := by
  rw [BitVec.ofNat_add]
  generalize BitVec.ofNat 32 a = x
  generalize BitVec.ofNat 32 b = y
  bv_omega

/-- How a bulk loop that has moved `done` bytes and may move `more` ends (R110, R121): `OK` with `REMAIN` reduced by what
was moved, or `TransportFailure` with nothing armed. -/
structure LoopEnd (s t : State) (st : Status) (done moved more : Nat) : Prop where
  held : Held s t
  low : done ≤ moved
  high : moved ≤ done + more
  ends : (st = .ok ∧ t.dstate = s.dstate ∧ t.desc = s.desc ∧ t.remain = s.remain - BitVec.ofNat 32 (moved - done))
    ∨ (st = .transportFailure ∧ Unarmed t)

theorem LoopEnd.stop (s : State) (done more : Nat) : LoopEnd s s .ok done done more :=
  ⟨Held.refl s, Nat.le_refl _, by omega, .inl ⟨rfl, rfl, rfl, by simp⟩⟩

/-- A round that moved `m` bytes before the rest of the loop. -/
theorem LoopEnd.after {s t u : State} {st : Status} {done m moved more more' : Nat}
    (h : LoopEnd t u st (done + m) moved more') (ht : Held s t) (hd : t.dstate = s.dstate) (hc : t.desc = s.desc)
    (hr : t.remain = s.remain - BitVec.ofNat 32 m) (hm : m + more' ≤ more) : LoopEnd s u st done moved more := by
  refine ⟨ht.trans h.held, by have := h.low; omega, by have := h.high; omega, ?_⟩
  rcases h.ends with ⟨h1, h2, h3, h4⟩ | h5
  · refine .inl ⟨h1, h2.trans hd, h3.trans hc, ?_⟩
    rw [h4, hr, sub_ofNat_add]
    have := h.low
    congr 2; omega
  · exact .inr h5

/-- A round that fails ends the loop with nothing armed. -/
theorem LoopEnd.fail (s t : State) (done more : Nat) (h : Held s t) :
    LoopEnd s t.disarm .transportFailure done done more :=
  ⟨h.trans ⟨rfl, rfl, rfl, rfl⟩, Nat.le_refl _, Nat.le_add_right _ _, .inr ⟨rfl, rfl, rfl, rfl⟩⟩

/-- A short round ends the loop with what it moved. -/
theorem LoopEnd.short (s t : State) (m done more : Nat) (h : Held s t) (hd : t.dstate = s.dstate) (hc : t.desc = s.desc)
    (hr : t.remain = s.remain) (hm : m ≤ more) : LoopEnd s (t.moved m) .ok done (done + m) more :=
  ⟨h.trans ⟨rfl, rfl, rfl, rfl⟩, by omega, by omega, .inl ⟨rfl, hd, hc, by simp [hr]⟩⟩

theorem exchange_held (s : State) (p : Seq) (tx : Transaction) : Held s (s.exchange p tx) := ⟨rfl, rfl, rfl, rfl⟩

theorem bulkOutLoop_end (here : Seq) (rounds : Nat) (rest : List Byte) (done : Nat) (s : State) :
    LoopEnd s (bulkOutLoop here rounds rest done s).state (bulkOutLoop here rounds rest done s).status done
      (bulkOutLoop here rounds rest done s).moved rest.length := by
  induction rounds generalizing rest done s with
  | zero => exact LoopEnd.stop s done _
  | succ rounds ih =>
    simp only [bulkOutLoop]
    split
    · exact LoopEnd.stop s done _
    · have hm := moved_le s (rest.take s.cfg.maxXfer.val)
      have hl : (rest.take s.cfg.maxXfer.val).length ≤ rest.length := by simp
      split
      · exact LoopEnd.fail s _ _ _ (exchange_held s _ _)
      · split
        · exact LoopEnd.short s _ _ _ _ (exchange_held s _ _) rfl rfl rfl (by omega)
        · have h := ih (rest.drop (rest.take s.cfg.maxXfer.val).length)
            (done + (s.nextReply (.bulkOut (rest.take s.cfg.maxXfer.val))).moved)
            ((s.exchange (here.enter .bulk) (.bulkOut (rest.take s.cfg.maxXfer.val))).moved
              (s.nextReply (.bulkOut (rest.take s.cfg.maxXfer.val))).moved)
          refine h.after ⟨rfl, rfl, rfl, rfl⟩ rfl rfl rfl ?_
          rw [List.length_drop]; omega

theorem bulkInLoop_end (here : Seq) (rounds left : Nat) (out : List Byte) (s : State) :
    LoopEnd s (bulkInLoop here rounds left out s).state (bulkInLoop here rounds left out s).status out.length
      (bulkInLoop here rounds left out s).out.length left := by
  induction rounds generalizing left out s with
  | zero => exact LoopEnd.stop s _ _
  | succ rounds ih =>
    simp only [bulkInLoop]
    split
    · exact LoopEnd.stop s _ _
    · have hm := bytes_le s (min s.cfg.maxXfer.val left)
      split
      · exact LoopEnd.fail s _ _ _ (exchange_held s _ _)
      · split
        · rw [List.length_append]
          exact LoopEnd.short s _ _ _ _ (exchange_held s _ _) rfl rfl rfl (by omega)
        · have h := ih (left - min s.cfg.maxXfer.val left) (out ++ (s.nextReply (.bulkIn (min s.cfg.maxXfer.val left))).bytes)
            ((s.exchange (here.enter .bulk) (.bulkIn (min s.cfg.maxXfer.val left))).moved
              (s.nextReply (.bulkIn (min s.cfg.maxXfer.val left))).bytes.length)
          generalize bulkInLoop here rounds _ _ _ = e at h ⊢
          rw [List.length_append] at h
          exact h.after ⟨rfl, rfl, rfl, rfl⟩ rfl rfl rfl (by omega)

/-- How a bulk procedure over `n` bytes ends (R110, R121). -/
structure BulkEnd (s t : State) (st : Status) (moved n : Nat) : Prop where
  held : Held s t
  high : moved ≤ n
  ends : (st = .ok ∧ t.remain = s.remain - BitVec.ofNat 32 moved
      ∧ t.dstate = (if t.remain = 0 then .idle else s.dstate) ∧ t.desc = (if t.remain = 0 then Desc.zero else s.desc))
    ∨ (st = .transportFailure ∧ Unarmed t)

theorem settle_held (s : State) : Held s s.settle := by
  constructor <;> simp

theorem LoopEnd.bulk {s t : State} {st : Status} {moved n : Nat} (h : LoopEnd s t st 0 moved n) :
    (st = .ok → BulkEnd s t.settle .ok moved n) ∧ (st ≠ .ok → BulkEnd s t st moved n) := by
  have hn : moved ≤ n := by have := h.high; omega
  constructor
  · intro hst
    rcases h.ends with ⟨_, h2, h3, h4⟩ | ⟨h1, _⟩
    · refine ⟨h.held.trans (settle_held t), hn, .inl ⟨rfl, by simpa using h4, ?_, ?_⟩⟩
      · rw [settle_dstate, settle_remain, h2]
      · rw [settle_desc, settle_remain, h3]
    · simp [hst] at h1
  · intro hst
    rcases h.ends with ⟨h1, _⟩ | h1
    · exact absurd h1 hst
    · exact ⟨h.held, hn, .inr h1⟩

theorem bulkOutProc_end (here : Seq) (data : List Byte) (s : State) :
    BulkEnd s (bulkOutProc here data s).state (bulkOutProc here data s).status (bulkOutProc here data s).moved
      data.length := by
  have h := (bulkOutLoop_end here data.length data 0 s).bulk
  simp only [bulkOutProc]
  split
  · rename_i hst; exact h.1 hst
  · rename_i hst; exact h.2 hst

theorem bulkInProc_end (here : Seq) (n : Nat) (s : State) :
    BulkEnd s (bulkInProc here n s).state (bulkInProc here n s).status (bulkInProc here n s).out.length n := by
  have h := (bulkInLoop_end here n n [] s).bulk
  simp only [bulkInProc]
  split
  · rename_i hst; exact h.1 hst
  · rename_i hst; exact h.2 hst

/-- A bulk phase that has moved every byte enabled leaves nothing armed (R110). -/
theorem BulkEnd.full {s t : State} {st : Status} {moved n : Nat} (h : BulkEnd s t st moved n) (hst : st = .ok)
    (hr : s.remain = BitVec.ofNat 32 moved) : Unarmed t := by
  rcases h.ends with ⟨_, h2, h3, h4⟩ | ⟨h1, _⟩
  · have h0 : t.remain = 0 := by rw [h2, hr]; exact BitVec.sub_self _
    rw [if_pos h0] at h3 h4
    exact ⟨h3, h4, h0⟩
  · simp [hst] at h1

theorem BulkEnd.status {s t : State} {st : Status} {moved n : Nat} (h : BulkEnd s t st moved n) :
    st = .ok ∨ st = .transportFailure := by
  rcases h.ends with h | h
  · exact .inl h.1
  · exact .inr h.1

theorem disarm_held (s : State) : Held s s.disarm := ⟨rfl, rfl, rfl, rfl⟩

/-! ### Read -/

theorem size_ofNat (d : Desc) : d.size = BitVec.ofNat 32 d.size.toNat := by simp

/-- `DmaReadProc` with a valid descriptor (R130 to R132): nothing is armed afterwards, the status is `OK` with all bytes
read or `TransportFailure`. -/
structure ReadEnd (s : State) (d : Desc) (e : Got) : Prop where
  engine : Engine (2 + chunkCount s.cfg d.size.toNat) s e.state
  held : Held s e.state
  unarmed : Unarmed e.state
  high : e.out.length ≤ d.size.toNat
  ends : (e.status = .ok ∧ e.out.length = d.size.toNat) ∨ e.status = .transportFailure

theorem dmaReadProc_end (here : Seq) (d : Desc) (s : State) (hv : d.valid = true) :
    ReadEnd s d (dmaReadProc here d s) := by
  unfold dmaReadProc
  rw [if_neg (by simp [hv])]
  have ha := resetProc_engine (here.enter .rdReset) s
  have hu := resetProc_unarmed (here.enter .rdReset) s
  have hh := resetProc_held (here.enter .rdReset) s
  simp only
  generalize resetProc (here.enter .rdReset) s = a at ha hu hh ⊢
  split
  · exact ⟨ha.mono (by omega), hh, hu, Nat.zero_le _, .inr rfl⟩
  · have hb := enableProc_engine (here.enter .rdEnable) .rd d a.state
    have hbh := enableProc_held (here.enter .rdEnable) .rd d a.state
    have hbc := enableProc_cases (here.enter .rdEnable) .rd d a.state hv hu.dstate
    generalize enableProc (here.enter .rdEnable) .rd d a.state = b at hb hbh hbc ⊢
    split
    · rename_i hst
      rcases hbc with ⟨h1, _⟩ | ⟨_, h2⟩
      · exact absurd h1 hst
      · exact ⟨(ha.trans hb).mono (by omega), hh.trans hbh,
          ⟨h2.dstate.trans hu.dstate, h2.desc.trans hu.desc, h2.remain.trans hu.remain⟩, Nat.zero_le _, .inr rfl⟩
    · rename_i hst
      have hst : b.status = .ok := by simpa using hst
      rcases hbc with ⟨_, _, _, hbr⟩ | ⟨h1, _⟩
      · have he := bulkInProc_engine (here.enter .rdData) d.size.toNat b.state
        have hee := bulkInProc_end (here.enter .rdData) d.size.toNat b.state
        generalize bulkInProc (here.enter .rdData) d.size.toNat b.state = e at he hee ⊢
        have hall := (ha.trans hb).trans he
        have hcfg : b.state.cfg = s.cfg := (ha.trans hb).cfg
        rw [hcfg] at hall
        have hheld := (hh.trans hbh).trans hee.held
        split
        · exact ⟨(hall.then (disarm_engine _)).mono (by omega), hheld.trans (disarm_held _), ⟨rfl, rfl, rfl⟩, hee.high,
            .inr rfl⟩
        · rename_i hfull
          simp only [ne_eq, not_or, not_not] at hfull
          exact ⟨hall.mono (by omega), hheld, hee.full hfull.1 (by rw [hfull.2, hbr]; exact size_ofNat d), hee.high,
            .inl hfull⟩
      · simp [hst] at h1

/-! ### Write -/

/-- `S_WR_DATA` of an enabled transfer (R131, R135): nothing is armed afterwards. -/
theorem writeData_end (here : Seq) (d : Desc) (data : List Byte) (s : State) (hr : s.remain = d.size)
    (hl : data.length = d.size.toNat) :
    Engine (chunkCount s.cfg d.size.toNat) s (writeData here d data s).state
      ∧ Held s (writeData here d data s).state ∧ Unarmed (writeData here d data s).state
      ∧ ((writeData here d data s).status = .ok ∨ (writeData here d data s).status = .transportFailure) := by
  have he := bulkOutProc_engine (here.enter .wrData) data s
  have hee := bulkOutProc_end (here.enter .wrData) data s
  rw [hl] at he
  simp only [writeData]
  generalize bulkOutProc (here.enter .wrData) data s = w at he hee ⊢
  split
  · exact ⟨he.then (disarm_engine _), hee.held.trans (disarm_held _), ⟨rfl, rfl, rfl⟩, .inr rfl⟩
  · rename_i hfull
    simp only [ne_eq, not_or, not_not] at hfull
    exact ⟨he, hee.held, hee.full hfull.1 (by rw [hfull.2, hr]; exact size_ofNat d), .inl rfl⟩

/-- One attempt of the verifying path, entered with the write enabled (R135): `ATTEMPT` goes up by one, nothing is armed
afterwards. -/
structure AttemptEnd (s : State) (d : Desc) (data : List Byte) (a : Attempted) : Prop where
  engine : Engine (2 * chunkCount s.cfg d.size.toNat + 1) s a.state
  attempt : a.state.attempt = s.attempt + 1
  polls : a.state.polls = s.polls
  avails : a.state.avails = s.avails
  unarmed : Unarmed a.state
  verified : a.result = .verified → a.state.scratch = some data

theorem writeAttempt_end (here : Seq) (d : Desc) (data : List Byte) (s : State) (hv : d.valid = true)
    (hr : s.remain = d.size) (hl : data.length = d.size.toNat) :
    AttemptEnd s d data (writeAttempt here d data s) := by
  have h0 := setAttempt_engine s (s.attempt + 1)
  obtain ⟨hw, hwh, hwu, _⟩ := writeData_end here d data (s.setAttempt (s.attempt + 1)) hr hl
  simp only [setAttempt_cfg] at hw
  have hw := h0.trans hw
  simp only [writeAttempt]
  generalize writeData here d data (s.setAttempt (s.attempt + 1)) = w at hw hwh hwu ⊢
  split
  · exact ⟨hw.mono (by omega), hwh.attempt, hwh.polls, hwh.avails, hwu, by simp⟩
  · have hb := enableProc_engine (here.enter .wrVenable) .rd d w.state
    have hbh := enableProc_held (here.enter .wrVenable) .rd d w.state
    have hbc := enableProc_cases (here.enter .wrVenable) .rd d w.state hv hwu.dstate
    generalize enableProc (here.enter .wrVenable) .rd d w.state = v at hb hbh hbc ⊢
    have hvh := hwh.trans hbh
    split
    · rename_i hst
      rcases hbc with ⟨h1, _⟩ | ⟨_, h2⟩
      · exact absurd h1 hst
      · exact ⟨(hw.trans hb).mono (by omega), hvh.attempt, hvh.polls, hvh.avails,
          ⟨h2.dstate.trans hwu.dstate, h2.desc.trans hwu.desc, h2.remain.trans hwu.remain⟩, by simp⟩
    · rename_i hst
      have hst : v.status = .ok := by simpa using hst
      rcases hbc with ⟨_, _, _, hbr⟩ | ⟨h1, _⟩
      · have he := bulkInProc_engine (here.enter .wrVdata) d.size.toNat v.state
        have hee := bulkInProc_end (here.enter .wrVdata) d.size.toNat v.state
        generalize bulkInProc (here.enter .wrVdata) d.size.toNat v.state = r at he hee ⊢
        have hall := (hw.trans hb).trans he
        have hcfg : v.state.cfg = s.cfg := (hw.trans hb).cfg
        rw [hcfg] at hall
        have hrh := hvh.trans hee.held
        split
        · exact ⟨((hall.then (setScratch_engine _ _)).then (disarm_engine _)).mono (by omega), hrh.attempt, hrh.polls,
            hrh.avails, ⟨rfl, rfl, rfl⟩, by simp⟩
        · rename_i hfull
          simp only [ne_eq, not_or, not_not] at hfull
          have hun := hee.full hfull.1 (by rw [hfull.2, hbr]; exact size_ofNat d)
          have hend := ((hall.then (setScratch_engine _ (some r.out))).then (goto_engine _ (here.enter .wrCompare))).mono
            (m := 2 * chunkCount s.cfg d.size.toNat + 1) (by omega)
          split
          · rename_i hsc
            exact ⟨hend, hrh.attempt, hrh.polls, hrh.avails, ⟨hun.dstate, hun.desc, hun.remain⟩, fun _ => hsc⟩
          · exact ⟨hend, hrh.attempt, hrh.polls, hrh.avails, ⟨hun.dstate, hun.desc, hun.remain⟩, by simp⟩
      · simp [hst] at h1

/-- The retry loop, entered with the write enabled and `left` attempts of the ten to go (R135). -/
structure WriteEnd (n : Nat) (s : State) (e : Done) : Prop where
  engine : Engine n s e.state
  polls : e.state.polls = s.polls
  avails : e.state.avails = s.avails
  unarmed : Unarmed e.state
  status : e.status = .ok ∨ e.status = .transportFailure

theorem writeLoop_end (here : Seq) (d : Desc) (data : List Byte) (hv : d.valid = true) (hl : data.length = d.size.toNat)
    (x left : Nat) (s : State) (hx : x = 2 * chunkCount s.cfg d.size.toNat + 3) (hr : s.remain = d.size) (hpos : 0 < left)
    (hsum : s.attempt + left = Config.writeAttempts) :
    WriteEnd (left * x - 1) s (writeLoop here d data left s)
      ∧ s.attempt + 1 ≤ (writeLoop here d data left s).state.attempt
      ∧ (writeLoop here d data left s).state.attempt ≤ Config.writeAttempts := by
  induction left generalizing s with
  | zero => omega
  | succ left ih =>
    have ha := writeAttempt_end here d data s hv hr hl
    simp only [writeLoop]
    generalize writeAttempt here d data s = a at ha ⊢
    have hcount : (left + 1) * x = left * x + x := Nat.succ_mul left x
    have hat := ha.attempt
    split
    · exact ⟨⟨ha.engine.mono (by omega), ha.polls, ha.avails, ha.unarmed, .inl rfl⟩, by simp only; omega,
        by simp only; omega⟩
    · exact ⟨⟨ha.engine.mono (by omega), ha.polls, ha.avails, ha.unarmed, .inr rfl⟩, by simp only; omega,
        by simp only; omega⟩
    · have hc := cancelProc_engine (here.enter .wrCancel) a.state
      have hcu := cancelProc_unarmed (here.enter .wrCancel) a.state
      have hch := cancelProc_held (here.enter .wrCancel) a.state
      generalize cancelProc (here.enter .wrCancel) a.state = c at hc hcu hch ⊢
      have hac := ha.engine.trans hc
      have hca := hch.attempt
      split
      · exact ⟨⟨hac.mono (by omega), hch.polls.trans ha.polls, hch.avails.trans ha.avails, hcu, .inr rfl⟩,
          by simp only; omega, by simp only; omega⟩
      · split
        · exact ⟨⟨hac.mono (by omega), hch.polls.trans ha.polls, hch.avails.trans ha.avails, hcu, .inr rfl⟩,
            by simp only; omega, by simp only; omega⟩
        · rename_i hne
          have hge : x ≤ left * x := Nat.le_mul_of_pos_left x (by omega)
          have hb := enableProc_engine (here.enter .wrReenable) .wr d c.state
          have hbh := enableProc_held (here.enter .wrReenable) .wr d c.state
          have hbc := enableProc_cases (here.enter .wrReenable) .wr d c.state hv hcu.dstate
          generalize enableProc (here.enter .wrReenable) .wr d c.state = e at hb hbh hbc ⊢
          have hace := hac.trans hb
          have hea := hbh.attempt
          split
          · rename_i hst
            rcases hbc with ⟨h1, _⟩ | ⟨_, h2⟩
            · exact absurd h1 hst
            · exact ⟨⟨hace.mono (by omega), hbh.polls.trans (hch.polls.trans ha.polls),
                hbh.avails.trans (hch.avails.trans ha.avails),
                ⟨h2.dstate.trans hcu.dstate, h2.desc.trans hcu.desc, h2.remain.trans hcu.remain⟩, .inr rfl⟩,
                by simp only; omega, by simp only; omega⟩
          · rename_i hst
            have hst : e.status = .ok := by simpa using hst
            rcases hbc with ⟨_, _, _, hbr⟩ | ⟨h1, _⟩
            · have hcfg : e.state.cfg = s.cfg := hace.cfg
              obtain ⟨hi, hlo, hhi⟩ := ih e.state (by rw [hcfg]; exact hx) hbr (by omega) (by omega)
              refine ⟨⟨(hace.trans hi.engine).mono ?_, hi.polls.trans (hbh.polls.trans (hch.polls.trans ha.polls)),
                hi.avails.trans (hbh.avails.trans (hch.avails.trans ha.avails)), hi.unarmed, hi.status⟩, by omega, hhi⟩
              omega
            · simp [hst] at h1

/-- `DmaWriteProc` with a valid descriptor and data of its size (R130, R131, R134, R135). The count is the worst case of
R149: a Reset and ten attempts. -/
theorem dmaWriteProc_end (here : Seq) (d : Desc) (data : List Byte) (s : State) (hv : d.valid = true)
    (hl : data.length = d.size.toNat) :
    Engine (Config.writeAttempts * (2 * chunkCount s.cfg d.size.toNat + 3) + 1) s (dmaWriteProc here d data s).state
      ∧ (dmaWriteProc here d data s).state.polls = s.polls
      ∧ (dmaWriteProc here d data s).state.avails = s.avails.tail
      ∧ (dmaWriteProc here d data s).state.scratch = none
      ∧ Unarmed (dmaWriteProc here d data s).state
      ∧ ((dmaWriteProc here d data s).status = .ok ∨ (dmaWriteProc here d data s).status = .transportFailure)
      ∧ (dmaWriteProc here d data s).state.attempt ≤ Config.writeAttempts
      ∧ ((dmaWriteProc here d data s).status = .ok →
          (0 < (dmaWriteProc here d data s).state.attempt ↔ s.nextAvail = true)) := by
  unfold dmaWriteProc
  rw [if_neg (by simp [hv])]
  have h0 : Engine 0 s (s.setAttempt 0).sampleScratch := (setAttempt_engine s 0).then (sampleScratch_engine _)
  simp only
  unfold writeBody
  have hc0 : (s.setAttempt 0).sampleScratch.cfg = s.cfg := rfl
  have hat0 : (s.setAttempt 0).sampleScratch.attempt = 0 := rfl
  have hp0 : (s.setAttempt 0).sampleScratch.polls = s.polls := rfl
  have hv0 : (s.setAttempt 0).sampleScratch.avails = s.avails.tail := rfl
  generalize (s.setAttempt 0).sampleScratch = s0 at h0 hc0 hat0 hp0 hv0 ⊢
  have ha := resetProc_engine (here.enter .wrReset) s0
  have hau := resetProc_unarmed (here.enter .wrReset) s0
  have hah := resetProc_held (here.enter .wrReset) s0
  simp only
  generalize resetProc (here.enter .wrReset) s0 = a at ha hau hah ⊢
  have h0a := h0.trans ha
  split
  · exact ⟨(h0a.then (setScratch_engine _ _)).mono (by omega), hah.polls.trans hp0, hah.avails.trans hv0, rfl,
      ⟨hau.dstate, hau.desc, hau.remain⟩, .inr rfl, by simp [hah.attempt, hat0], by simp⟩
  · have hb := enableProc_engine (here.enter .wrEnable) .wr d a.state
    have hbh := enableProc_held (here.enter .wrEnable) .wr d a.state
    have hbc := enableProc_cases (here.enter .wrEnable) .wr d a.state hv hau.dstate
    generalize enableProc (here.enter .wrEnable) .wr d a.state = b at hb hbh hbc ⊢
    have h0b := h0a.trans hb
    have hbat : b.state.attempt = 0 := hbh.attempt.trans (hah.attempt.trans hat0)
    have hcount : 2 ≤ Config.writeAttempts * (2 * chunkCount s.cfg d.size.toNat + 3) + 1 := by
      simp only [Config.writeAttempts]; omega
    split
    · rename_i hst
      rcases hbc with ⟨h1, _⟩ | ⟨_, h2⟩
      · exact absurd h1 hst
      · exact ⟨(h0b.then (setScratch_engine _ _)).mono (by omega), hbh.polls.trans (hah.polls.trans hp0),
          hbh.avails.trans (hah.avails.trans hv0), rfl,
          ⟨h2.dstate.trans hau.dstate, h2.desc.trans hau.desc, h2.remain.trans hau.remain⟩, .inr rfl,
          by simp [hbat], by simp⟩
    · rename_i hst
      have hst : b.status = .ok := by simpa using hst
      rcases hbc with ⟨_, _, _, hbr⟩ | ⟨h1, _⟩
      · have hcfg : b.state.cfg = s.cfg := h0b.cfg
        split
        · rename_i hav
          obtain ⟨hw, hlo, hhi⟩ := writeLoop_end here d data hv hl (2 * chunkCount s.cfg d.size.toNat + 3)
            Config.writeAttempts b.state (by rw [hcfg]) hbr (by simp [Config.writeAttempts]) (by omega)
          generalize writeLoop here d data Config.writeAttempts b.state = w at hw hlo hhi ⊢
          have hcnt := h0b.trans hw.engine
          refine ⟨?_, hw.polls.trans (hbh.polls.trans (hah.polls.trans hp0)),
            hw.avails.trans (hbh.avails.trans (hah.avails.trans hv0)), rfl,
            ⟨hw.unarmed.dstate, hw.unarmed.desc, hw.unarmed.remain⟩, hw.status, hhi, ?_⟩
          · exact (hcnt.then (setScratch_engine _ none)).mono (by simp only [Config.writeAttempts]; omega)
          · intro _
            simp only [setScratch_attempt]
            exact ⟨fun _ => hav, fun _ => by omega⟩
        · rename_i hav
          obtain ⟨hw, hwh, hwu, hws⟩ := writeData_end here d data b.state hbr hl
          rw [hcfg] at hw
          generalize writeData here d data b.state = w at hw hwh hwu hws ⊢
          have hwat : w.state.attempt = 0 := hwh.attempt.trans hbat
          refine ⟨(((h0b.trans hw).then (setScratch_engine _ _)).mono ?_), hwh.polls.trans (hbh.polls.trans (hah.polls.trans hp0)),
            hwh.avails.trans (hbh.avails.trans (hah.avails.trans hv0)), rfl, ⟨hwu.dstate, hwu.desc, hwu.remain⟩, hws,
            by simp [hwat], ?_⟩
          · simp only [Config.writeAttempts]; omega
          · intro _
            simp only [setScratch_attempt, hwat]
            exact ⟨fun h => absurd h (by omega), fun h => absurd h hav⟩
      · simp [hst] at h1

end Sys2Proof.Machine
end

