-- ==== Sys2Proof/Laws/Detect.lean ====
section
/-! SUPPORT. What SetType and the phases of DETECT can do, said once: the transactions they issue at most, the one byte of `RI`
they may change, and what they leave in the registers. -/

namespace Sys2Proof.Machine

/-- The number of the RAM-type byte (R14). -/
def ramOff (s : State) : Nat := s.cfg.ramtypeOff.val

/-- From `s` to `t` at most `n` transactions were issued; in `RI` only the RAM-type field has changed; the response, `CFG`
and what the host does next are unchanged. -/
structure Detecting (n : Nat) (s t : State) : Prop where
  cfg : t.cfg = s.cfg
  status : t.status = s.status
  res : t.res = s.res
  dout : t.dout = s.dout
  host : t.host = s.host
  responses : t.responses = s.responses
  others : ∀ a, a ≠ ramOff s → t.riByte a = s.riByte a
  outside : t.riByte (ramOff s) &&& ~~~s.cfg.ramtypeMask.val = s.riByte (ramOff s) &&& ~~~s.cfg.ramtypeMask.val
  wf : Memory.wf s = true → Memory.wf t = true
  grown : ∃ added, t.trace = s.trace ++ added ∧ t.replies = s.replies.drop added.length ∧ added.length ≤ n
    ∧ (∀ e ∈ added, e.Proper s.cfg) ∧ Taken s added

theorem Engine.detecting {n : Nat} {s t : State} (h : Engine n s t) : Detecting n s t :=
  ⟨h.cfg, h.status, h.res, h.dout, h.host, h.responses, fun a _ => riByte_congr h.cfg h.ri a,
    by rw [riByte_congr h.cfg h.ri], wf_congr h.cfg h.ri, h.grown⟩

theorem Detecting.refl (s : State) (n : Nat) : Detecting n s s := (Engine.refl s n).detecting

theorem Detecting.trans {n m : Nat} {s t u : State} (h : Detecting n s t) (k : Detecting m t u) :
    Detecting (n + m) s u := by
  obtain ⟨a, ha, hr, hn, hs, hy⟩ := h.grown
  obtain ⟨b, hb, kr, kn, ks, ky⟩ := k.grown
  have ho : ramOff t = ramOff s := by simp [ramOff, h.cfg]
  refine ⟨k.cfg.trans h.cfg, k.status.trans h.status, k.res.trans h.res, k.dout.trans h.dout, k.host.trans h.host,
    k.responses.trans h.responses, fun x hx => (k.others x (by rw [ho]; exact hx)).trans (h.others x hx), ?_,
    fun hw => k.wf (h.wf hw), a ++ b, ?_, ?_, ?_, ?_, hy.append ky ha hr⟩
  · have := k.outside
    rw [ho, h.cfg] at this
    exact this.trans h.outside
  · rw [hb, ha, List.append_assoc]
  · rw [kr, hr, List.drop_drop, List.length_append]
  · rw [List.length_append]; omega
  · intro e he
    rcases List.mem_append.mp he with he | he
    · exact hs e he
    · have := ks e he; rwa [h.cfg] at this

theorem Detecting.mono {n m : Nat} {s t : State} (h : Detecting n s t) (hnm : n ≤ m) : Detecting m s t := by
  obtain ⟨a, ha, hr, hn, hs⟩ := h.grown
  exact ⟨h.cfg, h.status, h.res, h.dout, h.host, h.responses, h.others, h.outside, h.wf, a, ha, hr, by omega, hs⟩

theorem Detecting.then {n : Nat} {s t u : State} (h : Detecting n s t) (k : Detecting 0 t u) : Detecting n s u :=
  h.trans k

theorem setCand_detecting (s : State) (k : BitVec 3) : Detecting 0 s (s.setCand k) :=
  ⟨rfl, rfl, rfl, rfl, rfl, rfl, fun _ _ => rfl, rfl, id, [], by simp⟩

theorem setProbe_detecting (s : State) (p : Byte) : Detecting 0 s (s.setProbe p) :=
  ⟨rfl, rfl, rfl, rfl, rfl, rfl, fun _ _ => rfl, rfl, id, [], by simp⟩

/-! ### SetType -/

/-- The RAM-type byte after the field is set, and every other byte (R139). -/
theorem riByte_setRamType (s : State) (code : BitVec 3) (a : Nat) :
    (s.setRamType code).riByte a
      = if a = ramOff s then setField s.cfg.ramtypeMask.val (code.setWidth 8) (s.riByte (ramOff s)) else s.riByte a := by
  simp only [State.setRamType, State.memWrite, riByte_writeByte]
  rfl

theorem setRamType_detecting (s : State) (code : BitVec 3) : Detecting 0 s (s.setRamType code) := by
  refine ⟨?_, ?_, ?_, ?_, ?_, ?_, ?_, ?_, ?_, [], ?_⟩ <;> try simp [State.setRamType]
  · intro a ha
    have := riByte_setRamType s code a
    rw [if_neg ha] at this
    simpa [State.setRamType] using this
  · have := riByte_setRamType s code (ramOff s)
    rw [if_pos rfl] at this
    have h2 := setField_outside s.cfg.ramtypeMask.val (code.setWidth 8) (s.riByte (ramOff s))
    rw [← this] at h2
    simpa [State.setRamType] using h2
  · intro hw
    exact writeByte_wf _ _ s.cfg.ramtypeOff.isLt hw

theorem setRamType_held (s : State) (code : BitVec 3) :
    Held s (s.setRamType code) ∧ SameDma s (s.setRamType code) ∧ (s.setRamType code).cand = s.cand
      ∧ (s.setRamType code).probe = s.probe := by
  refine ⟨⟨?_, ?_, ?_, ?_⟩, ⟨?_, ?_, ?_⟩, ?_, ?_⟩ <;> simp [State.setRamType]

theorem maxCode_eq : maxCode = 4 := by decide

theorem codes_le : ∀ k ∈ Config.ramtypeCodes, k ≤ maxCode := by decide

/-- `SetTypeProc` with a code 0 to 4 (R139): the field holds the code, the last transaction pushed the byte, the DMA and
working registers are unchanged. -/
structure SetTypeEnd (s : State) (code : BitVec 3) (e : Done) : Prop where
  detecting : Detecting 1 s e.state
  held : Held s e.state
  dma : SameDma s e.state
  cand : e.state.cand = s.cand
  probe : e.state.probe = s.probe
  byte : e.state.riByte (ramOff s) = setField s.cfg.ramtypeMask.val (code.setWidth 8) (s.riByte (ramOff s))
  pushed : ∃ r, e.state.history = s.history ++ [(.regWrite .reg s.cfg.ramtypeAddr [e.state.riByte (ramOff s)], r)]
    ∧ e.status = r.status

theorem setTypeProc_end (here : Seq) (code : BitVec 3) (s : State) (hc : code ≤ maxCode) :
    SetTypeEnd s code (setTypeProc here code s) := by
  unfold setTypeProc
  rw [if_neg (by bv_omega)]
  have h0 : Detecting 0 s ((s.goto (here.enter .stField)).setRamType code) :=
    (goto_engine s _).detecting.then (setRamType_detecting _ code)
  obtain ⟨h1, h2, h3, h4⟩ := setRamType_held (s.goto (here.enter .stField)) code
  have hb : ((s.goto (here.enter .stField)).setRamType code).riByte (ramOff s)
      = setField s.cfg.ramtypeMask.val (code.setWidth 8) (s.riByte (ramOff s)) := by
    exact (riByte_setRamType (s.goto (here.enter .stField)) code (ramOff s)).trans (if_pos rfl)
  have hh : ((s.goto (here.enter .stField)).setRamType code).history = s.history := by
    simp [State.history, State.setRamType]
  have hx : ∀ u : State, Engine 1 u (u.exchange (here.enter .stPush) (pushTx u)) := fun u => exchange_engine u _ (pushTx u) ⟨rfl, rfl, rfl⟩
  generalize (s.goto (here.enter .stField)).setRamType code = u at h0 h1 h2 h3 h4 hb hh ⊢
  have hcfg : u.cfg = s.cfg := h0.cfg
  refine ⟨(h0.trans (hx u).detecting).mono (by omega), ⟨h1.attempt, h1.polls, h1.scratch, h1.avails⟩,
    ⟨h2.dstate, h2.desc, h2.remain⟩, h3, h4, ?_, u.nextReply (pushTx u), ?_, rfl⟩
  · exact (riByte_congr (hx u).cfg (hx u).ri (ramOff s)).trans hb
  · have h5 := riByte_congr (hx u).cfg (hx u).ri (ramOff s)
    simp only [State.history, exchange_trace, List.map_append, List.map_cons, List.map_nil, Event.exchange] at hh ⊢
    rw [h5, hh]
    simp [pushTx, hcfg, ramOff]

/-- The field of the RAM-type byte after `SetTypeProc` reads as the code (R94 b and the constraint of R7). -/
theorem SetTypeEnd.field {s : State} {code : BitVec 3} {e : Done} (h : SetTypeEnd s code e) :
    getField s.cfg.ramtypeMask.val (e.state.riByte (ramOff s)) = code.setWidth 8 := by
  rw [h.byte, getField_setField, codes_fit_field _ s.cfg.ramtypeMask.property code]

theorem SetTypeEnd.status {s : State} {code : BitVec 3} {e : Done} (h : SetTypeEnd s code e) :
    e.status = .ok ∨ e.status = .transportFailure := by
  obtain ⟨r, _, hr⟩ := h.pushed
  rw [hr]; exact status_cases r

/-! ### The coarse phase -/

/-- The transactions of one candidate's round at most (R149). -/
def roundBound (cfg : Config.Cfg) : Nat :=
  1 + pollBudget cfg cfg.detTimeout + 1
    + (Config.writeAttempts * (2 * chunkCount cfg Config.detLen + 3) + 1) + (2 + chunkCount cfg Config.detLen)

theorem size_toNat : (BitVec.ofNat 32 Config.detLen).toNat = Config.detLen ∧ (BitVec.ofNat 32 Config.refLen).toNat = Config.refLen := by
  unfold Config.detLen Config.refLen; decide

theorem valid_of_size {d : Desc} {n : Nat} (h : d.size.toNat = n) (hn : n ≠ 0) (he : n % 2 = 0) : d.valid = true := by
  unfold Desc.valid
  rw [h, he]
  have : d.size ≠ 0 := fun h0 => by rw [h0] at h; exact hn h.symm
  simpa using this

theorem detDesc_size (cfg : Config.Cfg) : (detDesc cfg).size.toNat = Config.detLen := size_toNat.1

theorem detDesc_valid (cfg : Config.Cfg) : (detDesc cfg).valid = true :=
  valid_of_size (detDesc_size cfg) (by decide) (by decide)

/-- One candidate's round (R142, R143). -/
structure RoundEnd (k : BitVec 3) (s : State) (r : Judged) : Prop where
  detecting : Detecting (roundBound s.cfg) s r.state
  attempt : s.attempt ≤ Config.writeAttempts → r.state.attempt ≤ Config.writeAttempts
  cand : r.state.cand = k
  probe : r.state.probe = s.probe
  scratch : s.scratch = none → r.state.scratch = none
  unarmed : r.verdict = .accepted → Unarmed r.state
  field : getField s.cfg.ramtypeMask.val (r.state.riByte (ramOff s)) = k.setWidth 8

theorem detectRound_end (k : BitVec 3) (s : State) (hk : k ≤ maxCode) : RoundEnd k s (detectRound k s) := by
  have h0 := setCand_detecting s k
  have ha := setTypeProc_end (Seq.idle.enter .dtSettype) k (s.setCand k) hk
  have hroff : ramOff (s.setCand k) = ramOff s := rfl
  unfold detectRound
  simp only
  have hfa := ha.field
  generalize setTypeProc (Seq.idle.enter .dtSettype) k (s.setCand k) = a at ha hfa ⊢
  rw [hroff] at hfa
  simp only [setCand_cfg] at hfa
  have hda := h0.trans ha.detecting
  have hcand : a.state.cand = k := ha.cand
  have hbound : roundBound s.cfg = 1 + pollBudget s.cfg s.cfg.detTimeout + 1
    + (Config.writeAttempts * (2 * chunkCount s.cfg Config.detLen + 3) + 1) + (2 + chunkCount s.cfg Config.detLen) := rfl
  -- a later engine run keeps the field
  have hfield : ∀ {n : Nat} {u : State}, Engine n a.state u →
      getField s.cfg.ramtypeMask.val (u.riByte (ramOff s)) = k.setWidth 8 := fun h => by
    rw [riByte_congr h.cfg h.ri]; exact hfa
  split
  · exact ⟨hda.mono (by omega), fun h => by rw [ha.held.attempt]; exact h, hcand, ha.probe,
      fun h => ha.held.scratch.trans h, by simp, hfa⟩
  · have hb := waitReadyProc_engine (Seq.idle.enter .dtWait) s.cfg.detTimeout a.state
    obtain ⟨-, hbat, hbsc, -⟩ := waitLoop_keeps (Seq.idle.enter .dtWait) (pollBudget a.state.cfg s.cfg.detTimeout) (a.state.setPolls 0)
    have hbat' : (waitReadyProc (Seq.idle.enter .dtWait) s.cfg.detTimeout a.state).state.attempt = a.state.attempt := hbat
    have hbsc' : (waitReadyProc (Seq.idle.enter .dtWait) s.cfg.detTimeout a.state).state.scratch = a.state.scratch := hbsc
    have hacfg : a.state.cfg = s.cfg := hda.cfg
    rw [hacfg] at hb
    generalize waitReadyProc (Seq.idle.enter .dtWait) s.cfg.detTimeout a.state = b at hb hbat' hbsc' ⊢
    have hbat2 : s.attempt ≤ Config.writeAttempts → b.state.attempt ≤ Config.writeAttempts := fun h => by
      rw [hbat', ha.held.attempt]; exact h
    have hbsc2 : s.scratch = none → b.state.scratch = none := fun h => by rw [hbsc', ha.held.scratch]; exact h
    split
    · exact ⟨(hda.trans hb.detecting).mono (by omega), hbat2, hb.cand.trans hcand, hb.probe.trans ha.probe, hbsc2, by simp, hfield hb⟩
    · have hc := resetProc_engine (Seq.idle.enter .dtReset) b.state
      have hch := resetProc_held (Seq.idle.enter .dtReset) b.state
      generalize resetProc (Seq.idle.enter .dtReset) b.state = c at hc hch ⊢
      have hbc := hb.trans hc
      have hcat2 : s.attempt ≤ Config.writeAttempts → c.state.attempt ≤ Config.writeAttempts := fun h => by
        rw [hch.attempt]; exact hbat2 h
      have hcsc2 : s.scratch = none → c.state.scratch = none := fun h => by rw [hch.scratch]; exact hbsc2 h
      split
      · exact ⟨(hda.trans hbc.detecting).mono (by omega), hcat2, hbc.cand.trans hcand, hbc.probe.trans ha.probe, hcsc2, by simp, hfield hbc⟩
      · obtain ⟨hw, -, -, hwsc, hwu, -, hwat, -⟩ := dmaWriteProc_end (Seq.idle.enter .dtWrite) (detDesc s.cfg)
          s.cfg.detPattern.toList c.state (detDesc_valid s.cfg) (by rw [detDesc_size]; simp)
        rw [detDesc_size] at hw
        generalize dmaWriteProc (Seq.idle.enter .dtWrite) (detDesc s.cfg) s.cfg.detPattern.toList c.state = w at hw hwsc hwu hwat ⊢
        have hccfg : c.state.cfg = s.cfg := hbc.cfg.trans hacfg
        rw [hccfg] at hw
        have hbw := hbc.trans hw
        split
        · exact ⟨(hda.trans hbw.detecting).mono (by omega), fun _ => hwat, hbw.cand.trans hcand, hbw.probe.trans ha.probe,
            fun _ => hwsc, by simp, hfield hbw⟩
        · have hr := dmaReadProc_end (Seq.idle.enter .dtRead) (detDesc s.cfg) w.state (detDesc_valid s.cfg)
          have hre := hr.engine
          rw [detDesc_size, (hbw.cfg.trans hacfg : w.state.cfg = s.cfg)] at hre
          have hrh := hr.held
          have hru := hr.unarmed
          generalize dmaReadProc (Seq.idle.enter .dtRead) (detDesc s.cfg) w.state = r at hre hrh hru ⊢
          have hbr := hbw.trans hre
          have hbg := hbr.then (goto_engine _ (Seq.idle.enter .dtCompare))
          have hat : r.state.attempt ≤ Config.writeAttempts := by rw [hrh.attempt]; exact hwat
          have hsc : r.state.scratch = none := by rw [hrh.scratch]; exact hwsc
          split
          · exact ⟨(hda.trans hbr.detecting).mono (by omega), fun _ => hat, hbr.cand.trans hcand, hbr.probe.trans ha.probe,
              fun _ => hsc, by simp, hfield hbr⟩
          · split
            · exact ⟨(hda.trans hbg.detecting).mono (by omega), fun _ => hat, hbg.cand.trans hcand, hbg.probe.trans ha.probe,
                fun _ => hsc, by simp, hfield hbg⟩
            · exact ⟨(hda.trans hbg.detecting).mono (by omega), fun _ => hat, hbg.cand.trans hcand, hbg.probe.trans ha.probe,
                fun _ => hsc, fun _ => ⟨hru.dstate, hru.desc, hru.remain⟩, hfield hbg⟩

/-- The coarse phase over the candidates `ks` (R142). -/
structure CoarseEnd (ks : List (BitVec 3)) (s : State) (r : Judged) : Prop where
  detecting : Detecting (ks.length * roundBound s.cfg) s r.state
  attempt : s.attempt ≤ Config.writeAttempts → r.state.attempt ≤ Config.writeAttempts
  cand : (ks = [] ∧ r.state.cand = s.cand) ∨ r.state.cand ∈ ks
  probe : r.state.probe = s.probe
  scratch : s.scratch = none → r.state.scratch = none
  unarmed : r.verdict = .accepted → Unarmed r.state
  found : r.verdict = .accepted → r.state.cand ∈ ks
  field : (ks = [] → getField s.cfg.ramtypeMask.val (s.riByte (ramOff s)) = s.cand.setWidth 8) →
    getField s.cfg.ramtypeMask.val (r.state.riByte (ramOff s)) = r.state.cand.setWidth 8
  last : r.verdict = .rejected → ∀ h : ks ≠ [], r.state.cand = ks.getLast h

theorem detectCoarse_end (ks : List (BitVec 3)) (s : State) (hks : ∀ k ∈ ks, k ≤ maxCode) :
    CoarseEnd ks s (detectCoarse ks s) := by
  induction ks generalizing s with
  | nil => exact ⟨Detecting.refl s _, id, .inl ⟨rfl, rfl⟩, rfl, id, by simp [detectCoarse], by simp [detectCoarse],
      fun h => h rfl, by simp⟩
  | cons k ks ih =>
    have hr := detectRound_end k s (hks k (by simp))
    simp only [detectCoarse]
    generalize detectRound k s = r at hr ⊢
    have hlen : (k :: ks).length * roundBound s.cfg = roundBound s.cfg + ks.length * roundBound s.cfg := by
      rw [List.length_cons, Nat.succ_mul]; omega
    split
    · have hi := ih r.state fun x hx => hks x (by simp [hx])
      generalize detectCoarse ks r.state = e at hi ⊢
      have hd := hi.detecting
      rw [hr.detecting.cfg] at hd
      have hoff : ramOff r.state = ramOff s := by simp [ramOff, hr.detecting.cfg]
      refine ⟨(hr.detecting.trans hd).mono (by omega), fun h => hi.attempt (hr.attempt h), ?_, hi.probe.trans hr.probe,
        fun h => hi.scratch (hr.scratch h), hi.unarmed, fun h => by simp [hi.found h], ?_, ?_⟩
      · rcases hi.cand with h | h
        · exact .inr (by simp [h.2, hr.cand])
        · exact .inr (by simp [h])
      · intro _
        have := hi.field fun _ => by rw [hr.detecting.cfg, hoff, hr.field, hr.cand]
        rwa [hr.detecting.cfg, hoff] at this
      · intro hv _
        rcases ks with _ | ⟨k', ks'⟩
        · rcases hi.cand with h | h
          · simp [h.2, hr.cand]
          · simp at h
        · have := hi.last hv (by simp)
          simpa using this
    · exact ⟨hr.detecting.mono (by omega), hr.attempt, .inr (by simp [hr.cand]), hr.probe, hr.scratch, hr.unarmed,
        fun _ => by simp [hr.cand], fun _ => by rw [hr.field, hr.cand], by simp_all⟩
    · exact ⟨hr.detecting.mono (by omega), hr.attempt, .inr (by simp [hr.cand]), hr.probe, hr.scratch, hr.unarmed,
        fun _ => by simp [hr.cand], fun _ => by rw [hr.field, hr.cand], by simp_all⟩

/-! ### The refine phase -/

/-- The transactions of one probe's round at most (R149). -/
def probeBound (cfg : Config.Cfg) : Nat :=
  (Config.writeAttempts * (2 * chunkCount cfg Config.refLen + 3) + 1) + (2 + chunkCount cfg Config.refLen)

theorem refWDesc_size (cfg : Config.Cfg) (p : Byte) : (refWDesc cfg p).size.toNat = Config.refLen := size_toNat.2

theorem refWDesc_valid (cfg : Config.Cfg) (p : Byte) : (refWDesc cfg p).valid = true :=
  valid_of_size (refWDesc_size cfg p) (by decide) (by decide)

theorem refRDesc_size (cfg : Config.Cfg) (p : Byte) : (refRDesc cfg p).size.toNat = Config.refLen := size_toNat.2

theorem refRDesc_valid (cfg : Config.Cfg) (p : Byte) : (refRDesc cfg p).valid = true :=
  valid_of_size (refRDesc_size cfg p) (by decide) (by decide)

/-- The refine phase over the probes `ps`, or one round of it (R145): the Register Image and `CAND` are unchanged. -/
structure RefineEnd (n : Nat) (s : State) (r : Judged) : Prop where
  detecting : Detecting n s r.state
  ri : r.state.ri = s.ri
  attempt : s.attempt ≤ Config.writeAttempts → r.state.attempt ≤ Config.writeAttempts
  polls : r.state.polls = s.polls
  cand : r.state.cand = s.cand
  scratch : s.scratch = none → r.state.scratch = none
  unarmed : Unarmed s → Unarmed r.state

theorem refineRound_end (p : Byte) (s : State) : RefineEnd (probeBound s.cfg) s (refineRound p s) := by
  have h0 := setProbe_detecting s p
  obtain ⟨hw, hwp, -, hwsc, hwu, -, hwat, -⟩ := dmaWriteProc_end (Seq.idle.enter .dtRefWrite) (refWDesc s.cfg p)
    (refPattern s.cfg p) (s.setProbe p) (refWDesc_valid _ _) (by rw [refWDesc_size]; simp [refPattern])
  unfold refineRound
  rw [refWDesc_size, setProbe_cfg] at hw
  rw [setProbe_polls] at hwp
  simp only
  generalize dmaWriteProc (Seq.idle.enter .dtRefWrite) (refWDesc s.cfg p) (refPattern s.cfg p) (s.setProbe p) = w
    at hw hwp hwsc hwu hwat ⊢
  have h1 := h0.trans hw.detecting
  have hb : probeBound s.cfg = (Config.writeAttempts * (2 * chunkCount s.cfg Config.refLen + 3) + 1)
    + (2 + chunkCount s.cfg Config.refLen) := rfl
  split
  · exact ⟨h1.mono (by omega), hw.ri, fun _ => hwat, hwp, hw.cand, fun _ => hwsc, fun _ => hwu⟩
  · have hr := dmaReadProc_end (Seq.idle.enter .dtRefRead) (refRDesc s.cfg p) w.state (refRDesc_valid _ _)
    have hre := hr.engine
    have hrh := hr.held
    have hru := hr.unarmed
    rw [refRDesc_size, hw.cfg, setProbe_cfg] at hre
    generalize dmaReadProc (Seq.idle.enter .dtRefRead) (refRDesc s.cfg p) w.state = r at hre hrh hru ⊢
    have h2 := h1.trans hre.detecting
    have h3 := h2.then (goto_engine _ (Seq.idle.enter .dtRefCompare)).detecting
    have hat : r.state.attempt ≤ Config.writeAttempts := by rw [hrh.attempt]; exact hwat
    have hsc : r.state.scratch = none := hrh.scratch.trans hwsc
    have hri : r.state.ri = s.ri := hre.ri.trans hw.ri
    have hca : r.state.cand = s.cand := hre.cand.trans hw.cand
    have hpo : r.state.polls = s.polls := hrh.polls.trans hwp
    split
    · exact ⟨h2.mono (by omega), hri, fun _ => hat, hpo, hca, fun _ => hsc, fun _ => hru⟩
    · split
      · exact ⟨h3.mono (by omega), hri, fun _ => hat, hpo, hca, fun _ => hsc, fun _ => ⟨hru.dstate, hru.desc, hru.remain⟩⟩
      · exact ⟨h3.mono (by omega), hri, fun _ => hat, hpo, hca, fun _ => hsc, fun _ => ⟨hru.dstate, hru.desc, hru.remain⟩⟩

theorem detectRefine_end (ps : List Byte) (s : State) :
    RefineEnd (ps.length * probeBound s.cfg) s (detectRefine ps s) := by
  induction ps generalizing s with
  | nil => exact ⟨Detecting.refl s _, rfl, id, rfl, rfl, id, id⟩
  | cons p ps ih =>
    have hr := refineRound_end p s
    simp only [detectRefine]
    generalize refineRound p s = r at hr ⊢
    have hlen : (p :: ps).length * probeBound s.cfg = probeBound s.cfg + ps.length * probeBound s.cfg := by
      rw [List.length_cons, Nat.succ_mul]; omega
    split
    · have hi := ih r.state
      generalize detectRefine ps r.state = e at hi ⊢
      have hd := hi.detecting
      rw [hr.detecting.cfg] at hd
      exact ⟨(hr.detecting.trans hd).mono (by omega), hi.ri.trans hr.ri, fun h => hi.attempt (hr.attempt h),
        hi.polls.trans hr.polls, hi.cand.trans hr.cand, fun h => hi.scratch (hr.scratch h),
        fun h => hi.unarmed (hr.unarmed h)⟩
    · exact ⟨hr.detecting.mono (by omega), hr.ri, hr.attempt, hr.polls, hr.cand, hr.scratch, hr.unarmed⟩
    · exact ⟨hr.detecting.mono (by omega), hr.ri, hr.attempt, hr.polls, hr.cand, hr.scratch, hr.unarmed⟩

/-! ### The finish, and the whole of DETECT -/

theorem refineClass_le (cfg : Config.Cfg) (k : BitVec 3) (p : Option Byte) : refineClass cfg k p ≤ maxCode := by
  have h : ∀ x : Fin (Config.lastCode + 1), BitVec.ofNat 3 x.val ≤ maxCode := by decide
  exact h _

/-- A response after steps that kept what a command keeps. -/
structure Ending (n : Nat) (s t : State) : Prop where
  cfg : t.cfg = s.cfg
  host : t.host = s.host
  seq : t.seq = .idle
  answered : ∃ st r out, Answers s t st r out
  others : ∀ a, a ≠ ramOff s → t.riByte a = s.riByte a
  outside : t.riByte (ramOff s) &&& ~~~s.cfg.ramtypeMask.val = s.riByte (ramOff s) &&& ~~~s.cfg.ramtypeMask.val
  wf : Memory.wf s = true → Memory.wf t = true
  grown : ∃ added, t.trace = s.trace ++ added ∧ t.replies = s.replies.drop added.length ∧ added.length ≤ n
    ∧ (∀ e ∈ added, e.Proper s.cfg) ∧ Taken s added

theorem Detecting.respond {n : Nat} {s t : State} (h : Detecting n s t) (st : Status) (r : Word) (out : List Byte) :
    Ending n s (t.respond st r out) :=
  ⟨h.cfg, h.host, rfl, ⟨st, r, out, rfl, rfl, rfl, rfl, by simp [h.responses]⟩, h.others, h.outside, h.wf, h.grown⟩

theorem disarm_detecting (s : State) : Detecting 0 s s.disarm := (disarm_engine s).detecting

/-- What DETECT leaves, whatever its outcome (R141, R146, R149). -/
structure DetectEnd (s t : State) : Prop where
  ending : Ending (Config.codeCount * roundBound s.cfg + Config.probeCount * probeBound s.cfg + 1) s t
  unarmed : Unarmed t
  probe : t.probe = 0
  attempt : s.attempt ≤ Config.writeAttempts → t.attempt ≤ Config.writeAttempts
  scratch : s.scratch = none → t.scratch = none
  cand : t.cand ≤ maxCode
  dout : t.dout = []
  outcome :
    (t.status = .ok ∧ t.res ≤ 4
        ∧ getField s.cfg.ramtypeMask.val (t.riByte (ramOff s)) = t.res.setWidth 8
        ∧ ∃ before r, t.history
          = before ++ [(.regWrite .reg s.cfg.ramtypeAddr [t.riByte (ramOff s)], r)] ∧ r.failed = false)
    ∨ (t.status = .initFatal ∧ t.res = 0 ∧ t.cand = 0
        ∧ getField s.cfg.ramtypeMask.val (t.riByte (ramOff s)) = 0)
    ∨ (t.status = .transportFailure ∧ t.res = 0)

theorem detectFinish_end (cls : BitVec 3) (u s : State) (n : Nat) (hc : cls ≤ maxCode) (hd : Detecting n s u)
    (hu : Unarmed u) (hp : u.probe = 0) (hca : u.cand ≤ maxCode)
    (hat : s.attempt ≤ Config.writeAttempts → u.attempt ≤ Config.writeAttempts)
    (hsc : s.scratch = none → u.scratch = none)
    (hn : n + 1 ≤ Config.codeCount * roundBound s.cfg + Config.probeCount * probeBound s.cfg + 1) :
    DetectEnd s (detectFinish cls u) := by
  unfold detectFinish
  have h1 : Detecting 0 u ((u.goto (Seq.idle.enter .dtEncode)).setRamType cls) :=
    (goto_engine u _).detecting.then (setRamType_detecting _ cls)
  obtain ⟨k1, k2, k3, k4⟩ := setRamType_held (u.goto (Seq.idle.enter .dtEncode)) cls
  generalize (u.goto (Seq.idle.enter .dtEncode)).setRamType cls = v at h1 k1 k2 k3 k4 ⊢
  have hf := setTypeProc_end (Seq.idle.enter .dtFinal) cls v hc
  have hff := hf.field
  generalize setTypeProc (Seq.idle.enter .dtFinal) cls v = f at hf hff ⊢
  have hd2 := ((hd.trans h1).trans hf.detecting).mono hn
  have hcfg : v.cfg = s.cfg := (hd.trans h1).cfg
  have hoff : ramOff v = ramOff s := by simp [ramOff, hcfg]
  have hun : Unarmed f.state :=
    ⟨hf.dma.dstate.trans (k2.dstate.trans hu.dstate), hf.dma.desc.trans (k2.desc.trans hu.desc),
      hf.dma.remain.trans (k2.remain.trans hu.remain)⟩
  have hpr : f.state.probe = 0 := hf.probe.trans (k4.trans hp)
  have hcd : f.state.cand ≤ maxCode := by rw [hf.cand, k3]; exact hca
  have hat2 : s.attempt ≤ Config.writeAttempts → f.state.attempt ≤ Config.writeAttempts := fun h => by
    rw [hf.held.attempt, k1.attempt]; exact hat h
  have hsc2 : s.scratch = none → f.state.scratch = none := fun h => by rw [hf.held.scratch, k1.scratch]; exact hsc h
  obtain ⟨r, hh, hrs⟩ := hf.pushed
  rw [hoff, hcfg] at hff hh
  simp only
  split
  · exact ⟨hd2.respond _ _ _, ⟨hun.dstate, hun.desc, hun.remain⟩, hpr, hat2, hsc2, hcd, rfl, .inr (.inr ⟨rfl, rfl⟩)⟩
  · rename_i hst
    have hst : f.status = .ok := by simpa using hst
    refine ⟨hd2.respond _ _ _, ⟨hun.dstate, hun.desc, hun.remain⟩, hpr, hat2, hsc2, hcd, rfl, .inl ⟨rfl, ?_, ?_, ?_⟩⟩
    · simp only [respond_res]
      rw [maxCode_eq] at hc
      bv_omega
    · rw [respond_res]
      refine (Eq.trans ?_ hff).trans ?_
      · rfl
      · apply BitVec.eq_of_toNat_eq; simp [BitVec.toNat_setWidth]
    · refine ⟨v.history, r, hh, ?_⟩
      rw [hrs] at hst
      simpa using hst

theorem detect_end (s : State) : DetectEnd s (detect s) := by
  have hc := detectCoarse_end Config.ramtypeCodes s codes_le
  unfold detect
  simp only
  generalize detectCoarse Config.ramtypeCodes s = c at hc ⊢
  have hmem : c.state.cand ∈ Config.ramtypeCodes := by
    rcases hc.cand with ⟨h, _⟩ | h
    · simp [Config.ramtypeCodes] at h
    · exact h
  have hcd := codes_le _ hmem
  have hlen : Config.ramtypeCodes.length * roundBound s.cfg = Config.codeCount * roundBound s.cfg := rfl
  have hq := (hc.detecting.then (disarm_detecting _)).then (setProbe_detecting _ 0)
  split
  · exact ⟨(hq.mono (by omega)).respond _ _ _, ⟨rfl, rfl, rfl⟩, rfl, hc.attempt, hc.scratch, hcd, rfl,
      .inr (.inr ⟨rfl, rfl⟩)⟩
  · rename_i hv
    have hlast : c.state.cand = 0 := hc.last hv (by decide)
    have hf := hc.field (by simp [Config.ramtypeCodes])
    rw [hlast] at hf
    exact ⟨(hq.mono (by omega)).respond _ _ _, ⟨rfl, rfl, rfl⟩, rfl, hc.attempt, hc.scratch, hcd, rfl,
      .inr (.inl ⟨rfl, rfl, hlast, hf⟩)⟩
  · rename_i hv
    have hr := detectRefine_end Config.probes c.state
    unfold detectRefineFinish
    simp only
    generalize detectRefine Config.probes c.state = r at hr ⊢
    have hlen2 : Config.probes.length * probeBound c.state.cfg = Config.probeCount * probeBound s.cfg := by
      rw [hc.detecting.cfg]
    have hd := (hc.detecting.trans hr.detecting).then (setProbe_detecting _ 0)
    have hun := hr.unarmed (hc.unarmed hv)
    have hrc : r.state.cand ≤ maxCode := by rw [hr.cand]; exact hcd
    have hat := fun h => hr.attempt (hc.attempt h)
    have hsc := fun h => hr.scratch (hc.scratch h)
    split
    · exact ⟨(hd.mono (by omega)).respond _ _ _, ⟨hun.dstate, hun.desc, hun.remain⟩, rfl, hat, hsc, hrc, rfl,
        .inr (.inr ⟨rfl, rfl⟩)⟩
    · exact detectFinish_end _ _ s _ (refineClass_le _ _ _) hd ⟨hun.dstate, hun.desc, hun.remain⟩ rfl hrc hat hsc (by omega)
    · exact detectFinish_end _ _ s _ (refineClass_le _ _ _) hd ⟨hun.dstate, hun.desc, hun.remain⟩ rfl hrc hat hsc (by omega)

end Sys2Proof.Machine
end

