-- ==== Sys2Proof/Laws/Trace.lean ====
section
/-! SUPPORT. The transactions the procedures of the engine issue, whatever the environment answers: the chunks of the bulk
phases, and that a composite's procedure issues nothing after a transaction that fails or is short. -/

namespace Sys2Proof.Machine

/-- A run that added `x` to the history took one answer for each. -/
theorem Engine.issued {n : Nat} {s t : State} {x : Script} (h : Engine n s t) (hx : t.history = s.history ++ x) :
    Issued s t x := by
  obtain ⟨added, h1, h2, -, -⟩ := h.grown
  refine ⟨hx, ?_⟩
  simp only [State.history, h1, List.map_append, List.append_cancel_left_eq] at hx
  rw [h2, ← hx, List.length_map]

theorem Issued.refl (s : State) : Issued s s [] := ⟨by simp, by simp⟩

theorem Issued.trans {s t u : State} {x y : Script} (h : Issued s t x) (k : Issued t u y) : Issued s u (x ++ y) :=
  ⟨by rw [k.history, h.history, List.append_assoc], by rw [k.replies, h.replies, List.drop_drop, List.length_append]⟩

theorem exchange_issued (s : State) (p : Seq) (tx : Transaction) : Issued s (s.exchange p tx) [(tx, s.nextReply tx)] :=
  ⟨by simp [State.history, Event.exchange], by simp⟩

/-- A step that leaves the port alone. -/
theorem Issued.still {s t u : State} {x : Script} (h : Issued s t x) (hh : u.history = t.history) (hr : u.replies = t.replies) :
    Issued s u x := ⟨hh.trans h.history, hr.trans h.replies⟩

theorem history_disarm (s : State) : s.disarm.history = s.history := rfl
theorem history_moved (s : State) (m : Nat) : (s.moved m).history = s.history := rfl
theorem history_settle (s : State) : s.settle.history = s.history := by simp [State.history]
theorem history_setScratch (s : State) (b : Option (List Byte)) : (s.setScratch b).history = s.history := rfl

/-! ### The polls of WaitReady -/

/-- The polls of one WaitReady with `left` polls allowed (R118). -/
structure PollTrace (cfg : Config.Cfg) (left : Nat) (x : Script) (st : Status) : Prop where
  tx : ∀ e ∈ x, e.1 = pollTx cfg
  clear : ∀ e ∈ x.dropLast, e.2.failed = false ∧ ready cfg e.2 = false
  low : 1 ≤ x.length
  high : x.length ≤ left
  last : ∀ l, x.getLast? = some l → (l.2.failed = true → st = .transportFailure)
    ∧ (l.2.failed = false → ready cfg l.2 = true → st = .ok)
    ∧ (l.2.failed = false → ready cfg l.2 = false → st = .timeout ∧ x.length = left)

theorem waitLoop_trace (here : Seq) (left : Nat) (s : State) (h0 : 1 ≤ left) :
    ∃ x, (waitLoop here left s).state.history = s.history ++ x ∧ PollTrace s.cfg left x (waitLoop here left s).status
      ∧ (waitLoop here left s).state.polls = s.polls + BitVec.ofNat 32 x.length := by
  induction left generalizing s with
  | zero => omega
  | succ left ih =>
    have he := (exchange_issued s (here.enter .wtPoll) (pollTx s.cfg)).history
    simp only [waitLoop]
    split
    · rename_i hf
      exact ⟨_, he, ⟨by simp, by simp, by simp, by simp, by simp [hf]⟩, by simp⟩
    · rename_i hf
      split
      · rename_i hr
        exact ⟨_, he, ⟨by simp, by simp, by simp, by simp, by simp [hf, hr]⟩, by simp⟩
      · rename_i hr
        rcases Nat.eq_zero_or_pos left with rfl | hpos
        · exact ⟨_, he, ⟨by simp, by simp, by simp, by simp, by simp [hf, hr, waitLoop]⟩, by simp [waitLoop]⟩
        · obtain ⟨x, h1, h2, h3⟩ := ih ((s.exchange (here.enter .wtPoll) (pollTx s.cfg)).setPolls (s.polls + 1)) hpos
          have hne : x ≠ [] := List.length_pos_iff.mp h2.low
          refine ⟨(pollTx s.cfg, s.nextReply (pollTx s.cfg)) :: x, ?_, ⟨?_, ?_, by simp, by simpa using h2.high, ?_⟩, ?_⟩
          · rw [h1, show ((s.exchange (here.enter .wtPoll) (pollTx s.cfg)).setPolls (s.polls + 1)).history
              = (s.exchange (here.enter .wtPoll) (pollTx s.cfg)).history from rfl, he, List.append_assoc]; rfl
          · intro e he
            rcases List.mem_cons.mp he with rfl | he
            · rfl
            · exact h2.tx e he
          · intro e he
            rw [List.dropLast_cons_of_ne_nil hne] at he
            rcases List.mem_cons.mp he with rfl | he
            · exact ⟨(Bool.not_eq_true _).mp hf, (Bool.not_eq_true _).mp hr⟩
            · exact h2.clear e he
          · intro l hl
            rw [List.getLast?_cons_of_ne_nil hne] at hl
            obtain ⟨k1, k2, k3⟩ := h2.last l hl
            refine ⟨k1, k2, fun ha hb => ?_⟩
            obtain ⟨k4, k5⟩ := k3 ha hb
            exact ⟨k4, by rw [List.length_cons, k5]⟩
          · rw [h3, List.length_cons, BitVec.ofNat_add, setPolls_polls]
            generalize BitVec.ofNat 32 x.length = v
            bv_omega

/-! ### The chunks of a bulk phase -/

/-- The transactions of a bulk-in of `left` bytes in chunks of `n` (R121), and what became of them. -/
structure InTrace (n left : Nat) (out : List Byte) (x : Script) (st : Status) (out' : List Byte) : Prop where
  tx : ∀ k e, x[k]? = some e → e.1 = .bulkIn (min n (left - n * k)) ∧ (k + 1 < x.length → full e)
  got : out' = out ++ x.flatMap (fun e => e.2.bytes)
  begun : left ≠ 0 → x ≠ []
  last : ∀ l, x.getLast? = some l →
    (l.2.failed = true ↔ st ≠ .ok) ∧ (full l ↔ st = .ok ∧ out'.length = out.length + left)
  empty : left = 0 → st = .ok ∧ x = []
  length : x.length * n < left + n

theorem bytes_of_failed {r : Reply} (h : r.failed = true) : r.bytes = [] := by
  cases r
  · rfl
  · simp [Reply.failed] at h

theorem moved_of_failed {r : Reply} (h : r.failed = true) : r.moved = 0 := by
  cases r
  · rfl
  · simp [Reply.failed] at h

theorem getElem?_one {α : Type} {a e : α} {k : Nat} (h : [a][k]? = some e) : k = 0 ∧ e = a := by
  rcases k with _ | k
  · simp at h; exact ⟨rfl, h.symm⟩
  · simp at h

/-- A single chunk. -/
theorem InTrace.one {n left : Nat} {out : List Byte} {r : Reply} {st : Status} (h0 : left ≠ 0) (hn : 1 ≤ n)
    (hf : r.failed = true ↔ st ≠ .ok) (hl : r.bytes.length < min n left) :
    InTrace n left out [(.bulkIn (min n left), r)] st (out ++ r.bytes) := by
  refine ⟨?_, by simp, by simp, ?_, fun h => absurd h h0, by simp; omega⟩
  · intro k e he
    obtain ⟨rfl, rfl⟩ := getElem?_one he
    exact ⟨by simp, by simp⟩
  · intro l h
    simp only [List.getLast?_singleton, Option.some.injEq] at h
    subst h
    refine ⟨hf, ?_⟩
    simp only [full, List.length_append]
    constructor
    · rintro ⟨_, h⟩; omega
    · rintro ⟨_, h⟩; omega

/-- A chunk in full before the rest. -/
theorem InTrace.cons {n left : Nat} {out out' : List Byte} {r : Reply} {x : Script} {st : Status} (h0 : left ≠ 0) (hn : 1 ≤ n)
    (hf : r.failed = false) (hl : r.bytes.length = min n left)
    (h : InTrace n (left - min n left) (out ++ r.bytes) x st out') :
    InTrace n left out ((.bulkIn (min n left), r) :: x) st out' := by
  refine ⟨?_, ?_, by simp, ?_, fun h => absurd h h0, ?_⟩
  · intro k e he
    rcases k with _ | k
    · simp only [List.getElem?_cons_zero, Option.some.injEq] at he
      subst he
      exact ⟨by simp, fun _ => ⟨hf, hl⟩⟩
    · simp only [List.getElem?_cons_succ] at he
      obtain ⟨h1, h2⟩ := h.tx k e he
      refine ⟨h1.trans ?_, fun hk => h2 (by simpa using hk)⟩
      rcases Nat.le_total n left with hle | hle
      · have : left - min n left - n * k = left - n * (k + 1) := by
          rw [Nat.min_eq_left hle, Nat.mul_succ]; omega
        rw [this]
      · have : x = [] := (h.empty (by omega)).2
        subst this; simp at he
  · rw [h.got]; simp
  · intro l hl'
    rcases List.eq_nil_or_concat x with rfl | ⟨y, z, rfl⟩
    · simp only [List.getLast?_singleton, Option.some.injEq] at hl'
      subst hl'
      have hz : left - min n left = 0 := by
        by_contra hc
        exact h.begun hc rfl
      have h3 := h.empty hz
      have ho := h.got
      simp only [List.flatMap_nil, List.append_nil] at ho
      refine ⟨by simp [hf, h3.1], fun _ => ⟨h3.1, ?_⟩, fun _ => ⟨hf, hl⟩⟩
      rw [ho, List.length_append, hl]; omega
    · rw [List.concat_eq_append] at h
      rw [List.concat_eq_append, ← List.cons_append, List.getLast?_concat] at hl'
      have := h.last l (by rw [List.getLast?_concat]; exact hl')
      refine ⟨this.1, this.2.trans ?_⟩
      rw [List.length_append]
      constructor
      · rintro ⟨a, b⟩; exact ⟨a, by omega⟩
      · rintro ⟨a, b⟩; exact ⟨a, by omega⟩
  · have := h.length
    rw [List.length_cons, Nat.succ_mul]
    rcases Nat.le_total n left with hle | hle
    · rw [Nat.min_eq_left hle] at this; omega
    · have : x = [] := (h.empty (by omega)).2
      subst this; simp; omega

theorem bulkInLoop_trace (here : Seq) (rounds left : Nat) (out : List Byte) (s : State) (hr : left ≤ rounds) :
    ∃ x, (bulkInLoop here rounds left out s).state.history = s.history ++ x
      ∧ InTrace s.cfg.maxXfer.val left out x (bulkInLoop here rounds left out s).status (bulkInLoop here rounds left out s).out := by
  induction rounds generalizing left out s with
  | zero =>
    have : left = 0 := by omega
    subst this
    exact ⟨[], by simp [bulkInLoop], by simp, by simp [bulkInLoop], by simp, by simp, by simp [bulkInLoop], by have := s.cfg.maxXfer.property; simp; omega⟩
  | succ rounds ih =>
    have hx := s.cfg.maxXfer.property
    simp only [bulkInLoop]
    split
    · rename_i h
      subst h
      exact ⟨[], by simp, by simp, by simp, by simp, by simp, by simp, by simp; omega⟩
    · rename_i h0
      have hb := bytes_le s (min s.cfg.maxXfer.val left)
      have he := (exchange_issued s (here.enter .bulk) (.bulkIn (min s.cfg.maxXfer.val left))).history
      split
      · rename_i hf
        refine ⟨_, he, ?_⟩
        have hb0 := bytes_of_failed hf
        have := InTrace.one (out := out) (st := .transportFailure) h0 hx (by simp [hf])
          (r := s.nextReply (.bulkIn (min s.cfg.maxXfer.val left))) (by rw [hb0]; simp; omega)
        rwa [hb0, List.append_nil] at this
      · rename_i hf
        simp only [Bool.not_eq_true] at hf
        split
        · rename_i hlt
          exact ⟨_, he, InTrace.one h0 hx (by simp [hf]) hlt⟩
        · rename_i hlt
          obtain ⟨x, h1, h2⟩ := ih (left - min s.cfg.maxXfer.val left) (out ++ (s.nextReply (.bulkIn (min s.cfg.maxXfer.val left))).bytes)
            ((s.exchange (here.enter .bulk) (.bulkIn (min s.cfg.maxXfer.val left))).moved
              (s.nextReply (.bulkIn (min s.cfg.maxXfer.val left))).bytes.length) (by omega)
          refine ⟨_ :: x, ?_, InTrace.cons h0 hx hf (by omega) h2⟩
          rw [h1, history_moved, he, List.append_assoc]; rfl

theorem bulkInProc_trace (here : Seq) (n : Nat) (s : State) :
    ∃ x, Issued s (bulkInProc here n s).state x
      ∧ InTrace s.cfg.maxXfer.val n [] x (bulkInProc here n s).status (bulkInProc here n s).out := by
  obtain ⟨x, h1, h2⟩ := bulkInLoop_trace here n n [] s (Nat.le_refl n)
  refine ⟨x, (bulkInProc_engine here n s).issued ?_, ?_⟩
  · simp only [bulkInProc]
    split
    · rw [history_settle]; exact h1
    · exact h1
  · simp only [bulkInProc]
    split
    · rename_i h; rw [h] at h2; exact h2
    · exact h2

/-- The transactions of a bulk-out of `rest` in chunks of `n` (R121), and what became of them. -/
structure OutTrace (n : Nat) (rest : List Byte) (moved : Nat) (x : Script) (st : Status) (moved' : Nat) : Prop where
  tx : ∀ k e, x[k]? = some e → e.1 = .bulkOut ((rest.drop (n * k)).take n) ∧ (k + 1 < x.length → full e)
  sum : moved' = moved + (x.map fun e => e.2.moved).sum
  begun : rest ≠ [] → x ≠ []
  last : ∀ l, x.getLast? = some l →
    (l.2.failed = true ↔ st ≠ .ok) ∧ (full l ↔ st = .ok ∧ moved' = moved + rest.length)
  empty : rest = [] → st = .ok ∧ x = []

theorem OutTrace.one {n : Nat} {rest : List Byte} {moved : Nat} {r : Reply} {st : Status} (h0 : rest ≠ [])
    (hf : r.failed = true ↔ st ≠ .ok) (hl : r.moved < (rest.take n).length) :
    OutTrace n rest moved [(.bulkOut (rest.take n), r)] st (moved + r.moved) := by
  refine ⟨?_, by simp, by simp, ?_, fun h => absurd h h0⟩
  · intro k e he
    obtain ⟨rfl, rfl⟩ := getElem?_one he
    exact ⟨by simp, by simp⟩
  · intro l h
    simp only [List.getLast?_singleton, Option.some.injEq] at h
    subst h
    refine ⟨hf, ?_⟩
    simp only [full]
    have : (rest.take n).length ≤ rest.length := by simp
    constructor
    · rintro ⟨_, h⟩; omega
    · rintro ⟨_, h⟩; omega

theorem OutTrace.cons {n : Nat} {rest : List Byte} {moved moved' : Nat} {r : Reply} {x : Script} {st : Status} (h0 : rest ≠ [])
    (hf : r.failed = false) (hl : r.moved = (rest.take n).length)
    (h : OutTrace n (rest.drop (rest.take n).length) (moved + r.moved) x st moved') :
    OutTrace n rest moved ((.bulkOut (rest.take n), r) :: x) st moved' := by
  have hlen : (rest.take n).length = min n rest.length := by simp
  refine ⟨?_, ?_, by simp, ?_, fun h => absurd h h0⟩
  · intro k e he
    rcases k with _ | k
    · simp only [List.getElem?_cons_zero, Option.some.injEq] at he
      subst he
      exact ⟨by simp, fun _ => ⟨hf, hl⟩⟩
    · simp only [List.getElem?_cons_succ] at he
      obtain ⟨h1, h2⟩ := h.tx k e he
      refine ⟨h1.trans ?_, fun hk => h2 (by simpa using hk)⟩
      rcases Nat.le_total n rest.length with hle | hle
      · rw [List.drop_drop, hlen, Nat.min_eq_left hle, Nat.mul_succ]
        congr 3; omega
      · have : x = [] := (h.empty (by rw [hlen, Nat.min_eq_right hle]; simp)).2
        subst this; simp at he
  · rw [h.sum]; simp; omega
  · intro l hl'
    rcases List.eq_nil_or_concat x with rfl | ⟨y, z, rfl⟩
    · simp only [List.getLast?_singleton, Option.some.injEq] at hl'
      subst hl'
      have hz : rest.drop (rest.take n).length = [] := by
        by_contra hc
        exact h.begun hc rfl
      have h3 := h.empty hz
      have ho := h.sum
      simp only [List.map_nil, List.sum_nil, Nat.add_zero] at ho
      rw [List.drop_eq_nil_iff] at hz
      refine ⟨by simp [hf, h3.1], fun _ => ⟨h3.1, ?_⟩, fun _ => ⟨hf, hl⟩⟩
      omega
    · rw [List.concat_eq_append] at h
      rw [List.concat_eq_append, ← List.cons_append, List.getLast?_concat] at hl'
      have := h.last l (by rw [List.getLast?_concat]; exact hl')
      refine ⟨this.1, this.2.trans ?_⟩
      rw [List.length_drop]
      have : (rest.take n).length ≤ rest.length := by simp
      constructor
      · rintro ⟨a, b⟩; exact ⟨a, by omega⟩
      · rintro ⟨a, b⟩; exact ⟨a, by omega⟩

theorem bulkOutLoop_trace (here : Seq) (rounds : Nat) (rest : List Byte) (moved : Nat) (s : State) (hr : rest.length ≤ rounds) :
    ∃ x, (bulkOutLoop here rounds rest moved s).state.history = s.history ++ x
      ∧ OutTrace s.cfg.maxXfer.val rest moved x (bulkOutLoop here rounds rest moved s).status
          (bulkOutLoop here rounds rest moved s).moved := by
  induction rounds generalizing rest moved s with
  | zero =>
    have : rest = [] := List.eq_nil_of_length_eq_zero (by omega)
    subst this
    exact ⟨[], by simp [bulkOutLoop], by simp, by simp [bulkOutLoop], by simp, by simp, by simp [bulkOutLoop]⟩
  | succ rounds ih =>
    have hx := s.cfg.maxXfer.property
    simp only [bulkOutLoop]
    split
    · rename_i h
      subst h
      exact ⟨[], by simp, by simp, by simp, by simp, by simp, by simp⟩
    · rename_i h0
      have hpos := List.length_pos_iff.mpr h0
      have hm := moved_le s (rest.take s.cfg.maxXfer.val)
      have hlen : (rest.take s.cfg.maxXfer.val).length = min s.cfg.maxXfer.val rest.length := by simp
      have he := (exchange_issued s (here.enter .bulk) (.bulkOut (rest.take s.cfg.maxXfer.val))).history
      split
      · rename_i hf
        refine ⟨_, he, ?_⟩
        have hb0 := moved_of_failed hf
        have := OutTrace.one (n := s.cfg.maxXfer.val) (moved := moved) (st := .transportFailure) h0 (by simp [hf])
          (r := s.nextReply (.bulkOut (rest.take s.cfg.maxXfer.val))) (by rw [hb0]; omega)
        rwa [hb0, Nat.add_zero] at this
      · rename_i hf
        simp only [Bool.not_eq_true] at hf
        split
        · rename_i hlt
          exact ⟨_, he, OutTrace.one h0 (by simp [hf]) hlt⟩
        · rename_i hlt
          obtain ⟨x, h1, h2⟩ := ih (rest.drop (rest.take s.cfg.maxXfer.val).length)
            (moved + (s.nextReply (.bulkOut (rest.take s.cfg.maxXfer.val))).moved)
            ((s.exchange (here.enter .bulk) (.bulkOut (rest.take s.cfg.maxXfer.val))).moved
              (s.nextReply (.bulkOut (rest.take s.cfg.maxXfer.val))).moved) (by rw [List.length_drop]; omega)
          refine ⟨_ :: x, ?_, OutTrace.cons h0 hf (by omega) h2⟩
          rw [h1, history_moved, he, List.append_assoc]; rfl

theorem bulkOutProc_trace (here : Seq) (data : List Byte) (s : State) :
    ∃ x, Issued s (bulkOutProc here data s).state x
      ∧ OutTrace s.cfg.maxXfer.val data 0 x (bulkOutProc here data s).status (bulkOutProc here data s).moved := by
  obtain ⟨x, h1, h2⟩ := bulkOutLoop_trace here data.length data 0 s (Nat.le_refl _)
  refine ⟨x, (bulkOutProc_engine here data s).issued ?_, ?_⟩
  · simp only [bulkOutProc]
    split
    · rw [history_settle]; exact h1
    · exact h1
  · simp only [bulkOutProc]
    split
    · rename_i h; rw [h] at h2; exact h2
    · exact h2

/-! ### The first failure ends a composite's procedure (R131) -/

/-- Only the last transaction may have failed or been short, and then the status is `TransportFailure`. -/
def Clean (x : Script) (st : Status) : Prop :=
  ∀ (k : Nat) (e : Transaction × Reply), x[k]? = some e → ¬ full e → k + 1 = x.length ∧ st = .transportFailure

theorem Clean.nil (st : Status) : Clean [] st := fun k e h => by simp at h

/-- With status `OK` every transaction succeeded in full. -/
theorem Clean.all {x : Script} (h : Clean x .ok) : ∀ e ∈ x, full e := by
  intro e he
  obtain ⟨k, hk⟩ := List.mem_iff_getElem?.mp he
  by_contra hc
  have := (h k e hk hc).2
  simp at this

theorem Clean.of_all {x : Script} (h : ∀ e ∈ x, full e) (st : Status) : Clean x st :=
  fun k e hk hn => absurd (h e (List.mem_iff_getElem?.mpr ⟨k, hk⟩)) hn

theorem Clean.append {x y : Script} {st : Status} (h : ∀ e ∈ x, full e) (k : Clean y st) : Clean (x ++ y) st := by
  intro n e he hn
  rw [List.getElem?_append] at he
  split at he
  · exact absurd (h e (List.mem_iff_getElem?.mpr ⟨n, he⟩)) hn
  · obtain ⟨h1, h2⟩ := k _ e he hn
    exact ⟨by rw [List.length_append]; omega, h2⟩

theorem Clean.one {tx : Transaction} {r : Reply} {st : Status} (h : ¬ full (tx, r) → st = .transportFailure) :
    Clean [(tx, r)] st := by
  intro k e he hn
  obtain ⟨rfl, rfl⟩ := getElem?_one he
  exact ⟨rfl, h hn⟩

theorem getLast_of {x : Script} {k : Nat} {e : Transaction × Reply} (h : x[k]? = some e) (hk : k + 1 = x.length) :
    x.getLast? = some e := by
  rw [List.getLast?_eq_getElem?, ← h]
  congr 1; omega

theorem InTrace.clean {n left : Nat} {out out' : List Byte} {x : Script} {st : Status} (h : InTrace n left out x st out') :
    (st = .ok → out'.length = out.length + left → ∀ e ∈ x, full e)
      ∧ Clean x .transportFailure := by
  have hk : ∀ (k : Nat) (e : Transaction × Reply), x[k]? = some e → ¬ full e → k + 1 = x.length := by
    intro k e he hn
    obtain ⟨hlt, _⟩ := List.getElem?_eq_some_iff.mp he
    by_contra hc
    exact hn ((h.tx k e he).2 (by omega))
  refine ⟨fun h1 h2 e he => ?_, fun k e he hn => ⟨hk k e he hn, rfl⟩⟩
  obtain ⟨k, hke⟩ := List.mem_iff_getElem?.mp he
  by_contra hn
  exact hn ((h.last e (getLast_of hke (hk k e hke hn))).2.2 ⟨h1, h2⟩)

theorem OutTrace.clean {n : Nat} {rest : List Byte} {moved moved' : Nat} {x : Script} {st : Status}
    (h : OutTrace n rest moved x st moved') :
    (st = .ok → moved' = moved + rest.length → ∀ e ∈ x, full e) ∧ Clean x .transportFailure := by
  have hk : ∀ (k : Nat) (e : Transaction × Reply), x[k]? = some e → ¬ full e → k + 1 = x.length := by
    intro k e he hn
    obtain ⟨hlt, _⟩ := List.getElem?_eq_some_iff.mp he
    by_contra hc
    exact hn ((h.tx k e he).2 (by omega))
  refine ⟨fun h1 h2 e he => ?_, fun k e he hn => ⟨hk k e he hn, rfl⟩⟩
  obtain ⟨k, hke⟩ := List.mem_iff_getElem?.mp he
  by_contra hn
  exact hn ((h.last e (getLast_of hke (hk k e hke hn))).2.2 ⟨h1, h2⟩)

theorem resetProc_clean (here : Seq) (s : State) :
    ∃ r, Issued s (resetProc here s).state [(.dmaReset, r)] ∧ Clean [(.dmaReset, r)] (resetProc here s).status
      ∧ ((resetProc here s).status = .ok → r.failed = false) := by
  refine ⟨s.nextReply .dmaReset, (exchange_issued s _ _).still rfl rfl, Clean.one fun h => ?_, fun h => by simpa [resetProc] using h⟩
  simp only [full, Bool.not_eq_false] at h
  simp [resetProc, Reply.status, h]

theorem cancelProc_clean (here : Seq) (s : State) :
    ∃ r, Issued s (cancelProc here s).state [(.dmaCancel, r)] ∧ Clean [(.dmaCancel, r)] (cancelProc here s).status
      ∧ ((cancelProc here s).status = .ok → r.failed = false) := by
  refine ⟨s.nextReply .dmaCancel, (exchange_issued s _ _).still rfl rfl, Clean.one fun h => ?_, fun h => by simpa [cancelProc] using h⟩
  simp only [full, Bool.not_eq_false] at h
  simp [cancelProc, Reply.status, h]

theorem enableProc_clean (here : Seq) (dir : Dir) (d : Desc) (s : State) (hv : d.valid = true) (hs : s.dstate = .idle) :
    ∃ r, Issued s (enableProc here dir d s).state [(enableTx dir d, r)]
      ∧ Clean [(enableTx dir d, r)] (enableProc here dir d s).status
      ∧ ((enableProc here dir d s).status = .ok → r.failed = false) := by
  refine ⟨s.nextReply (enableTx dir d), ?_⟩
  unfold enableProc
  rw [if_neg (by simp [hv]), if_neg (by simp [hs])]
  split
  · exact ⟨(exchange_issued s _ _).still rfl rfl, Clean.one fun _ => rfl, by simp⟩
  · rename_i hf
    exact ⟨(exchange_issued s _ _).still rfl rfl, Clean.one fun h => absurd ((Bool.not_eq_true _).mp hf) h, fun _ => by simpa using hf⟩

/-! ### The write attempts a run starts (R24, R135, R136) -/

/-- The transactions from `s` to `t` start `n` write attempts. -/
def Starts (n : Nat) (s t : State) : Prop := ∃ x, Issued s t x ∧ Script.attempts x = n

theorem Starts.refl (s : State) : Starts 0 s s := ⟨[], Issued.refl s, rfl⟩

theorem Starts.trans {n m : Nat} {s t u : State} (h : Starts n s t) (k : Starts m t u) : Starts (n + m) s u := by
  obtain ⟨x, hx, rfl⟩ := h
  obtain ⟨y, hy, rfl⟩ := k
  exact ⟨x ++ y, hx.trans hy, List.countP_append⟩

/-- A step that leaves the port alone starts nothing. -/
theorem Starts.still {n : Nat} {s t u : State} (h : Starts n s t) (hh : u.history = t.history) (hr : u.replies = t.replies) :
    Starts n s u := by
  obtain ⟨x, hx, hn⟩ := h
  exact ⟨x, hx.still hh hr, hn⟩

theorem resetProc_starts (here : Seq) (s : State) : Starts 0 s (resetProc here s).state :=
  ⟨_, (exchange_issued s _ .dmaReset).still rfl rfl, rfl⟩

theorem cancelProc_starts (here : Seq) (s : State) : Starts 0 s (cancelProc here s).state :=
  ⟨_, (exchange_issued s _ .dmaCancel).still rfl rfl, rfl⟩

/-- An Enable starts an attempt when it enables a write and ends `OK`. -/
theorem enableProc_starts (here : Seq) (dir : Dir) (d : Desc) (s : State) :
    Starts (if dir = .wr ∧ (enableProc here dir d s).status = .ok then 1 else 0) s (enableProc here dir d s).state := by
  unfold enableProc
  split
  · simpa using Starts.refl s
  · split
    · simpa using Starts.refl s
    · split
      · rename_i hf
        exact ⟨_, exchange_issued s _ _, by
          cases dir
          · rfl
          · simpa [Script.attempts, startsAttempt, enableTx] using hf⟩
      · rename_i hf
        exact ⟨_, (exchange_issued s _ _).still rfl rfl, by
          cases dir
          · rfl
          · simpa [Script.attempts, startsAttempt, enableTx] using hf⟩

theorem bulkOutProc_starts (here : Seq) (data : List Byte) (s : State) : Starts 0 s (bulkOutProc here data s).state := by
  obtain ⟨x, hx, hb⟩ := bulkOutProc_trace here data s
  refine ⟨x, hx, List.countP_eq_zero.mpr fun e he => ?_⟩
  obtain ⟨k, hk⟩ := List.mem_iff_getElem?.mp he
  obtain ⟨tx, r⟩ := e
  obtain rfl := (hb.tx k _ hk).1
  simp [startsAttempt]

theorem bulkInProc_starts (here : Seq) (n : Nat) (s : State) : Starts 0 s (bulkInProc here n s).state := by
  obtain ⟨x, hx, hb⟩ := bulkInProc_trace here n s
  refine ⟨x, hx, List.countP_eq_zero.mpr fun e he => ?_⟩
  obtain ⟨k, hk⟩ := List.mem_iff_getElem?.mp he
  obtain ⟨tx, r⟩ := e
  obtain rfl := (hb.tx k _ hk).1
  simp [startsAttempt]

theorem writeData_starts (here : Seq) (d : Desc) (data : List Byte) (s : State) : Starts 0 s (writeData here d data s).state := by
  have h := bulkOutProc_starts (here.enter .wrData) data s
  simp only [writeData]
  split
  · exact h.still rfl rfl
  · exact h

/-- One attempt counts itself, whatever becomes of it, and starts no other. -/
theorem writeAttempt_starts (here : Seq) (d : Desc) (data : List Byte) (s : State) :
    Starts 0 s (writeAttempt here d data s).state ∧ (writeAttempt here d data s).state.attempt = s.attempt + 1 := by
  have h0 := (Starts.refl s).still (u := s.setAttempt (s.attempt + 1)) rfl rfl
  have hw := h0.trans (writeData_starts here d data (s.setAttempt (s.attempt + 1)))
  have hwa : (writeData here d data (s.setAttempt (s.attempt + 1))).state.attempt = s.attempt + 1 := by
    have := (bulkOutProc_end (here.enter .wrData) data (s.setAttempt (s.attempt + 1))).held.attempt
    simp only [writeData]
    split <;> exact this
  simp only [writeAttempt]
  generalize writeData here d data (s.setAttempt (s.attempt + 1)) = w at hw hwa ⊢
  have hv := hw.trans (by simpa using enableProc_starts (here.enter .wrVenable) .rd d w.state)
  have hva := (enableProc_held (here.enter .wrVenable) .rd d w.state).attempt.trans hwa
  generalize enableProc (here.enter .wrVenable) .rd d w.state = v at hv hva ⊢
  have hr := hv.trans (bulkInProc_starts (here.enter .wrVdata) d.size.toNat v.state)
  have hra := (bulkInProc_end (here.enter .wrVdata) d.size.toNat v.state).held.attempt.trans hva
  generalize bulkInProc (here.enter .wrVdata) d.size.toNat v.state = r at hr hra ⊢
  split
  · exact ⟨hw, hwa⟩
  · split
    · exact ⟨hv, hva⟩
    · split
      · exact ⟨hr.still rfl rfl, hra⟩
      · split <;> exact ⟨hr.still rfl rfl, hra⟩

/-- The retry loop, entered with the write enabled: `ATTEMPT` counts the attempt so begun and those its EnableWrites start. -/
theorem writeLoop_starts (here : Seq) (d : Desc) (data : List Byte) (left : Nat) (s : State) (hpos : 0 < left)
    (hsum : s.attempt + left = Config.writeAttempts) :
    ∃ n, Starts n s (writeLoop here d data left s).state
      ∧ (writeLoop here d data left s).state.attempt = s.attempt + 1 + n := by
  induction left generalizing s with
  | zero => omega
  | succ left ih =>
    obtain ⟨ha, haa⟩ := writeAttempt_starts here d data s
    simp only [writeLoop]
    generalize writeAttempt here d data s = a at ha haa ⊢
    have hc := ha.trans (cancelProc_starts (here.enter .wrCancel) a.state)
    have hca : (cancelProc (here.enter .wrCancel) a.state).state.attempt = _ := haa
    generalize cancelProc (here.enter .wrCancel) a.state = c at hc hca ⊢
    have he := hc.trans (enableProc_starts (here.enter .wrReenable) .wr d c.state)
    have hea := (enableProc_held (here.enter .wrReenable) .wr d c.state).attempt.trans hca
    generalize enableProc (here.enter .wrReenable) .wr d c.state = e at he hea ⊢
    split
    · exact ⟨_, ha, haa⟩
    · exact ⟨_, ha, haa⟩
    · split
      · exact ⟨_, hc, hca⟩
      · split
        · exact ⟨_, hc, hca⟩
        · rename_i hne
          split
          · rename_i hst
            rw [if_neg (by simp [hst])] at he
            exact ⟨_, he, hea⟩
          · rename_i hst
            rw [if_pos ⟨rfl, not_not.mp hst⟩] at he
            obtain ⟨n, hn, hna⟩ := ih e.state (by omega) (by omega)
            exact ⟨_, he.trans hn, by rw [hna, hea]; omega⟩

/-- `ATTEMPT` after a verifying Write is the number of the last attempt started, in every outcome (R24, R135, R136). -/
theorem dmaWriteProc_starts (here : Seq) (d : Desc) (data : List Byte) (s : State) (hv : d.valid = true)
    (hav : s.nextAvail = true) :
    Starts (dmaWriteProc here d data s).state.attempt s (dmaWriteProc here d data s).state := by
  have h0 := (Starts.refl s).still (u := (s.setAttempt 0).sampleScratch) rfl rfl
  have h00 : (s.setAttempt 0).sampleScratch.attempt = 0 := rfl
  unfold dmaWriteProc writeBody
  rw [if_neg (by simp [hv])]
  simp only [hav, setScratch_attempt]
  generalize (s.setAttempt 0).sampleScratch = s0 at h0 h00 ⊢
  have ha := h0.trans (resetProc_starts (here.enter .wrReset) s0)
  have haa := (resetProc_held (here.enter .wrReset) s0).attempt.trans h00
  generalize resetProc (here.enter .wrReset) s0 = a at ha haa ⊢
  have hb := ha.trans (enableProc_starts (here.enter .wrEnable) .wr d a.state)
  have hba := (enableProc_held (here.enter .wrEnable) .wr d a.state).attempt.trans haa
  generalize enableProc (here.enter .wrEnable) .wr d a.state = b at hb hba ⊢
  split
  · rw [haa]; exact ha.still rfl rfl
  · split
    · rename_i hst
      rw [if_neg (by simp [hst])] at hb
      rw [hba]; exact hb.still rfl rfl
    · rename_i hst
      rw [if_pos ⟨rfl, not_not.mp hst⟩] at hb
      obtain ⟨n, hn, hna⟩ := writeLoop_starts here d data Config.writeAttempts b.state (by decide) (by omega)
      rw [if_pos trivial, hna, hba]
      exact (hb.trans hn).still rfl rfl

end Sys2Proof.Machine
end

