-- ==== Sys2Proof/Laws/Script.lean ====
section
/-! SUPPORT. Runs of the procedures under scripted answers: what the environment is said to answer is what is on the port,
and the procedures do what their rules say of those answers. -/

namespace Sys2Proof.Machine

/-- A legal answer stands for itself (R51). -/
theorem fit_of_legal {tx : Transaction} {r : Reply} (h : r.legal tx = true) : tx.fit r = r := by
  cases r with
  | fail => rfl
  | ok m bs =>
    cases tx <;> simp only [Reply.legal, Bool.and_eq_true, beq_iff_eq, decide_eq_true_eq, List.isEmpty_iff] at h
    all_goals simp only [Transaction.fit, Reply.ok.injEq]
    case regRead => obtain ⟨rfl, rfl⟩ := h; simp
    case bulkOut => exact ⟨by omega, h.2.symm⟩
    case bulkIn => rw [List.take_of_length_le h.1]; exact ⟨h.2.symm, rfl⟩
    all_goals exact ⟨h.1.symm, h.2.symm⟩

theorem nextReply_of {s : State} {tx : Transaction} {r : Reply} {more : List Reply} (h : s.replies = r :: more)
    (hl : r.legal tx = true) : s.nextReply tx = r := by
  unfold State.nextReply
  rw [h, List.headD_cons, fit_of_legal hl]

/-- From `s` to `t` the transactions of `x` got their answers, and `more` is left at hand. -/
structure Follows (s t : State) (x : Script) (more : List Reply) : Prop where
  history : t.history = s.history ++ x
  replies : t.replies = more

theorem Follows.trans {s t u : State} {x y : Script} {more : List Reply} (h : Follows s t x (Script.answers y ++ more))
    (k : Follows t u y more) : Follows s u (x ++ y) more :=
  ⟨by rw [k.history, h.history, List.append_assoc], k.replies⟩

theorem Follows.still {s t u : State} {x : Script} {more : List Reply} (h : Follows s t x more) (hh : u.history = t.history)
    (hr : u.replies = t.replies) : Follows s u x more := ⟨hh.trans h.history, hr.trans h.replies⟩

/-- A run after a run and a step that leaves the port alone. -/
theorem Follows.after {s t t' u : State} {x y : Script} {more : List Reply} (k : Follows t' u y more)
    (h : Follows s t x (Script.answers y ++ more)) (hh : t'.history = t.history) (hr : t'.replies = t.replies) :
    Follows s u (x ++ y) more := (h.still hh hr).trans k

theorem answers_append (x y : Script) : Script.answers (x ++ y) = Script.answers x ++ Script.answers y := List.map_append

theorem answers_cons (e : Transaction × Reply) (y : Script) : Script.answers (e :: y) = e.2 :: Script.answers y := rfl

theorem exchange_follows {s : State} {tx : Transaction} {r : Reply} {more : List Reply} (p : Seq) (h : s.replies = r :: more)
    (hl : r.legal tx = true) : Follows s (s.exchange p tx) [(tx, r)] more :=
  ⟨by rw [(exchange_issued s p tx).history, nextReply_of h hl], by simp [h]⟩

theorem okay_legal : okay.legal .dmaReset = true ∧ okay.legal .dmaCancel = true
    ∧ (∀ dir d, okay.legal (enableTx dir d) = true) ∧ ∀ a bs, okay.legal (.regWrite .reg a bs) = true := by
  refine ⟨rfl, rfl, fun _ _ => rfl, fun _ _ => rfl⟩

/-! ### Reset, Cancel, Enable -/

theorem resetProc_script (here : Seq) {s : State} {more : List Reply} (h : s.replies = okay :: more) :
    (resetProc here s).status = .ok ∧ Follows s (resetProc here s).state [(.dmaReset, okay)] more := by
  refine ⟨?_, (exchange_follows _ h okay_legal.1).still rfl rfl⟩
  simp only [resetProc]
  rw [nextReply_of h okay_legal.1]; rfl

theorem cancelProc_script (here : Seq) {s : State} {more : List Reply} (h : s.replies = okay :: more) :
    (cancelProc here s).status = .ok ∧ Follows s (cancelProc here s).state [(.dmaCancel, okay)] more := by
  refine ⟨?_, (exchange_follows _ h okay_legal.2.1).still rfl rfl⟩
  simp only [cancelProc]
  rw [nextReply_of h okay_legal.2.1]; rfl

theorem enableProc_script (here : Seq) (dir : Dir) {d : Desc} {s : State} {more : List Reply} (hv : d.valid = true)
    (hs : s.dstate = .idle) (h : s.replies = okay :: more) :
    (enableProc here dir d s).status = .ok ∧ Follows s (enableProc here dir d s).state [(enableTx dir d, okay)] more
      ∧ (enableProc here dir d s).state.dstate = dir.armed ∧ (enableProc here dir d s).state.desc = d
      ∧ (enableProc here dir d s).state.remain = d.size := by
  have hl := okay_legal.2.2.1 dir d
  have hf : (s.nextReply (enableTx dir d)).failed = false := by rw [nextReply_of h hl]; rfl
  unfold enableProc
  rw [if_neg (by simp [hv]), if_neg (by simp [hs]), if_neg (by simp [hf])]
  exact ⟨rfl, (exchange_follows _ h hl).still rfl rfl, rfl, rfl, rfl⟩

/-! ### Bulk phases in full -/

/-- As many chunks as `ceil(n / MAX_XFER)` (R121). -/
theorem chunksOf_length (cfg : Config.Cfg) (rounds : Nat) (bs : List Byte) (h : bs.length ≤ rounds) :
    (chunksOf cfg.maxXfer.val rounds bs).length = chunkCount cfg bs.length := by
  have hx := cfg.maxXfer.property
  induction rounds generalizing bs with
  | zero =>
    have : bs.length = 0 := by omega
    rw [this]
    simp only [chunksOf, List.length_nil, chunkCount]
    exact (Nat.div_eq_of_lt (by omega)).symm
  | succ rounds ih =>
    simp only [chunksOf]
    split
    · rename_i hb
      subst hb
      simp only [List.length_nil, chunkCount]
      exact (Nat.div_eq_of_lt (by omega)).symm
    · rename_i hb
      have hpos := List.length_pos_iff.mpr hb
      rw [List.length_cons, ih _ (by rw [List.length_drop]; omega), chunkCount_step cfg hpos, List.length_drop]
      have : bs.length - cfg.maxXfer.val = bs.length - min cfg.maxXfer.val bs.length := by omega
      rw [this]; omega

theorem outScript_length (cfg : Config.Cfg) (bs : List Byte) : (outScript cfg bs).length = chunkCount cfg bs.length := by
  simp only [outScript, List.length_map, chunks]
  exact chunksOf_length cfg _ _ (Nat.le_refl _)

theorem inScript_length (cfg : Config.Cfg) (bs : List Byte) : (inScript cfg bs).length = chunkCount cfg bs.length := by
  simp only [inScript, List.length_map, chunks]
  exact chunksOf_length cfg _ _ (Nat.le_refl _)

theorem bulkOutLoop_script (here : Seq) (rounds : Nat) (rest : List Byte) (moved : Nat) (s : State) (more : List Reply)
    (hr : rest.length ≤ rounds)
    (h : s.replies = Script.answers ((chunksOf s.cfg.maxXfer.val rounds rest).map fun c => (.bulkOut c, .ok c.length [])) ++ more) :
    (bulkOutLoop here rounds rest moved s).status = .ok
      ∧ (bulkOutLoop here rounds rest moved s).moved = moved + rest.length
      ∧ Follows s (bulkOutLoop here rounds rest moved s).state
          ((chunksOf s.cfg.maxXfer.val rounds rest).map fun c => (.bulkOut c, .ok c.length [])) more := by
  have hx := s.cfg.maxXfer.property
  induction rounds generalizing rest moved s with
  | zero =>
    have : rest.length = 0 := by omega
    exact ⟨rfl, by simp [bulkOutLoop, this], by simp [chunksOf, bulkOutLoop], h⟩
  | succ rounds ih =>
    simp only [bulkOutLoop, chunksOf] at h ⊢
    split
    · rename_i hb
      subst hb
      exact ⟨rfl, rfl, by simp, h⟩
    · rename_i hb
      have hpos := List.length_pos_iff.mpr hb
      rw [if_neg hb, List.map_cons, answers_cons, List.cons_append] at h
      have hl : (Reply.ok (rest.take s.cfg.maxXfer.val).length []).legal (.bulkOut (rest.take s.cfg.maxXfer.val)) = true := by
        simp [Reply.legal]
      have hn := nextReply_of h hl
      have hf := exchange_follows (here.enter .bulk) h hl
      rw [hn]
      simp only [Reply.failed, Reply.moved, Bool.false_eq_true, if_false, Nat.lt_irrefl]
      have hd : rest.drop (rest.take s.cfg.maxXfer.val).length = rest.drop s.cfg.maxXfer.val := by
        rw [List.length_take]
        rcases Nat.le_total s.cfg.maxXfer.val rest.length with hle | hle
        · rw [Nat.min_eq_left hle]
        · rw [Nat.min_eq_right hle, List.drop_length, List.drop_eq_nil_of_le hle]
      rw [hd]
      obtain ⟨i1, i2, i3⟩ := ih (rest.drop s.cfg.maxXfer.val) (moved + (rest.take s.cfg.maxXfer.val).length)
        ((s.exchange (here.enter .bulk) (.bulkOut (rest.take s.cfg.maxXfer.val))).moved (rest.take s.cfg.maxXfer.val).length)
        (by rw [List.length_drop]; omega) hf.replies hx
      refine ⟨i1, ?_, ?_⟩
      · rw [i2, List.length_take, List.length_drop]; omega
      · exact i3.after (x := [_]) hf rfl rfl

theorem bulkInLoop_script (here : Seq) (rounds : Nat) (rest out : List Byte) (s : State) (more : List Reply)
    (hr : rest.length ≤ rounds)
    (h : s.replies = Script.answers ((chunksOf s.cfg.maxXfer.val rounds rest).map fun c => (.bulkIn c.length, .ok c.length c)) ++ more) :
    (bulkInLoop here rounds rest.length out s).status = .ok
      ∧ (bulkInLoop here rounds rest.length out s).out = out ++ rest
      ∧ Follows s (bulkInLoop here rounds rest.length out s).state
          ((chunksOf s.cfg.maxXfer.val rounds rest).map fun c => (.bulkIn c.length, .ok c.length c)) more := by
  have hx := s.cfg.maxXfer.property
  induction rounds generalizing rest out s with
  | zero =>
    have : rest = [] := List.eq_nil_of_length_eq_zero (by omega)
    exact ⟨rfl, by simp [bulkInLoop, this], by simp [chunksOf, bulkInLoop], h⟩
  | succ rounds ih =>
    simp only [bulkInLoop, chunksOf] at h ⊢
    split
    · rename_i hb
      have hb := List.eq_nil_of_length_eq_zero hb
      subst hb
      exact ⟨rfl, by simp, by simp, h⟩
    · rename_i hb
      have hne : rest ≠ [] := fun hc => hb (by rw [hc]; rfl)
      rw [if_neg hne, List.map_cons, answers_cons, List.cons_append] at h
      rw [if_neg hne]
      have hlen : (rest.take s.cfg.maxXfer.val).length = min s.cfg.maxXfer.val rest.length := List.length_take
      rw [← hlen]
      have hl : (Reply.ok (rest.take s.cfg.maxXfer.val).length (rest.take s.cfg.maxXfer.val)).legal
          (.bulkIn (rest.take s.cfg.maxXfer.val).length) = true := by simp [Reply.legal]
      have hn := nextReply_of h hl
      have hf := exchange_follows (here.enter .bulk) h hl
      rw [hn]
      simp only [Reply.failed, Reply.bytes, Bool.false_eq_true, if_false, Nat.lt_irrefl]
      have hd : rest.length - (rest.take s.cfg.maxXfer.val).length = (rest.drop s.cfg.maxXfer.val).length := by
        rw [List.length_drop]; omega
      rw [hd]
      obtain ⟨i1, i2, i3⟩ := ih (rest.drop s.cfg.maxXfer.val) (out ++ rest.take s.cfg.maxXfer.val)
        ((s.exchange (here.enter .bulk) (.bulkIn (rest.take s.cfg.maxXfer.val).length)).moved (rest.take s.cfg.maxXfer.val).length)
        (by rw [List.length_drop]; omega) hf.replies hx
      refine ⟨i1, ?_, ?_⟩
      · rw [i2, List.append_assoc, List.take_append_drop]
      · exact i3.after (x := [_]) hf rfl rfl

theorem bulkOutProc_script (here : Seq) (data : List Byte) {s : State} {more : List Reply}
    (h : s.replies = Script.answers (outScript s.cfg data) ++ more) :
    (bulkOutProc here data s).status = .ok ∧ (bulkOutProc here data s).moved = data.length
      ∧ Follows s (bulkOutProc here data s).state (outScript s.cfg data) more := by
  obtain ⟨h1, h2, h3⟩ := bulkOutLoop_script here data.length data 0 s more (Nat.le_refl _) h
  simp only [bulkOutProc]
  rw [if_pos h1]
  exact ⟨rfl, by simpa using h2, h3.still (history_settle _) (settle_replies _)⟩

theorem bulkInProc_script (here : Seq) (data : List Byte) {n : Nat} {s : State} {more : List Reply} (hn : data.length = n)
    (h : s.replies = Script.answers (inScript s.cfg data) ++ more) :
    (bulkInProc here n s).status = .ok ∧ (bulkInProc here n s).out = data
      ∧ Follows s (bulkInProc here n s).state (inScript s.cfg data) more := by
  subst hn
  obtain ⟨h1, h2, h3⟩ := bulkInLoop_script here data.length data [] s more (Nat.le_refl _) h
  simp only [bulkInProc]
  rw [if_pos h1]
  exact ⟨rfl, h2, h3.still (history_settle _) (settle_replies _)⟩

/-! ### Read -/

/-- `DmaReadProc` whose every transaction succeeds in full (R132). -/
theorem dmaReadProc_script (here : Seq) {d : Desc} {data : List Byte} {s : State} {more : List Reply} (hv : d.valid = true)
    (hl : data.length = d.size.toNat) (h : s.replies = Script.answers (readScript s.cfg d data) ++ more) :
    (dmaReadProc here d s).status = .ok ∧ (dmaReadProc here d s).out = data
      ∧ Follows s (dmaReadProc here d s).state (readScript s.cfg d data) more := by
  unfold dmaReadProc
  rw [if_neg (by simp [hv])]
  simp only
  have ha := resetProc_engine (here.enter .rdReset) s
  obtain ⟨a1, a2⟩ := resetProc_script (here.enter .rdReset) h
  have au := resetProc_unarmed (here.enter .rdReset) s
  generalize resetProc (here.enter .rdReset) s = a at ha a1 a2 au ⊢
  rw [if_neg (by simp [a1])]
  have hb := enableProc_engine (here.enter .rdEnable) .rd d a.state
  obtain ⟨b1, b2, b3, b4, b5⟩ := enableProc_script (here.enter .rdEnable) .rd hv au.dstate a2.replies
  generalize enableProc (here.enter .rdEnable) .rd d a.state = b at hb b1 b2 b3 b4 b5 ⊢
  rw [if_neg (by simp [b1])]
  have hc : b.state.cfg = s.cfg := (ha.trans hb).cfg
  obtain ⟨e1, e2, e3⟩ := bulkInProc_script (here.enter .rdData) data hl (s := b.state) (more := more) (by rw [hc]; exact b2.replies)
  generalize bulkInProc (here.enter .rdData) d.size.toNat b.state = e at e1 e2 e3 ⊢
  rw [if_neg (by simp [e1, e2, hl])]
  refine ⟨e1, e2, ?_⟩
  rw [hc] at e3
  exact (a2.trans (more := _) (y := [(enableTx .rd d, okay)]) b2).trans e3

/-! ### Write -/

theorem writeData_script (here : Seq) {d : Desc} {data : List Byte} {s : State} {more : List Reply}
    (hl : data.length = d.size.toNat) (h : s.replies = Script.answers (outScript s.cfg data) ++ more) :
    (writeData here d data s).status = .ok ∧ Follows s (writeData here d data s).state (outScript s.cfg data) more := by
  obtain ⟨h1, h2, h3⟩ := bulkOutProc_script (here.enter .wrData) data h
  simp only [writeData]
  rw [if_neg (by simp [h1, h2, hl])]
  exact ⟨rfl, h3⟩

/-- An attempt after its Enable, all of whose transactions succeed in full (R135). -/
theorem writeAttempt_script (here : Seq) {d : Desc} {data back : List Byte} {s : State} {more : List Reply} (hv : d.valid = true)
    (hr : s.remain = d.size) (hl : data.length = d.size.toNat) (hb : back.length = d.size.toNat)
    (h : s.replies = Script.answers (outScript s.cfg data ++ (enableTx .rd d, okay) :: inScript s.cfg back) ++ more) :
    (writeAttempt here d data s).result = (if back = data then .verified else .mismatch)
      ∧ Follows s (writeAttempt here d data s).state
          (outScript s.cfg data ++ (enableTx .rd d, okay) :: inScript s.cfg back) more := by
  simp only [writeAttempt]
  rw [answers_append, List.append_assoc] at h
  have h0 : (s.setAttempt (s.attempt + 1)).replies = s.replies := rfl
  have c0 : (s.setAttempt (s.attempt + 1)).cfg = s.cfg := rfl
  obtain ⟨we, wh, wu, -⟩ := writeData_end here d data (s.setAttempt (s.attempt + 1)) hr hl
  obtain ⟨w1, w2⟩ := writeData_script here (s := s.setAttempt (s.attempt + 1)) hl h
  generalize writeData here d data (s.setAttempt (s.attempt + 1)) = w at we wh wu w1 w2 ⊢
  rw [if_neg (by simp [w1])]
  have ve := enableProc_engine (here.enter .wrVenable) .rd d w.state
  obtain ⟨v1, v2, v3, v4, v5⟩ := enableProc_script (here.enter .wrVenable) .rd hv wu.dstate w2.replies
  generalize enableProc (here.enter .wrVenable) .rd d w.state = v at ve v1 v2 v3 v4 v5 ⊢
  rw [if_neg (by simp [v1])]
  have hc : v.state.cfg = s.cfg := (we.trans ve).cfg
  obtain ⟨r1, r2, r3⟩ := bulkInProc_script (here.enter .wrVdata) back hb (s := v.state) (more := more) (by rw [hc]; exact v2.replies)
  generalize bulkInProc (here.enter .wrVdata) d.size.toNat v.state = r at r1 r2 r3 ⊢
  rw [if_neg (by simp [r1, r2, hb])]
  rw [hc] at r3
  have hall : Follows s r.state (outScript s.cfg data ++ (enableTx .rd d, okay) :: inScript s.cfg back) more := by
    have := (Follows.trans (y := [(enableTx .rd d, okay)]) w2 v2).trans r3
    rw [List.append_assoc] at this
    exact ⟨this.history, this.replies⟩
  simp only [setScratch_scratch, goto_scratch, r2, Option.some.injEq]
  split
  · exact ⟨rfl, hall.still rfl rfl⟩
  · exact ⟨rfl, hall.still rfl rfl⟩

/-- The retry loop over read-backs that differ, one attempt for each of `bad` (R135); the attempts end with one that reads
back the data, or with the tenth. -/
theorem writeLoop_script (here : Seq) {d : Desc} {data : List Byte} (hv : d.valid = true) (hl : data.length = d.size.toNat)
    (more : List Reply) (final : Bool) (left : Nat) (bad : List (List Byte)) (x : Script) (s : State) (hr : s.remain = d.size)
    (hbad : ∀ back ∈ bad, back.length = d.size.toNat ∧ back ≠ data) (hsum : s.attempt + left = Config.writeAttempts)
    (hpos : 0 < left) (hlen : if final then bad.length < left else bad.length = left)
    (hx : (enableTx .wr d, okay) :: x
      = mismatchScript s.cfg d data bad ++ if final then attemptScript s.cfg d data data else [])
    (h : s.replies = Script.answers x ++ more) :
    (writeLoop here d data left s).status = (if final then .ok else .transportFailure)
      ∧ (writeLoop here d data left s).state.attempt = s.attempt + bad.length + (if final then 1 else 0)
      ∧ Follows s (writeLoop here d data left s).state x more := by
  induction left generalizing bad x s with
  | zero => omega
  | succ left ih =>
    simp only [writeLoop]
    have ha := writeAttempt_end here d data s hv hr hl
    cases bad with
    | nil =>
      cases final with
      | false => simp at hlen
      | true =>
        simp only [mismatchScript, List.flatMap_nil, if_true, List.nil_append, attemptScript, List.cons_append,
          List.cons.injEq] at hx
        obtain ⟨-, rfl⟩ := hx
        obtain ⟨a1, a2⟩ := writeAttempt_script here hv hr hl hl h
        rw [if_pos rfl] at a1
        generalize writeAttempt here d data s = a at ha a1 a2 ⊢
        rw [a1]
        exact ⟨rfl, ha.attempt, a2⟩
    | cons back bad =>
      obtain ⟨hb1, hb2⟩ := hbad back (by simp)
      simp only [mismatchScript, List.flatMap_cons, attemptScript, List.cons_append, List.cons.injEq] at hx
      obtain ⟨-, hx⟩ := hx
      generalize hy : (List.flatMap _ bad ++ if final = true then _ else _ : Script) = y at hx
      have hx : x = (outScript s.cfg data ++ (enableTx .rd d, okay) :: inScript s.cfg back) ++ (.dmaCancel, okay) :: y := by
        rw [hx, ← hy]; simp only [List.append_assoc, List.cons_append, List.nil_append]; rfl
      subst hx
      rw [answers_append, List.append_assoc] at h
      obtain ⟨a1, a2⟩ := writeAttempt_script here hv hr hl hb1 h
      rw [if_neg hb2] at a1
      generalize writeAttempt here d data s = a at ha a1 a2 ⊢
      rw [a1]
      simp only
      have ce := cancelProc_engine (here.enter .wrCancel) a.state
      have cu := cancelProc_unarmed (here.enter .wrCancel) a.state
      have ch := cancelProc_held (here.enter .wrCancel) a.state
      obtain ⟨c1, c2⟩ := cancelProc_script (here.enter .wrCancel) a2.replies
      generalize cancelProc (here.enter .wrCancel) a.state = c at ce cu ch c1 c2 ⊢
      rw [if_neg (by simp [c1])]
      have hca : c.state.attempt = s.attempt + 1 := ch.attempt.trans ha.attempt
      have hcc : c.state.cfg = s.cfg := (ha.engine.trans ce).cfg
      rw [hca]
      have hac := Follows.trans (y := [(.dmaCancel, okay)]) a2 c2
      rcases Nat.eq_zero_or_pos left with rfl | hleft
      · rw [if_pos (by omega)]
        have hnil : bad = [] := by
          cases final <;> simp at hlen; exact hlen
        cases final with
        | true => simp at hlen
        | false =>
          subst hnil
          simp only [List.flatMap_nil, Bool.false_eq_true, if_false, List.append_nil] at hy
          subst hy
          exact ⟨rfl, by rw [hca]; simp, hac⟩
      · rw [if_neg (by omega)]
        obtain ⟨z, hz⟩ : ∃ z, y = (enableTx .wr d, okay) :: z := by
          rw [← hy]
          cases bad with
          | nil =>
            cases final with
            | true => exact ⟨_, rfl⟩
            | false => simp at hlen; omega
          | cons b bs => exact ⟨_, rfl⟩
        rw [hz] at hy c2 hac
        have ee := enableProc_engine (here.enter .wrReenable) .wr d c.state
        have eh := enableProc_held (here.enter .wrReenable) .wr d c.state
        obtain ⟨e1, e2, e3, e4, e5⟩ := enableProc_script (here.enter .wrReenable) .wr hv cu.dstate c2.replies
        generalize enableProc (here.enter .wrReenable) .wr d c.state = e at ee eh e1 e2 e3 e4 e5 ⊢
        rw [if_neg (by simp [e1])]
        have hec : e.state.cfg = s.cfg := ee.cfg.trans hcc
        have hea : e.state.attempt = s.attempt + 1 := eh.attempt.trans hca
        obtain ⟨i1, i2, i3⟩ := ih bad z e.state e5 (fun b hb => hbad b (by simp [hb])) (by omega) hleft
          (by cases final <;> simp at hlen ⊢ <;> omega) (by rw [hec]; simpa [mismatchScript, attemptScript] using hy.symm) e2.replies
        refine ⟨i1, ?_, ?_⟩
        · rw [i2, hea, List.length_cons]; omega
        · have := (Follows.trans (y := [(enableTx .wr d, okay)]) hac e2).trans i3
          rw [hz]
          simpa [List.append_assoc] using this

/-- `DmaWriteProc` with a scratch buffer, over read-backs that differ and then, if `final`, one that does not (R135). -/
theorem dmaWriteProc_script (here : Seq) {d : Desc} {data : List Byte} {s : State} {more : List Reply} (hv : d.valid = true)
    (hl : data.length = d.size.toNat) (hav : s.nextAvail = true) (final : Bool) (bad : List (List Byte))
    (hbad : ∀ back ∈ bad, back.length = d.size.toNat ∧ back ≠ data)
    (hlen : if final then bad.length < Config.writeAttempts else bad.length = Config.writeAttempts)
    (h : s.replies = Script.answers ((.dmaReset, okay) :: (mismatchScript s.cfg d data bad
      ++ if final then attemptScript s.cfg d data data else [])) ++ more) :
    (dmaWriteProc here d data s).status = (if final then .ok else .transportFailure)
      ∧ (dmaWriteProc here d data s).state.attempt = bad.length + (if final then 1 else 0)
      ∧ Follows s (dmaWriteProc here d data s).state ((.dmaReset, okay) :: (mismatchScript s.cfg d data bad
        ++ if final then attemptScript s.cfg d data data else [])) more := by
  obtain ⟨x, hx⟩ : ∃ x, (enableTx .wr d, okay) :: x
      = mismatchScript s.cfg d data bad ++ if final then attemptScript s.cfg d data data else [] := by
    cases bad with
    | nil =>
      cases final with
      | true => exact ⟨_, rfl⟩
      | false => simp [Config.writeAttempts] at hlen
    | cons b bs => exact ⟨_, rfl⟩
  unfold dmaWriteProc
  rw [if_neg (by simp [hv])]
  rw [← hx] at h ⊢
  have hr0 : (s.setAttempt 0).sampleScratch.replies = s.replies := rfl
  have hh0 : (s.setAttempt 0).sampleScratch.history = s.history := rfl
  have hc0 : (s.setAttempt 0).sampleScratch.cfg = s.cfg := rfl
  have ha0 : (s.setAttempt 0).sampleScratch.attempt = 0 := rfl
  simp only [hav]
  generalize (s.setAttempt 0).sampleScratch = s0 at hr0 hh0 hc0 ha0 ⊢
  rw [← hr0] at h
  simp only [writeBody]
  have ae := resetProc_engine (here.enter .wrReset) s0
  have ah := resetProc_held (here.enter .wrReset) s0
  have au := resetProc_unarmed (here.enter .wrReset) s0
  obtain ⟨a1, a2⟩ := resetProc_script (here.enter .wrReset) h
  generalize resetProc (here.enter .wrReset) s0 = a at ae ah au a1 a2 ⊢
  rw [if_neg (by simp [a1])]
  have be := enableProc_engine (here.enter .wrEnable) .wr d a.state
  have bh := enableProc_held (here.enter .wrEnable) .wr d a.state
  obtain ⟨b1, b2, b3, b4, b5⟩ := enableProc_script (here.enter .wrEnable) .wr hv au.dstate a2.replies
  generalize enableProc (here.enter .wrEnable) .wr d a.state = b at be bh b1 b2 b3 b4 b5 ⊢
  rw [if_neg (by simp [b1]), if_pos trivial]
  have hc : b.state.cfg = s.cfg := (ae.trans be).cfg.trans hc0
  have hat : b.state.attempt = 0 := bh.attempt.trans (ah.attempt.trans ha0)
  obtain ⟨w1, w2, w3⟩ := writeLoop_script here hv hl more final Config.writeAttempts bad x b.state b5 hbad (by omega)
    (by decide) hlen (by rw [hc]; exact hx) b2.replies
  refine ⟨w1, by simp only [setScratch_attempt]; rw [w2, hat]; omega, ?_⟩
  have := (Follows.trans (y := [(enableTx .wr d, okay)]) a2 b2).trans w3
  exact ⟨this.history.trans (by rw [hh0]; rfl), this.replies⟩

/-- `DmaWriteProc` without a scratch buffer (R134, R135). -/
theorem dmaWriteProc_blind (here : Seq) {d : Desc} {data : List Byte} {s : State} {more : List Reply} (hv : d.valid = true)
    (hl : data.length = d.size.toNat) (hav : s.nextAvail = false)
    (h : s.replies = Script.answers (blindWriteScript s.cfg d data) ++ more) :
    (dmaWriteProc here d data s).status = .ok ∧ (dmaWriteProc here d data s).state.attempt = 0
      ∧ Follows s (dmaWriteProc here d data s).state (blindWriteScript s.cfg d data) more := by
  unfold dmaWriteProc
  rw [if_neg (by simp [hv])]
  have hr0 : (s.setAttempt 0).sampleScratch.replies = s.replies := rfl
  have hh0 : (s.setAttempt 0).sampleScratch.history = s.history := rfl
  have hc0 : (s.setAttempt 0).sampleScratch.cfg = s.cfg := rfl
  have ha0 : (s.setAttempt 0).sampleScratch.attempt = 0 := rfl
  simp only [hav]
  generalize (s.setAttempt 0).sampleScratch = s0 at hr0 hh0 hc0 ha0 ⊢
  rw [← hr0] at h
  simp only [writeBody]
  have ae := resetProc_engine (here.enter .wrReset) s0
  have ah := resetProc_held (here.enter .wrReset) s0
  have au := resetProc_unarmed (here.enter .wrReset) s0
  obtain ⟨a1, a2⟩ := resetProc_script (here.enter .wrReset) h
  generalize resetProc (here.enter .wrReset) s0 = a at ae ah au a1 a2 ⊢
  rw [if_neg (by simp [a1])]
  have be := enableProc_engine (here.enter .wrEnable) .wr d a.state
  have bh := enableProc_held (here.enter .wrEnable) .wr d a.state
  obtain ⟨b1, b2, b3, b4, b5⟩ := enableProc_script (here.enter .wrEnable) .wr hv au.dstate a2.replies
  generalize enableProc (here.enter .wrEnable) .wr d a.state = b at be bh b1 b2 b3 b4 b5 ⊢
  rw [if_neg (by simp [b1]), if_neg (by simp)]
  have hc : b.state.cfg = s.cfg := (ae.trans be).cfg.trans hc0
  obtain ⟨-, wh, -, -⟩ := writeData_end here d data b.state b5 hl
  obtain ⟨w1, w2⟩ := writeData_script here hl (s := b.state) (more := more) (by rw [hc]; exact b2.replies)
  generalize writeData here d data b.state = w at wh w1 w2 ⊢
  rw [hc] at w2
  refine ⟨w1, wh.attempt.trans (bh.attempt.trans (ah.attempt.trans ha0)), ?_⟩
  have := (Follows.trans (y := [(enableTx .wr d, okay)]) a2 b2).trans w2
  exact ⟨this.history.trans (by rw [hh0]; rfl), this.replies⟩

/-! ### SetType and one ready poll -/

theorem setField_setField (m v w b : Byte) : setField m v (setField m w b) = setField m v b := by
  unfold setField
  generalize v <<< lsb m = x
  generalize w <<< lsb m = y
  ext i hi
  simp only [BitVec.getElem_or, BitVec.getElem_and, BitVec.getElem_not]
  cases b[i] <;> cases m[i] <;> cases x[i] <;> cases y[i] <;> rfl

/-- `SetTypeProc` whose transaction succeeds (R139). -/
theorem setTypeProc_script (here : Seq) {code : BitVec 3} {s : State} {more : List Reply} (hc : code ≤ maxCode)
    (h : s.replies = okay :: more) :
    (setTypeProc here code s).status = .ok ∧ Follows s (setTypeProc here code s).state
      [(.regWrite .reg s.cfg.ramtypeAddr [setField s.cfg.ramtypeMask.val (code.setWidth 8) (s.riByte (ramOff s))], okay)] more := by
  have he := setTypeProc_end here code s hc
  obtain ⟨r, h1, h2⟩ := he.pushed
  have hr : r = okay := by
    have hn : ((s.goto (here.enter .stField)).setRamType code).nextReply (pushTx ((s.goto (here.enter .stField)).setRamType code)) = okay :=
      nextReply_of (by simpa [State.setRamType] using h) rfl
    have hh : (setTypeProc here code s).state.history = s.history ++ [(pushTx ((s.goto (here.enter .stField)).setRamType code),
        ((s.goto (here.enter .stField)).setRamType code).nextReply (pushTx ((s.goto (here.enter .stField)).setRamType code)))] := by
      unfold setTypeProc
      rw [if_neg (by bv_omega), (exchange_issued _ _ _).history]
      simp [State.history, State.setRamType]
    rw [hh, hn] at h1
    simpa using (congrArg (fun l => l.getLast?.map Prod.snd) h1).symm
  subst hr
  refine ⟨h2, by rw [h1, he.byte], ?_⟩
  obtain ⟨added, g1, g2, -, -⟩ := he.detecting.grown
  have : added.length = 1 := by
    simp only [State.history, g1, List.map_append, List.append_cancel_left_eq] at h1
    simpa using congrArg List.length h1
  rw [g2, this, h]; rfl

/-- `WaitReadyProc` whose first poll shows the bit set (R118). -/
theorem waitReadyProc_script (here : Seq) (timeout : Word) {b : Byte} {s : State} {more : List Reply}
    (hb : b &&& s.cfg.rdyMask.val ≠ 0) (h : s.replies = .ok 1 [b] :: more) :
    (waitReadyProc here timeout s).status = .ok
      ∧ Follows s (waitReadyProc here timeout s).state [(pollTx s.cfg, .ok 1 [b])] more := by
  unfold waitReadyProc
  obtain ⟨k, hk⟩ : ∃ k, pollBudget s.cfg timeout = k + 1 := ⟨pollBudget s.cfg timeout - 1, by unfold pollBudget; omega⟩
  rw [hk]
  simp only [waitLoop]
  have hs : (s.setPolls 0).replies = .ok 1 [b] :: more := h
  have hl : (Reply.ok 1 [b]).legal (pollTx (s.setPolls 0).cfg) = true := rfl
  rw [nextReply_of hs hl]
  rw [if_neg (by simp [Reply.failed]), if_pos (by simpa [ready, Reply.bytes] using hb)]
  have hx := exchange_follows (here.enter .wtPoll) hs hl
  exact ⟨rfl, hx.history, hx.replies⟩

/-! ### DETECT -/

/-- What a round of DETECT leaves that the next one starts from: the samples, and a RAM-type byte that differs from `b` in
the field only. -/
structure RoundScript (b : Byte) (am : List Bool) (s t : State) (x : Script) (more : List Reply) : Prop where
  follows : Follows s t x more
  avails : t.avails = am
  byte : ∀ v, setField s.cfg.ramtypeMask.val v (t.riByte (ramOff s)) = setField s.cfg.ramtypeMask.val v b

/-- One candidate's round under an environment that answers every transaction: accepted where the pattern comes back,
rejected where ten read-backs of the Write differ (R142, R143, R148). -/
theorem detectRound_script {k : BitVec 3} (hk : k ≤ maxCode) {s : State} {b rdy : Byte} (accept : Bool)
    (bad : List (List Byte)) {more : List Reply} {am : List Bool}
    (hb : ∀ v, setField s.cfg.ramtypeMask.val v (s.riByte (ramOff s)) = setField s.cfg.ramtypeMask.val v b)
    (hrdy : rdy &&& s.cfg.rdyMask.val ≠ 0) (hav : s.avails = true :: am)
    (hbad : accept = false → bad.length = 10 ∧ ∀ back ∈ bad, back.length = Config.detLen ∧ back ≠ detData s.cfg)
    (h : s.replies = Script.answers (candidateScript s.cfg b rdy k ++ if accept
      then writeScript s.cfg (detDesc s.cfg) (detData s.cfg) [] ++ readScript s.cfg (detDesc s.cfg) (detData s.cfg)
      else failedWriteScript s.cfg (detDesc s.cfg) (detData s.cfg) bad) ++ more) :
    (detectRound k s).verdict = (if accept then .accepted else .rejected)
      ∧ RoundScript b am s (detectRound k s).state (candidateScript s.cfg b rdy k ++ if accept
          then writeScript s.cfg (detDesc s.cfg) (detData s.cfg) [] ++ readScript s.cfg (detDesc s.cfg) (detData s.cfg)
          else failedWriteScript s.cfg (detDesc s.cfg) (detData s.cfg) bad) more := by
  have hdl : (detData s.cfg).length = (detDesc s.cfg).size.toNat := by rw [detDesc_size]; simp [detData]
  simp only [detectRound]
  have ae := setTypeProc_end (Seq.idle.enter .dtSettype) k (s.setCand k) hk
  obtain ⟨a1, a2⟩ := setTypeProc_script (Seq.idle.enter .dtSettype) (s := s.setCand k) hk h
  have hoff : ramOff (s.setCand k) = ramOff s := rfl
  have hri : (s.setCand k).riByte (ramOff s) = s.riByte (ramOff s) := rfl
  have hab := ae.byte
  rw [hoff] at a2 hab
  rw [hri, setCand_cfg, hb] at a2 hab
  have hac : (setTypeProc (Seq.idle.enter .dtSettype) k (s.setCand k)).state.cfg = s.cfg := ae.detecting.cfg
  have haa : (setTypeProc (Seq.idle.enter .dtSettype) k (s.setCand k)).state.avails = true :: am := ae.held.avails.trans hav
  generalize setTypeProc (Seq.idle.enter .dtSettype) k (s.setCand k) = a at a1 a2 hab hac haa ⊢
  have hbyte : ∀ {n : Nat} {u : State}, Engine n a.state u → ∀ v,
      setField s.cfg.ramtypeMask.val v (u.riByte (ramOff s)) = setField s.cfg.ramtypeMask.val v b := fun he v => by
    rw [riByte_congr he.cfg he.ri, hab, setField_setField]
  rw [if_neg (by simp [a1])]
  have we := waitReadyProc_engine (Seq.idle.enter .dtWait) s.cfg.detTimeout a.state
  have wa : (waitReadyProc (Seq.idle.enter .dtWait) s.cfg.detTimeout a.state).state.avails = a.state.avails :=
    (waitLoop_keeps (Seq.idle.enter .dtWait) (pollBudget a.state.cfg s.cfg.detTimeout) (a.state.setPolls 0)).2.2.2
  obtain ⟨w1, w2⟩ := waitReadyProc_script (Seq.idle.enter .dtWait) s.cfg.detTimeout (by rw [hac]; exact hrdy) a2.replies
  generalize waitReadyProc (Seq.idle.enter .dtWait) s.cfg.detTimeout a.state = w at we wa w1 w2 ⊢
  rw [if_neg (by simp [w1])]
  have ce := resetProc_engine (Seq.idle.enter .dtReset) w.state
  have ca := (resetProc_held (Seq.idle.enter .dtReset) w.state).avails
  obtain ⟨c1, c2⟩ := resetProc_script (Seq.idle.enter .dtReset) w2.replies
  generalize resetProc (Seq.idle.enter .dtReset) w.state = c at ce ca c1 c2 ⊢
  rw [if_neg (by simp [c1])]
  have hcc : c.state.cfg = s.cfg := (we.trans ce).cfg.trans hac
  have hca : c.state.avails = true :: am := ca.trans (wa.trans haa)
  have hcav : c.state.nextAvail = true := by simp [State.nextAvail, hca]
  have hstart : Follows s c.state (candidateScript s.cfg b rdy k) (Script.answers (if accept
      then writeScript s.cfg (detDesc s.cfg) (detData s.cfg) [] ++ readScript s.cfg (detDesc s.cfg) (detData s.cfg)
      else failedWriteScript s.cfg (detDesc s.cfg) (detData s.cfg) bad) ++ more) := by
    rw [hac] at w2
    have h1 : Follows s a.state _ _ := ⟨a2.history, a2.replies⟩
    have h2 := Follows.trans (y := [(pollTx s.cfg, .ok 1 [rdy])]) h1 w2
    have h3 := Follows.trans (y := [(.dmaReset, okay)]) h2 c2
    exact ⟨h3.history, h3.replies⟩
  have hrep := hstart.replies
  obtain ⟨de, -, da, -, -, -, -, -⟩ := dmaWriteProc_end (Seq.idle.enter .dtWrite) (detDesc s.cfg) s.cfg.detPattern.toList
    c.state (detDesc_valid _) hdl
  rw [hca, List.tail_cons] at da
  cases accept with
  | false =>
    simp only [Bool.false_eq_true, if_false] at hstart hrep ⊢
    obtain ⟨hb1, hb2⟩ := hbad rfl
    obtain ⟨d1, d2, d3⟩ := dmaWriteProc_script (Seq.idle.enter .dtWrite) (d := detDesc s.cfg) (data := s.cfg.detPattern.toList)
      (s := c.state) (more := more) (detDesc_valid _) hdl hcav false bad (by rw [detDesc_size]; exact hb2) hb1
      (by rw [hcc, hrep]; simp [failedWriteScript, detData])
    generalize dmaWriteProc (Seq.idle.enter .dtWrite) (detDesc s.cfg) s.cfg.detPattern.toList c.state = d at de da d1 d2 d3 ⊢
    rw [if_pos (by simp [d1])]
    refine ⟨rfl, ?_, da, hbyte ((we.trans ce).trans de)⟩
    rw [hcc] at d3
    have d3 : Follows c.state d.state (failedWriteScript s.cfg (detDesc s.cfg) (detData s.cfg) bad) more := by
      simpa [failedWriteScript, detData] using d3
    exact hstart.trans d3
  | true =>
    simp only [if_true] at hstart hrep ⊢
    rw [answers_append, List.append_assoc] at hrep hstart
    obtain ⟨d1, d2, d3⟩ := dmaWriteProc_script (Seq.idle.enter .dtWrite) (d := detDesc s.cfg) (data := s.cfg.detPattern.toList)
      (s := c.state) (more := Script.answers (readScript s.cfg (detDesc s.cfg) (detData s.cfg)) ++ more) (detDesc_valid _) hdl
      hcav true [] (by simp) (by decide) (by rw [hcc, hrep]; rfl)
    generalize dmaWriteProc (Seq.idle.enter .dtWrite) (detDesc s.cfg) s.cfg.detPattern.toList c.state = d at de da d1 d2 d3 ⊢
    rw [if_neg (by simp [d1])]
    rw [hcc] at d3
    have hd3 : Follows c.state d.state (writeScript s.cfg (detDesc s.cfg) (detData s.cfg) []) _ := ⟨d3.history, d3.replies⟩
    have hdc : d.state.cfg = s.cfg := de.cfg.trans hcc
    have re := dmaReadProc_end (Seq.idle.enter .dtRead) (detDesc s.cfg) d.state (detDesc_valid _)
    obtain ⟨r1, r2, r3⟩ := dmaReadProc_script (Seq.idle.enter .dtRead) (d := detDesc s.cfg) (data := detData s.cfg) (s := d.state)
      (more := more) (detDesc_valid _) hdl (by rw [hdc]; exact d3.replies)
    generalize dmaReadProc (Seq.idle.enter .dtRead) (detDesc s.cfg) d.state = r at re r1 r2 r3 ⊢
    rw [if_neg (by simp [r1]), if_neg (by simp [r2, detData])]
    rw [hdc] at r3
    have hall := (hstart.trans (y := writeScript s.cfg (detDesc s.cfg) (detData s.cfg) []) hd3).trans r3
    refine ⟨rfl, ⟨?_, hall.replies⟩, re.held.avails.trans da, hbyte (((we.trans ce).trans de).trans (re.engine.then (goto_engine _ _)))⟩
    rw [List.append_assoc] at hall
    exact hall.history

/-- The coarse phase that rejects each of `rejected` and accepts the next code (R142, R143, R148). -/
theorem detectCoarse_script (rejected : List (BitVec 3 × List (List Byte))) {k : BitVec 3} {ks : List (BitVec 3)}
    (hks : ∀ k ∈ ks, k ≤ maxCode) (hpre : rejected.map Prod.fst ++ [k] <+: ks) {s : State} {b rdy : Byte}
    {more : List Reply} {am : List Bool}
    (hb : ∀ v, setField s.cfg.ramtypeMask.val v (s.riByte (ramOff s)) = setField s.cfg.ramtypeMask.val v b)
    (hrdy : rdy &&& s.cfg.rdyMask.val ≠ 0) (hav : s.avails = List.replicate (rejected.length + 1) true ++ am)
    (hbad : ∀ c ∈ rejected, c.2.length = 10 ∧ ∀ back ∈ c.2, back.length = Config.detLen ∧ back ≠ detData s.cfg)
    (h : s.replies = Script.answers (rejectedScript s.cfg b rdy rejected ++ acceptedScript s.cfg b rdy k) ++ more) :
    (detectCoarse ks s).verdict = .accepted ∧ (detectCoarse ks s).state.cand = k
      ∧ RoundScript b am s (detectCoarse ks s).state
          (rejectedScript s.cfg b rdy rejected ++ acceptedScript s.cfg b rdy k) more := by
  induction rejected generalizing ks s with
  | nil =>
    obtain ⟨tl, rfl⟩ := hpre
    have hk := hks k (by simp)
    simp only [List.map_nil, List.nil_append, List.cons_append, detectCoarse]
    have hs := rejectedScript.eq_def s.cfg b rdy []
    simp only [List.flatMap_nil] at hs
    rw [hs, List.nil_append, acceptedScript, List.append_assoc] at h ⊢
    obtain ⟨r1, r2⟩ := detectRound_script hk (s := s) true [] (more := more) (am := am) hb hrdy (by simpa using hav) (by simp) h
    have re := detectRound_end k s hk
    generalize detectRound k s = r at r1 r2 re ⊢
    have r1 : r.verdict = .accepted := r1
    rw [r1]
    exact ⟨r1, re.cand, r2⟩
  | cons c rejected ih =>
    obtain ⟨tl, rfl⟩ := hpre
    have hk := hks c.1 (by simp)
    simp only [List.map_cons, List.cons_append, detectCoarse]
    have hs : rejectedScript s.cfg b rdy (c :: rejected) = (candidateScript s.cfg b rdy c.1
        ++ failedWriteScript s.cfg (detDesc s.cfg) (detData s.cfg) c.2) ++ rejectedScript s.cfg b rdy rejected := rfl
    rw [hs, List.append_assoc, answers_append, List.append_assoc] at h
    obtain ⟨r1, r2⟩ := detectRound_script hk (s := s) false c.2 (am := List.replicate (rejected.length + 1) true ++ am) hb hrdy
      (by rw [hav]; rfl) (fun _ => hbad c (by simp)) h
    have re := detectRound_end c.1 s hk
    generalize detectRound c.1 s = r at r1 r2 re ⊢
    have r1 : r.verdict = .rejected := r1
    rw [r1]
    simp only
    have hc := re.detecting.cfg
    have hoff : ramOff r.state = ramOff s := by simp [ramOff, hc]
    obtain ⟨i1, i2, i3⟩ := ih (ks := (rejected.map Prod.fst).append ([k] ++ tl)) (s := r.state)
      (fun x hx => hks x (by simp at hx ⊢; tauto)) ⟨tl, by simp⟩ (by rw [hc, hoff]; exact r2.byte) (by rw [hc]; exact hrdy)
      r2.avails (by rw [hc]; exact fun x hx => hbad x (by simp [hx])) (by rw [hc]; exact r2.follows.replies)
    have hl : (rejected.map Prod.fst).append ([k] ++ tl) = List.map Prod.fst rejected ++ ([k] ++ tl) := rfl
    rw [List.append_assoc]
    rw [hl] at i1 i2 i3
    rw [hc] at i3
    refine ⟨i1, i2, ?_, i3.avails, ?_⟩
    · rw [hs, List.append_assoc]
      have hrf : Follows s r.state (candidateScript s.cfg b rdy c.1
        ++ failedWriteScript s.cfg (detDesc s.cfg) (detData s.cfg) c.2) _ := r2.follows
      exact hrf.trans i3.follows
    · have := i3.byte
      rwa [hc, hoff] at this

/-- One probe's round whose Write verifies and whose Read returns `back` (R145). -/
theorem refineRound_script {p : Byte} {s : State} {back : List Byte} {more : List Reply} {am : List Bool}
    (hav : s.avails = true :: am) (hback : back.length = Config.refLen)
    (h : s.replies = Script.answers (probeScript s.cfg p back) ++ more) :
    (refineRound p s).verdict = (if back = refPattern s.cfg p then .accepted else .rejected)
      ∧ (refineRound p s).state.probe = p ∧ (refineRound p s).state.avails = am
      ∧ Follows s (refineRound p s).state (probeScript s.cfg p back) more := by
  have hwl : (refPattern s.cfg p).length = (refWDesc s.cfg p).size.toNat := by rw [refWDesc_size]; simp [refPattern]
  simp only [refineRound]
  rw [probeScript, answers_append, List.append_assoc] at h
  obtain ⟨we, -, wa, -⟩ := dmaWriteProc_end (Seq.idle.enter .dtRefWrite) (refWDesc s.cfg p) (refPattern s.cfg p) (s.setProbe p)
    (refWDesc_valid _ _) hwl
  have hav' : (s.setProbe p).nextAvail = true := by simp [State.nextAvail, hav]
  obtain ⟨w1, w2, w3⟩ := dmaWriteProc_script (Seq.idle.enter .dtRefWrite) (d := refWDesc s.cfg p) (data := refPattern s.cfg p)
    (s := s.setProbe p) (more := Script.answers (readScript s.cfg (refRDesc s.cfg p) back) ++ more) (refWDesc_valid _ _) hwl
    hav' true [] (by simp) (by decide) h
  generalize dmaWriteProc (Seq.idle.enter .dtRefWrite) (refWDesc s.cfg p) (refPattern s.cfg p) (s.setProbe p) = w
    at we wa w1 w2 w3 ⊢
  rw [if_neg (by simp [w1])]
  have hw : Follows s w.state (writeScript s.cfg (refWDesc s.cfg p) (refPattern s.cfg p) []) _ := ⟨w3.history, w3.replies⟩
  have hwc : w.state.cfg = s.cfg := we.cfg
  have re := dmaReadProc_end (Seq.idle.enter .dtRefRead) (refRDesc s.cfg p) w.state (refRDesc_valid _ _)
  obtain ⟨r1, r2, r3⟩ := dmaReadProc_script (Seq.idle.enter .dtRefRead) (d := refRDesc s.cfg p) (data := back) (s := w.state)
    (more := more) (refRDesc_valid _ _) (by rw [refRDesc_size]; exact hback) (by rw [hwc]; exact w3.replies)
  generalize dmaReadProc (Seq.idle.enter .dtRefRead) (refRDesc s.cfg p) w.state = r at re r1 r2 r3 ⊢
  rw [if_neg (by simp [r1])]
  rw [hwc] at r3
  have hall : Follows s r.state (probeScript s.cfg p back) more := hw.trans r3
  have hp : r.state.probe = p := re.engine.probe.trans we.probe
  have ha : r.state.avails = am := re.held.avails.trans (wa.trans (by simp [hav]))
  rw [r2]
  split
  · exact ⟨rfl, hp, ha, hall.still rfl rfl⟩
  · exact ⟨rfl, hp, ha, hall.still rfl rfl⟩

/-- The refine phase in which the probes of `missed` miss and the next one, if there is one, matches (R145). -/
theorem detectRefine_script (missed : List (List Byte)) {ps : List Byte} (hlen : missed.length ≤ ps.length) {s : State}
    {more : List Reply} {am : List Bool}
    (hav : s.avails = List.replicate (min ps.length (missed.length + 1)) true ++ am)
    (hmiss : ∀ c ∈ ps.zip missed, c.2.length = Config.refLen ∧ c.2 ≠ refPattern s.cfg c.1)
    (h : s.replies = Script.answers ((ps.zip missed).flatMap (fun c => probeScript s.cfg c.1 c.2)
      ++ match ps[missed.length]? with
        | some p => probeScript s.cfg p (refPattern s.cfg p)
        | none => []) ++ more) :
    (∀ p, ps[missed.length]? = some p → (detectRefine ps s).verdict = .accepted ∧ (detectRefine ps s).state.probe = p)
      ∧ (ps[missed.length]? = none → (detectRefine ps s).verdict = .rejected)
      ∧ (detectRefine ps s).state.avails = am
      ∧ Follows s (detectRefine ps s).state ((ps.zip missed).flatMap (fun c => probeScript s.cfg c.1 c.2)
          ++ match ps[missed.length]? with
            | some p => probeScript s.cfg p (refPattern s.cfg p)
            | none => []) more := by
  induction missed generalizing ps s with
  | nil =>
    cases ps with
    | nil => exact ⟨by simp, fun _ => rfl, by simpa [detectRefine] using hav, ⟨by simp [detectRefine], by simpa [detectRefine, Script.answers] using h⟩⟩
    | cons p ps =>
      simp only [List.zip_nil_right, List.flatMap_nil, List.length_nil, List.getElem?_cons_zero, List.nil_append] at h ⊢
      obtain ⟨r1, r2, r3, r4⟩ := refineRound_script (s := s) (am := am) (by simpa using hav) (by simp [refPattern]) h
      rw [if_pos rfl] at r1
      simp only [detectRefine]
      generalize refineRound p s = r at r1 r2 r3 r4 ⊢
      rw [r1]
      exact ⟨fun q hq => ⟨r1, by rw [r2]; simpa using hq⟩, by simp, r3, r4⟩
  | cons back missed ih =>
    cases ps with
    | nil => simp at hlen
    | cons p ps =>
      obtain ⟨hb1, hb2⟩ := hmiss (p, back) (by simp)
      simp only [List.zip_cons_cons, List.flatMap_cons, List.length_cons, List.getElem?_cons_succ, List.append_assoc] at h hav hlen ⊢
      rw [answers_append, List.append_assoc] at h
      have hmin : min (ps.length + 1) (missed.length + 1 + 1) = min ps.length (missed.length + 1) + 1 := by omega
      rw [hmin, List.replicate_succ, List.cons_append] at hav
      have re := refineRound_end p s
      obtain ⟨r1, r2, r3, r4⟩ := refineRound_script (s := s) hav hb1 h
      rw [if_neg hb2] at r1
      simp only [detectRefine]
      generalize refineRound p s = r at re r1 r2 r3 r4 ⊢
      rw [r1]
      simp only
      have hc := re.detecting.cfg
      obtain ⟨i1, i2, i3, i4⟩ := ih (ps := ps) (by omega) (s := r.state) r3
        (by rw [hc]; exact fun c hx => hmiss c (by simp [hx])) (by rw [hc]; exact r4.replies)
      rw [hc] at i4
      exact ⟨i1, i2, i3, r4.trans i4⟩

/-- The finish, whose transaction succeeds (R146). -/
theorem detectFinish_script {cls : BitVec 3} (hc : cls ≤ maxCode) {u : State} {b : Byte} {more : List Reply}
    (hb : ∀ v, setField u.cfg.ramtypeMask.val v (u.riByte (ramOff u)) = setField u.cfg.ramtypeMask.val v b)
    (h : u.replies = okay :: more) :
    Follows u (detectFinish cls u) [(.regWrite .reg u.cfg.ramtypeAddr [setField u.cfg.ramtypeMask.val (cls.setWidth 8) b], okay)] more
      ∧ (detectFinish cls u).status = .ok ∧ (detectFinish cls u).res = cls.setWidth 32 ∧ (detectFinish cls u).cand = u.cand
      ∧ (detectFinish cls u).avails = u.avails
      ∧ getField u.cfg.ramtypeMask.val ((detectFinish cls u).riByte (ramOff u)) = cls.setWidth 8 := by
  unfold detectFinish
  have hr : ((u.goto (Seq.idle.enter .dtEncode)).setRamType cls).replies = okay :: more := by simpa [State.setRamType] using h
  have hh : ((u.goto (Seq.idle.enter .dtEncode)).setRamType cls).history = u.history := by simp [State.history, State.setRamType]
  have hcf : ((u.goto (Seq.idle.enter .dtEncode)).setRamType cls).cfg = u.cfg := by simp [State.setRamType]
  have hby : ((u.goto (Seq.idle.enter .dtEncode)).setRamType cls).riByte (ramOff u) = setField u.cfg.ramtypeMask.val (cls.setWidth 8) b := by
    have := riByte_setRamType (u.goto (Seq.idle.enter .dtEncode)) cls (ramOff u)
    rw [this]; exact (if_pos rfl).trans (hb _)
  obtain ⟨k1, k2, k3, k4⟩ := setRamType_held (u.goto (Seq.idle.enter .dtEncode)) cls
  generalize (u.goto (Seq.idle.enter .dtEncode)).setRamType cls = v at *
  have he := setTypeProc_end (Seq.idle.enter .dtFinal) cls v hc
  obtain ⟨f1, f2⟩ := setTypeProc_script (Seq.idle.enter .dtFinal) hc hr
  have hf := he.field
  have ho : ramOff v = ramOff u := by simp [ramOff, hcf]
  generalize setTypeProc (Seq.idle.enter .dtFinal) cls v = f at *
  rw [ho, hcf] at f2 hf
  rw [hby, setField_setField] at f2
  simp only
  rw [if_neg (by simp [f1])]
  exact ⟨⟨f2.history.trans (by rw [hh]), f2.replies⟩, rfl, rfl, he.cand.trans k3, he.held.avails.trans k1.avails, hf⟩

end Sys2Proof.Machine
end

