-- ==== Sys2Proof/Laws/Alike.lean ====
section
/-! SUPPORT. States that differ only in the response, in the sequencer's points and in the responses given: every operation
and every procedure does the same on both, from whatever point it is called. -/

namespace Sys2Proof.Machine

/-- The same block but for the response and the sequencer's points. -/
structure Alike (s t : State) : Prop where
  cfg : t.cfg = s.cfg
  image : SameImage s t
  dstate : t.dstate = s.dstate
  desc : t.desc = s.desc
  remain : t.remain = s.remain
  attempt : t.attempt = s.attempt
  polls : t.polls = s.polls
  cand : t.cand = s.cand
  probe : t.probe = s.probe
  scratch : t.scratch = s.scratch
  host : t.host = s.host
  replies : t.replies = s.replies
  avails : t.avails = s.avails
  history : t.history = s.history

namespace Alike

variable {s t : State}

theorem refl (s : State) : Alike s s :=
  ⟨rfl, fun _ => rfl, rfl, rfl, rfl, rfl, rfl, rfl, rfl, rfl, rfl, rfl, rfl, rfl⟩

theorem symm (h : Alike s t) : Alike t s :=
  ⟨h.cfg.symm, fun a => (h.image a).symm, h.dstate.symm, h.desc.symm, h.remain.symm, h.attempt.symm, h.polls.symm,
    h.cand.symm, h.probe.symm, h.scratch.symm, h.host.symm, h.replies.symm, h.avails.symm, h.history.symm⟩

theorem trans {u : State} (h : Alike s t) (k : Alike t u) : Alike s u :=
  ⟨k.cfg.trans h.cfg, fun a => (k.image a).trans (h.image a), k.dstate.trans h.dstate, k.desc.trans h.desc,
    k.remain.trans h.remain, k.attempt.trans h.attempt, k.polls.trans h.polls, k.cand.trans h.cand, k.probe.trans h.probe,
    k.scratch.trans h.scratch, k.host.trans h.host, k.replies.trans h.replies, k.avails.trans h.avails,
    k.history.trans h.history⟩

theorem effects (h : Alike s t) : SameEffects s t :=
  ⟨h.image, h.attempt, h.polls, h.cand, h.scratch, h.replies, h.avails, h.history, ⟨h.cfg, h.host⟩⟩

/-- `PROBE` is no part of the effects. -/
theorem effects_setProbe (h : Alike s t) (p : Byte) : SameEffects s (t.setProbe p) :=
  { h.effects with setting := ⟨h.cfg, h.host⟩ }

/-! ### The operations -/

theorem nextReply (h : Alike s t) (tx : Transaction) : t.nextReply tx = s.nextReply tx := by
  simp only [State.nextReply, h.replies, h.history]

theorem nextAvail (h : Alike s t) : t.nextAvail = s.nextAvail := by
  simp only [State.nextAvail, h.avails, h.history]

theorem exchange (h : Alike s t) (p q : Seq) (tx : Transaction) : Alike (s.exchange p tx) (t.exchange q tx) :=
  { h with
    replies := by simp [h.replies]
    history := by
      have := h.history
      have hr := h.nextReply tx
      simp only [State.history, exchange_trace, List.map_append, List.map_cons, List.map_nil, Event.exchange] at this ⊢
      rw [this, hr] }

theorem disarm (h : Alike s t) : Alike s.disarm t.disarm := { h with dstate := rfl, desc := rfl, remain := rfl }

theorem arm (h : Alike s t) (dir : Dir) (d : Desc) : Alike (s.arm dir d) (t.arm dir d) :=
  { h with dstate := rfl, desc := rfl, remain := rfl }

theorem moved (h : Alike s t) (m : Nat) : Alike (s.moved m) (t.moved m) :=
  { h with remain := by simp only [State.moved, h.remain] }

theorem settle (h : Alike s t) : Alike s.settle t.settle := by
  unfold State.settle
  rw [h.remain]
  split
  · exact { h with dstate := rfl, desc := rfl, remain := rfl }
  · exact h

theorem setPolls (h : Alike s t) (n : Word) : Alike (s.setPolls n) (t.setPolls n) := { h with polls := rfl }

theorem setAttempt (h : Alike s t) (n : Nat) : Alike (s.setAttempt n) (t.setAttempt n) := { h with attempt := rfl }

theorem setScratch (h : Alike s t) (b : Option (List Byte)) : Alike (s.setScratch b) (t.setScratch b) :=
  { h with scratch := rfl }

theorem setCand (h : Alike s t) (k : BitVec 3) : Alike (s.setCand k) (t.setCand k) := { h with cand := rfl }

theorem setProbe (h : Alike s t) (p : Byte) : Alike (s.setProbe p) (t.setProbe p) := { h with probe := rfl }

theorem sampleScratch (h : Alike s t) : Alike s.sampleScratch t.sampleScratch :=
  { h with
    avails := by simp [h.avails]
    scratch := by simp [h.nextAvail] }

theorem goto (h : Alike s t) (p q : Seq) : Alike (s.goto p) (t.goto q) := { h with }

theorem respond (h : Alike s t) (st st' : Status) (r r' : Word) (o o' : List Byte) :
    Alike (s.respond st r o) (t.respond st' r' o') := { h with }

/-- A sequencer's point on one side alone. -/
theorem goto_left (h : Alike s t) (p : Seq) : Alike (s.goto p) t := { h with }

/-- A response on one side alone. -/
theorem respond_right (h : Alike s t) (st : Status) (r : Word) (o : List Byte) : Alike s (t.respond st r o) := { h with }

theorem setRamType (h : Alike s t) (k : BitVec 3) : Alike (s.setRamType k) (t.setRamType k) := by
  have hi : SameImage (s.setRamType k) (t.setRamType k) := fun a => by
    have ho : ramOff t = ramOff s := by simp [ramOff, h.cfg]
    rw [riByte_setRamType, riByte_setRamType, ho, h.cfg, h.image, h.image]
  exact { h with image := hi }

/-- Setting the RAM-type field to a code twice on one side (R139, R146). -/
theorem setRamType_twice (h : Alike s t) (k : BitVec 3) :
    Alike ((s.setRamType k).setRamType k) (t.setRamType k) := by
  have hc : (s.setRamType k).cfg = s.cfg := by simp [State.setRamType]
  have ho : ramOff (s.setRamType k) = ramOff s := by simp [ramOff, hc]
  have hi : SameImage ((s.setRamType k).setRamType k) (s.setRamType k) := fun a => by
    rw [riByte_setRamType (s.setRamType k), ho, hc]
    split
    · subst a
      rw [riByte_setRamType, if_pos rfl, setField_setField]
    · rfl
  have h1 : Alike ((s.setRamType k).setRamType k) (s.setRamType k) := { refl (s.setRamType k) with image := hi }
  exact h1.trans (h.setRamType k)

/-- The push of the RAM-type byte, from whatever point (R139). -/
theorem push (h : Alike s t) (p q : Seq) :
    Alike (s.exchange p (pushTx s)) (t.exchange q (pushTx t))
      ∧ t.nextReply (pushTx t) = s.nextReply (pushTx s) := by
  have hp : pushTx t = pushTx s := by simp only [pushTx, h.cfg, h.image _]
  rw [hp]
  exact ⟨h.exchange _ _ _, h.nextReply _⟩

/-! ### The procedures -/

theorem resetProc (h : Alike s t) (p q : Seq) :
    Alike (Machine.resetProc p s).state (Machine.resetProc q t).state
      ∧ (Machine.resetProc q t).status = (Machine.resetProc p s).status :=
  ⟨(h.exchange _ _ _).disarm, congrArg Reply.status (h.nextReply _)⟩

theorem cancelProc (h : Alike s t) (p q : Seq) :
    Alike (Machine.cancelProc p s).state (Machine.cancelProc q t).state
      ∧ (Machine.cancelProc q t).status = (Machine.cancelProc p s).status :=
  ⟨(h.exchange _ _ _).disarm, congrArg Reply.status (h.nextReply _)⟩

theorem enableProc (h : Alike s t) (p q : Seq) (dir : Dir) (d : Desc) :
    Alike (Machine.enableProc p dir d s).state (Machine.enableProc q dir d t).state
      ∧ (Machine.enableProc q dir d t).status = (Machine.enableProc p dir d s).status := by
  unfold Machine.enableProc
  rw [h.dstate, h.nextReply]
  split
  · exact ⟨h, rfl⟩
  split
  · exact ⟨h, rfl⟩
  split
  · exact ⟨h.exchange _ _ _, rfl⟩
  · exact ⟨(h.exchange _ _ _).arm _ _, rfl⟩

theorem waitLoop (n : Nat) (h : Alike s t) (p q : Seq) :
    Alike (Machine.waitLoop p n s).state (Machine.waitLoop q n t).state
      ∧ (Machine.waitLoop q n t).status = (Machine.waitLoop p n s).status := by
  induction n generalizing s t with
  | zero => exact ⟨h, rfl⟩
  | succ n ih =>
    have h1 := (h.exchange (p.enter .wtPoll) (q.enter .wtPoll) (pollTx s.cfg)).setPolls (s.polls + 1)
    simp only [Machine.waitLoop, h.cfg, h.nextReply, h.polls]
    split
    · exact ⟨h1, rfl⟩
    split
    · exact ⟨h1, rfl⟩
    · exact ih h1

theorem waitReadyProc (h : Alike s t) (p q : Seq) (timeout : Word) :
    Alike (Machine.waitReadyProc p timeout s).state (Machine.waitReadyProc q timeout t).state
      ∧ (Machine.waitReadyProc q timeout t).status = (Machine.waitReadyProc p timeout s).status := by
  unfold Machine.waitReadyProc
  rw [h.cfg]
  exact waitLoop _ (h.setPolls 0) p q

theorem bulkOutLoop (n : Nat) (rest : List Byte) (m : Nat) (h : Alike s t) (p q : Seq) :
    Alike (Machine.bulkOutLoop p n rest m s).state (Machine.bulkOutLoop q n rest m t).state
      ∧ (Machine.bulkOutLoop q n rest m t).status = (Machine.bulkOutLoop p n rest m s).status
      ∧ (Machine.bulkOutLoop q n rest m t).moved = (Machine.bulkOutLoop p n rest m s).moved := by
  induction n generalizing s t rest m with
  | zero => exact ⟨h, rfl, rfl⟩
  | succ n ih =>
    have h1 := h.exchange (p.enter .bulk) (q.enter .bulk) (.bulkOut (rest.take s.cfg.maxXfer.val))
    simp only [Machine.bulkOutLoop, h.cfg, h.nextReply]
    split
    · exact ⟨h, rfl, rfl⟩
    split
    · exact ⟨h1.disarm, rfl, rfl⟩
    split
    · exact ⟨h1.moved _, rfl, rfl⟩
    · exact ih _ _ (h1.moved _)

theorem bulkOutProc (h : Alike s t) (p q : Seq) (data : List Byte) :
    Alike (Machine.bulkOutProc p data s).state (Machine.bulkOutProc q data t).state
      ∧ (Machine.bulkOutProc q data t).status = (Machine.bulkOutProc p data s).status
      ∧ (Machine.bulkOutProc q data t).moved = (Machine.bulkOutProc p data s).moved := by
  obtain ⟨h1, h2, h3⟩ := bulkOutLoop data.length data 0 h p q
  simp only [Machine.bulkOutProc, h2]
  split
  · exact ⟨h1.settle, rfl, h3⟩
  · exact ⟨h1, h2, h3⟩

theorem bulkInLoop (n left : Nat) (out : List Byte) (h : Alike s t) (p q : Seq) :
    Alike (Machine.bulkInLoop p n left out s).state (Machine.bulkInLoop q n left out t).state
      ∧ (Machine.bulkInLoop q n left out t).status = (Machine.bulkInLoop p n left out s).status
      ∧ (Machine.bulkInLoop q n left out t).out = (Machine.bulkInLoop p n left out s).out := by
  induction n generalizing s t left out with
  | zero => exact ⟨h, rfl, rfl⟩
  | succ n ih =>
    have h1 := h.exchange (p.enter .bulk) (q.enter .bulk) (.bulkIn (min s.cfg.maxXfer.val left))
    simp only [Machine.bulkInLoop, h.cfg, h.nextReply]
    split
    · exact ⟨h, rfl, rfl⟩
    split
    · exact ⟨h1.disarm, rfl, rfl⟩
    split
    · exact ⟨h1.moved _, rfl, rfl⟩
    · exact ih _ _ (h1.moved _)

theorem bulkInProc (h : Alike s t) (p q : Seq) (n : Nat) :
    Alike (Machine.bulkInProc p n s).state (Machine.bulkInProc q n t).state
      ∧ (Machine.bulkInProc q n t).status = (Machine.bulkInProc p n s).status
      ∧ (Machine.bulkInProc q n t).out = (Machine.bulkInProc p n s).out := by
  obtain ⟨h1, h2, h3⟩ := bulkInLoop n n [] h p q
  simp only [Machine.bulkInProc, h2]
  split
  · exact ⟨h1.settle, rfl, h3⟩
  · exact ⟨h1, h2, h3⟩

theorem dmaReadProc (h : Alike s t) (p q : Seq) (d : Desc) :
    Alike (Machine.dmaReadProc p d s).state (Machine.dmaReadProc q d t).state
      ∧ (Machine.dmaReadProc q d t).status = (Machine.dmaReadProc p d s).status
      ∧ (Machine.dmaReadProc q d t).out = (Machine.dmaReadProc p d s).out := by
  obtain ⟨a1, a2⟩ := h.resetProc (p.enter .rdReset) (q.enter .rdReset)
  obtain ⟨b1, b2⟩ := a1.enableProc (p.enter .rdEnable) (q.enter .rdEnable) .rd d
  obtain ⟨c1, c2, c3⟩ := b1.bulkInProc (p.enter .rdData) (q.enter .rdData) d.size.toNat
  simp only [Machine.dmaReadProc, a2, b2, c2, c3]
  split
  · exact ⟨h, rfl, rfl⟩
  split
  · exact ⟨a1, rfl, rfl⟩
  split
  · exact ⟨b1, rfl, rfl⟩
  split
  · exact ⟨c1.disarm, rfl, rfl⟩
  · exact ⟨c1, c2, c3⟩

theorem writeData (h : Alike s t) (p q : Seq) (d : Desc) (data : List Byte) :
    Alike (Machine.writeData p d data s).state (Machine.writeData q d data t).state
      ∧ (Machine.writeData q d data t).status = (Machine.writeData p d data s).status := by
  obtain ⟨a1, a2, a3⟩ := h.bulkOutProc (p.enter .wrData) (q.enter .wrData) data
  simp only [Machine.writeData, a2, a3]
  split
  · exact ⟨a1.disarm, rfl⟩
  · exact ⟨a1, rfl⟩

theorem writeAttempt (h : Alike s t) (p q : Seq) (d : Desc) (data : List Byte) :
    Alike (Machine.writeAttempt p d data s).state (Machine.writeAttempt q d data t).state
      ∧ (Machine.writeAttempt q d data t).result = (Machine.writeAttempt p d data s).result := by
  obtain ⟨a1, a2⟩ := (h.setAttempt (s.attempt + 1)).writeData p q d data
  obtain ⟨b1, b2⟩ := a1.enableProc (p.enter .wrVenable) (q.enter .wrVenable) .rd d
  obtain ⟨c1, c2, c3⟩ := b1.bulkInProc (p.enter .wrVdata) (q.enter .wrVdata) d.size.toNat
  simp only [Machine.writeAttempt, h.attempt, a2, b2, c2, c3]
  split
  · exact ⟨a1, rfl⟩
  split
  · exact ⟨b1, rfl⟩
  split
  · exact ⟨(c1.setScratch _).disarm, rfl⟩
  · simp only [goto_scratch, setScratch_scratch]
    generalize (Machine.bulkInProc (p.enter .wrVdata) d.size.toNat (Machine.enableProc (p.enter .wrVenable) .rd d
      (Machine.writeData p d data (s.setAttempt (s.attempt + 1))).state).state).out = o
    by_cases ho : some o = some data
    · simp only [ho, ↓reduceIte]; exact ⟨(c1.setScratch _).goto _ _, trivial⟩
    · simp only [ho, ↓reduceIte]; exact ⟨(c1.setScratch _).goto _ _, trivial⟩

theorem writeLoop (n : Nat) (h : Alike s t) (p q : Seq) (d : Desc) (data : List Byte) :
    Alike (Machine.writeLoop p d data n s).state (Machine.writeLoop q d data n t).state
      ∧ (Machine.writeLoop q d data n t).status = (Machine.writeLoop p d data n s).status := by
  induction n generalizing s t with
  | zero => exact ⟨h, rfl⟩
  | succ n ih =>
    obtain ⟨a1, a2⟩ := h.writeAttempt p q d data
    obtain ⟨c1, c2⟩ := a1.cancelProc (p.enter .wrCancel) (q.enter .wrCancel)
    obtain ⟨e1, e2⟩ := c1.enableProc (p.enter .wrReenable) (q.enter .wrReenable) .wr d
    simp only [Machine.writeLoop, a2, c2, c1.attempt, e2]
    split
    · exact ⟨a1, rfl⟩
    · exact ⟨a1, rfl⟩
    · split
      · exact ⟨c1, rfl⟩
      split
      · exact ⟨c1, rfl⟩
      split
      · exact ⟨e1, rfl⟩
      · exact ih e1

theorem dmaWriteProc (h : Alike s t) (p q : Seq) (d : Desc) (data : List Byte) :
    Alike (Machine.dmaWriteProc p d data s).state (Machine.dmaWriteProc q d data t).state
      ∧ (Machine.dmaWriteProc q d data t).status = (Machine.dmaWriteProc p d data s).status := by
  obtain ⟨a1, a2⟩ := (h.setAttempt 0).sampleScratch.resetProc (p.enter .wrReset) (q.enter .wrReset)
  obtain ⟨b1, b2⟩ := a1.enableProc (p.enter .wrEnable) (q.enter .wrEnable) .wr d
  obtain ⟨c1, c2⟩ := writeLoop Config.writeAttempts b1 p q d data
  obtain ⟨e1, e2⟩ := b1.writeData p q d data
  simp only [Machine.dmaWriteProc, Machine.writeBody, h.nextAvail, a2, b2]
  split
  · exact ⟨h, rfl⟩
  split
  · exact ⟨a1.setScratch _, rfl⟩
  split
  · exact ⟨b1.setScratch _, rfl⟩
  split
  · exact ⟨c1.setScratch _, c2⟩
  · exact ⟨e1.setScratch _, e2⟩

theorem setTypeProc (h : Alike s t) (p q : Seq) (k : BitVec 3) :
    Alike (Machine.setTypeProc p k s).state (Machine.setTypeProc q k t).state
      ∧ (Machine.setTypeProc q k t).status = (Machine.setTypeProc p k s).status := by
  obtain ⟨h1, h2⟩ := ((h.goto (p.enter .stField) (q.enter .stField)).setRamType k).push (p.enter .stPush) (q.enter .stPush)
  unfold Machine.setTypeProc
  split
  · exact ⟨h, rfl⟩
  · exact ⟨h1, congrArg Reply.status h2⟩

/-- SetType after the field has been set on one side already (R146). -/
theorem setTypeProc_encoded (h : Alike s t) (p q : Seq) {k : BitVec 3} (hk : k ≤ maxCode) :
    Alike (Machine.setTypeProc p k (s.setRamType k)).state (Machine.setTypeProc q k t).state
      ∧ (Machine.setTypeProc q k t).status = (Machine.setTypeProc p k (s.setRamType k)).status := by
  have h0 : Alike (((s.setRamType k).goto (p.enter .stField)).setRamType k) ((t.goto (q.enter .stField)).setRamType k) :=
    ((((refl (s.setRamType k)).goto_left _).setRamType k).trans (h.setRamType_twice k)).trans
      ((((refl t).goto_left _).setRamType k).symm)
  obtain ⟨h1, h2⟩ := h0.push (p.enter .stPush) (q.enter .stPush)
  unfold Machine.setTypeProc
  rw [if_neg (by bv_omega), if_neg (by bv_omega)]
  exact ⟨h1, congrArg Reply.status h2⟩

end Alike

/-! ### Commands, as what their procedures do -/

/-- A command that ends in a response does what its procedure does, and answers the status. -/
theorem after_settype {s t : State} (h : Alike s t) (p : Seq) (k : BitVec 3) :
    Alike (setTypeProc p k s).state (after (.settype k) t) ∧ (after (.settype k) t).status = (setTypeProc p k s).status := by
  obtain ⟨h1, h2⟩ := h.setTypeProc p .idle k
  exact ⟨h1.respond_right _ _ _, h2⟩

theorem after_dmawait {s t : State} (h : Alike s t) (p : Seq) (timeout : Word) :
    Alike (waitReadyProc p timeout s).state (after (.dmawait timeout) t)
      ∧ (after (.dmawait timeout) t).status = (waitReadyProc p timeout s).status := by
  obtain ⟨h1, h2⟩ := h.waitReadyProc p .idle timeout
  exact ⟨h1.respond_right _ _ _, h2⟩

theorem after_dmareset {s t : State} (h : Alike s t) (p : Seq) :
    Alike (resetProc p s).state (after .dmareset t) ∧ (after .dmareset t).status = (resetProc p s).status := by
  obtain ⟨h1, h2⟩ := h.resetProc p .idle
  exact ⟨h1.respond_right _ _ _, h2⟩

theorem after_dmawrite {s t : State} (h : Alike s t) (p : Seq) {d : Desc} (hd : d.valid = true) (data : List Byte) :
    Alike (dmaWriteProc p d data s).state (after (.dmawrite d.cls d.size d.options data) t)
      ∧ (after (.dmawrite d.cls d.size d.options data) t).status = (dmaWriteProc p d data s).status := by
  obtain ⟨h1, h2⟩ := h.dmaWriteProc p .idle d data
  have he : after (.dmawrite d.cls d.size d.options data) t
      = (dmaWriteProc .idle d data t).state.respond (dmaWriteProc .idle d data t).status
        (BitVec.ofNat 32 (dmaWriteProc .idle d data t).state.attempt) [] := by
    simp [after, exec, execDmawrite, hd]
  rw [he]
  exact ⟨h1.respond_right _ _ _, h2⟩

theorem after_dmaread {s t : State} (h : Alike s t) (p : Seq) (d : Desc) :
    Alike (dmaReadProc p d s).state (after (.dmaread d.cls d.size d.options) t)
      ∧ (after (.dmaread d.cls d.size d.options) t).status = (dmaReadProc p d s).status
      ∧ (after (.dmaread d.cls d.size d.options) t).dout = (dmaReadProc p d s).out := by
  obtain ⟨h1, h2, h3⟩ := h.dmaReadProc p .idle d
  exact ⟨h1.respond_right _ _ _, h2, h3⟩

/-! ### The rounds of DETECT, as commands -/

theorem whileOk_cons (i : Instr) (is : List Instr) (s : State) :
    whileOk (i :: is) s = if (after i s).status = .ok then whileOk is (after i s) else after i s := rfl

/-- A candidate's round is the round of commands (R142, R143). -/
theorem detectRound_host {s t : State} (h : Alike s t) (k : BitVec 3) :
    Alike (detectRound k s).state (hostCandidate k t).state
      ∧ (hostCandidate k t).verdict = (detectRound k s).verdict := by
  obtain ⟨a1, a2⟩ := after_settype (h.setCand k) (Seq.idle.enter .dtSettype) k
  obtain ⟨b1, b2⟩ := after_dmawait a1 (Seq.idle.enter .dtWait) s.cfg.detTimeout
  obtain ⟨c1, c2⟩ := after_dmareset b1 (Seq.idle.enter .dtReset)
  obtain ⟨w1, w2⟩ := after_dmawrite c1 (Seq.idle.enter .dtWrite) (detDesc_valid s.cfg) s.cfg.detPattern.toList
  obtain ⟨r1, r2, r3⟩ := after_dmaread w1 (Seq.idle.enter .dtRead) (detDesc s.cfg)
  simp only [hostCandidate, whileOk, h.cfg, detectRound, detData]
  generalize after (.settype k) (t.setCand k) = a' at *
  generalize setTypeProc (Seq.idle.enter .dtSettype) k (s.setCand k) = a at *
  generalize after (.dmawait s.cfg.detTimeout) a' = b' at *
  generalize waitReadyProc (Seq.idle.enter .dtWait) s.cfg.detTimeout a.state = b at *
  generalize after .dmareset b' = c' at *
  generalize resetProc (Seq.idle.enter .dtReset) b.state = c at *
  generalize after (.dmawrite (detDesc s.cfg).cls (detDesc s.cfg).size (detDesc s.cfg).options s.cfg.detPattern.toList) c' = w'
    at *
  generalize dmaWriteProc (Seq.idle.enter .dtWrite) (detDesc s.cfg) s.cfg.detPattern.toList c.state = w at *
  generalize after (.dmaread (detDesc s.cfg).cls (detDesc s.cfg).size (detDesc s.cfg).options) w' = r' at *
  generalize dmaReadProc (Seq.idle.enter .dtRead) (detDesc s.cfg) w.state = r at *
  rw [← a2, ← b2, ← c2, ← w2, ← r2, ← r3]
  by_cases ha : a'.status = .ok
  · by_cases hb : b'.status = .ok
    · by_cases hc : c'.status = .ok
      · by_cases hw : w'.status = .ok
        · by_cases hr : r'.status = .ok
          · by_cases hd : r'.dout = s.cfg.detPattern.toList
            · simpa [ha, hb, hc, hw, hr, hd] using r1.goto_left _
            · simp [ha, hb, hc, hw, hr, hd]
              exact r1.goto_left _
          · simpa [ha, hb, hc, hw, hr] using r1
        · simpa [ha, hb, hc, hw] using w1
      · simpa [ha, hb, hc] using c1
    · simpa [ha, hb] using b1
  · simpa [ha] using a1

/-- The coarse phase is the coarse phase of commands (R142). -/
theorem detectCoarse_host (ks : List (BitVec 3)) {s t : State} (h : Alike s t) :
    Alike (detectCoarse ks s).state (hostCoarse ks t).state
      ∧ (hostCoarse ks t).verdict = (detectCoarse ks s).verdict := by
  induction ks generalizing s t with
  | nil => exact ⟨h, rfl⟩
  | cons k ks ih =>
    obtain ⟨a1, a2⟩ := detectRound_host h k
    simp only [hostCoarse, detectCoarse, a2]
    cases hv : (detectRound k s).verdict with
    | rejected => exact ih a1
    | accepted => exact ⟨a1, a2⟩
    | aborted => exact ⟨a1, a2⟩

/-- A probe's round is the round of commands (R145). -/
theorem refineRound_host {s t : State} (h : Alike s t) (p : Byte) :
    Alike (refineRound p s).state (hostProbe p t).state
      ∧ (hostProbe p t).verdict = (refineRound p s).verdict := by
  obtain ⟨w1, w2⟩ := after_dmawrite (h.setProbe p) (Seq.idle.enter .dtRefWrite) 
    (valid_of_size size_toNat.2 (by decide) (by decide) : (refWDesc s.cfg p).valid = true) (refPattern s.cfg p)
  obtain ⟨r1, r2, r3⟩ := after_dmaread w1 (Seq.idle.enter .dtRefRead) (refRDesc s.cfg p)
  simp only [hostProbe, whileOk, h.cfg, refineRound]
  generalize after (.dmawrite (refWDesc s.cfg p).cls (refWDesc s.cfg p).size (refWDesc s.cfg p).options (refPattern s.cfg p))
    (t.setProbe p) = w' at *
  generalize dmaWriteProc (Seq.idle.enter .dtRefWrite) (refWDesc s.cfg p) (refPattern s.cfg p) (s.setProbe p) = w at *
  generalize after (.dmaread (refRDesc s.cfg p).cls (refRDesc s.cfg p).size (refRDesc s.cfg p).options) w' = r' at *
  generalize dmaReadProc (Seq.idle.enter .dtRefRead) (refRDesc s.cfg p) w.state = r at *
  rw [← w2, ← r2, ← r3]
  by_cases hw : w'.status = .ok
  · by_cases hr : r'.status = .ok
    · by_cases hd : r'.dout = refPattern s.cfg p
      · simpa [hw, hr, hd] using r1.goto_left _
      · simp [hw, hr, hd]
        exact r1.goto_left _
    · simpa [hw, hr] using r1
  · simpa [hw] using w1

/-- The refine phase is the refine phase of commands (R145). -/
theorem detectRefine_host (ps : List Byte) {s t : State} (h : Alike s t) :
    Alike (detectRefine ps s).state (hostRefine ps t).state
      ∧ (hostRefine ps t).verdict = (detectRefine ps s).verdict := by
  induction ps generalizing s t with
  | nil => exact ⟨h, rfl⟩
  | cons p ps ih =>
    obtain ⟨a1, a2⟩ := refineRound_host h p
    simp only [hostRefine, detectRefine, a2]
    cases hv : (refineRound p s).verdict with
    | rejected => exact ih a1
    | accepted => exact ⟨a1, a2⟩
    | aborted => exact ⟨a1, a2⟩

/-- The finish of DETECT is the SETTYPE of the class found (R146): it answers the class when that ends `OK`, and does what it
does. -/
theorem detectFinish_host {s t : State} (h : Alike s t) {cls : BitVec 3} (hc : cls ≤ maxCode) :
    (detectFinish cls (s.setProbe 0)).status = (after (.settype cls) t).status
      ∧ ((detectFinish cls (s.setProbe 0)).status = .ok → (detectFinish cls (s.setProbe 0)).res = cls.setWidth 32)
      ∧ SameEffects (after (.settype cls) t) (detectFinish cls (s.setProbe 0)) := by
  obtain ⟨h1, h2⟩ := ((h.goto_left (Seq.idle.enter .dtEncode)).setProbe 0).setTypeProc_encoded (Seq.idle.enter .dtFinal) .idle hc
  have hp : (setTypeProc .idle cls (t.setProbe 0)).status = (setTypeProc .idle cls t).status
      ∧ (setTypeProc .idle cls (t.setProbe 0)).state = (setTypeProc .idle cls t).state.setProbe 0 := by
    unfold setTypeProc
    rw [if_neg (by bv_omega), if_neg (by bv_omega)]
    exact ⟨rfl, rfl⟩
  rw [hp.1] at h2
  rw [hp.2] at h1
  change Alike (setTypeProc (Seq.idle.enter .dtFinal) cls (((s.setProbe 0).goto (Seq.idle.enter .dtEncode)).setRamType cls)).state _
    at h1
  change _ = (setTypeProc (Seq.idle.enter .dtFinal) cls (((s.setProbe 0).goto (Seq.idle.enter .dtEncode)).setRamType cls)).status
    at h2
  have hst : (after (.settype cls) t).status = (setTypeProc .idle cls t).status := rfl
  have hef : ∀ st r, SameEffects (after (.settype cls) t)
      ((setTypeProc (Seq.idle.enter .dtFinal) cls
        (((s.setProbe 0).goto (Seq.idle.enter .dtEncode)).setRamType cls)).state.respond st r []) := fun st r => by
    exact { h1.symm.effects with setting := ⟨h1.symm.cfg, h1.symm.host⟩ }
  unfold detectFinish
  simp only
  rw [hst, h2]
  split
  · rename_i hn
    have := setTypeProc_end (Seq.idle.enter .dtFinal) cls (((s.setProbe 0).goto (Seq.idle.enter .dtEncode)).setRamType cls) hc
    rcases this.status with ho | ho
    · exact absurd ho hn
    · exact ⟨by rw [ho]; rfl, fun hx => absurd hx (by simp), hef _ _⟩
  · rename_i hn
    exact ⟨(not_not.mp hn).symm, fun _ => rfl, hef _ _⟩

end Sys2Proof.Machine
end

