-- ==== Sys2Proof/Laws/Codec.lean ====
section
/-! SUPPORT. What a codec command can do, said once: outside the image it only answers; inside, its body changes the image
alone; and the bytes the loop of WBFSET leaves, in closed form. -/

namespace Sys2Proof.Machine

/-! ### Steps that change the image alone -/

/-- `t` is `s` but for the image. -/
def ImageOnly (s t : State) : Prop := t = { s with ri := t.ri }

theorem ImageOnly.refl (s : State) : ImageOnly s s := rfl

theorem ImageOnly.trans {s t u : State} (h : ImageOnly s t) (k : ImageOnly t u) : ImageOnly s u := by
  unfold ImageOnly at *
  rw [k, h]

theorem writeByte_imageOnly (s : State) (a : Nat) (b : Byte) : ImageOnly s (s.writeByte a b) := rfl

theorem memWrite_imageOnly (s : State) (a : Nat) (bs : List Byte) : ImageOnly s (s.memWrite a bs) := by
  induction bs generalizing s a with
  | nil => rfl
  | cons b rest ih => exact (writeByte_imageOnly s a b).trans (ih _ _)

theorem wideSet_imageOnly (a : Nat) (started : Bool) (d : Word) (ms : List Byte) (s : State) :
    ImageOnly s (wideSet a started d ms s) := by
  induction ms generalizing a started d s with
  | nil => rfl
  | cons m ms ih =>
    simp only [wideSet]
    split
    · exact ih _ _ _ _
    · exact (memWrite_imageOnly s a _).trans (ih _ _ _ _)

/-- The answer of a command whose steps changed the image alone (R90). -/
theorem ImageOnly.respond {s t : State} {p : Seq} (h : ImageOnly (s.goto p) t) (st : Status) (r : Word)
    (out : List Byte) : Answers s (t.respond st r out) st r out ∧ CodecFrame s (t.respond st r out) := by
  unfold ImageOnly at h
  rw [h]
  exact ⟨⟨rfl, rfl, rfl, rfl, rfl⟩, ⟨rfl, rfl, rfl⟩, ⟨rfl, rfl, rfl, rfl, rfl⟩, ⟨rfl, rfl, rfl⟩, ⟨rfl, rfl⟩⟩

/-- A byte of the answer's image is the byte before the answer. -/
theorem riByte_respond (s : State) (st : Status) (r : Word) (out : List Byte) (a : Nat) :
    (s.respond st r out).riByte a = s.riByte a := rfl

/-- A command that only answers (R165). -/
theorem respond_answersOnly (s : State) (st : Status) (r : Word) (out : List Byte) :
    AnswersOnly s (s.respond st r out) st r out :=
  ⟨⟨rfl, rfl, rfl, rfl, rfl⟩, fun _ => rfl, ⟨rfl, rfl, rfl⟩, ⟨rfl, rfl, rfl, rfl, rfl⟩, ⟨rfl, rfl, rfl⟩, ⟨rfl, rfl⟩⟩

/-- The bounds rule, as R43 writes it. -/
theorem inRange_iff (a n : Nat) (hn : 1 ≤ n) : inRange a n = true ↔ a + n - 1 ≤ 1817 := by
  simp only [inRange, Config.riSize, Bool.and_eq_true, decide_eq_true_eq]; omega

theorem codecCommand_in {off n : Nat} {s : State} (h : inRange off n = true) (body : State → State × Word) :
    codecCommand off n s body
      = (body (s.goto (Seq.idle.enter .codec))).1.respond .ok (body (s.goto (Seq.idle.enter .codec))).2 [] := by
  unfold codecCommand
  rw [if_pos h]

theorem codecCommand_out {off n : Nat} {s : State} (h : inRange off n = false) (body : State → State × Word) :
    codecCommand off n s body = s.respond .boundsFault 0 [] := by
  unfold codecCommand
  rw [if_neg (by simp [h])]
  rfl

/-! ### The span of a wide mask (R95) -/

/-- The byte counts an integer command can have are those of R5. -/
theorem byteCount_range (nm1 : BitVec 2) : Config.intNMin ≤ byteCount nm1 ∧ byteCount nm1 ≤ Config.intNMax := by
  revert nm1; decide

theorem span_le (mask : Word) : span mask ≤ 4 := by
  unfold span
  repeat' split
  all_goals omega

/-- The four bytes of a word make it up. -/
theorem word_bytes (w : Word) :
    w = w.extractLsb' 24 8 ++ w.extractLsb' 16 8 ++ w.extractLsb' 8 8 ++ w.extractLsb' 0 8 := by
  apply BitVec.eq_of_getLsbD_eq
  intro i hi
  simp only [BitVec.getLsbD_extractLsb', BitVec.getLsbD_append]
  repeat' split
  all_goals
    rw [decide_eq_true (by omega), Bool.true_and]
    congr 1; omega

theorem span_isSpan (mask : Word) : IsSpan mask (span mask) := by
  unfold IsSpan span
  have hw := word_bytes mask
  split_ifs with h3 h2 h1 h0
  · exact .inr ⟨by omega, by omega, h3, fun j _ _ => by omega⟩
  · refine .inr ⟨by omega, by omega, h2, fun j _ _ => ?_⟩
    interval_cases j; simpa using h3
  · refine .inr ⟨by omega, by omega, h1, fun j _ _ => ?_⟩
    interval_cases j
    · simpa using h2
    · simpa using h3
  · refine .inr ⟨by omega, by omega, h0, fun j _ _ => ?_⟩
    interval_cases j
    · simpa using h1
    · simpa using h2
    · simpa using h3
  · left
    simp only [ne_eq, not_not] at h0 h1 h2 h3
    rw [h0, h1, h2, h3] at hw
    exact ⟨hw, rfl⟩

/-- A non-zero mask byte lies inside the span. -/
theorem lt_span_of_ne (mask : Word) (j : Nat) (hj : j < 4) (h : mask.extractLsb' (8 * j) 8 ≠ 0) : j < span mask := by
  rcases span_isSpan mask with ⟨h0, _⟩ | ⟨_, _, _, h1⟩
  · exact absurd (by rw [h0]; apply BitVec.eq_of_getLsbD_eq; intro i hi; simp) h
  · by_contra hlt
    exact h (h1 j (by omega) hj)

/-- The mask bytes of the span, one by one. -/
theorem maskBytes_take_getElem? (mask : Word) (j : Nat) (h : j < span mask) :
    ((maskBytes mask).take (span mask))[j]? = some (mask.extractLsb' (8 * j) 8) := by
  have := span_le mask
  rw [List.getElem?_take_of_lt h]
  simp only [maskBytes, List.getElem?_map, List.getElem?_range (show j < 4 by omega), Option.map_some]

theorem length_maskBytes_take (mask : Word) : ((maskBytes mask).take (span mask)).length = span mask := by
  have := span_le mask
  simp [maskBytes]; omega

/-! ### The loop of WBFSET (R96) -/

/-- The loop touches the bytes of its mask bytes alone. -/
theorem wideSet_outside (a : Nat) (started : Bool) (d : Word) (ms : List Byte) (s : State) (x : Nat)
    (hx : x < a ∨ a + ms.length ≤ x) : (wideSet a started d ms s).riByte x = s.riByte x := by
  induction ms generalizing a started d s with
  | nil => rfl
  | cons m ms ih =>
    simp only [List.length_cons] at hx
    simp only [wideSet]
    split
    · exact ih _ _ _ _ (by omega)
    · rw [ih _ _ _ _ (by omega)]
      simp only [State.memWrite, riByte_writeByte]
      rw [if_neg (by omega)]

/-- Once started, every byte takes the next 8 value bits. -/
theorem wideSet_started (a : Nat) (d : Word) (ms : List Byte) (s : State) (j : Nat) (m : Byte) (hj : ms[j]? = some m) :
    (wideSet a true d ms s).riByte (a + j) = setField m ((d >>> (8 * j)).setWidth 8) (s.riByte (a + j)) := by
  induction ms generalizing a d s j with
  | nil => simp at hj
  | cons m' ms ih =>
    simp only [wideSet, Bool.true_eq_false, false_and, if_false, if_true]
    rcases j with _ | j
    · simp only [List.getElem?_cons_zero, Option.some.injEq] at hj
      subst hj
      rw [wideSet_outside _ _ _ _ _ _ (by omega)]
      simp [State.memWrite, riByte_writeByte]
    · simp only [List.getElem?_cons_succ] at hj
      have := ih (a + 1) (d >>> 8) (s.memWrite a [setField m' (d.setWidth 8) (s.riByte a)]) j hj
      have ha : a + 1 + j = a + (j + 1) := by omega
      rw [ha] at this
      rw [this, State.memWrite, State.memWrite, riByte_writeByte, if_neg (by omega)]
      have hs : 8 + 8 * j = 8 * (j + 1) := by omega
      rw [← BitVec.shiftRight_add, hs]

/-- The bytes before the first non-zero mask byte are skipped. -/
theorem wideSet_skipped (a : Nat) (d : Word) (ms : List Byte) (s : State) (first : Nat)
    (hz : ∀ i, i < first → ms[i]? = some 0) (j : Nat) (hj : j < first) :
    (wideSet a false d ms s).riByte (a + j) = s.riByte (a + j) := by
  induction ms generalizing a s first j with
  | nil => rfl
  | cons m' ms ih =>
    have h0 := hz 0 (by omega)
    simp only [List.getElem?_cons_zero, Option.some.injEq] at h0
    simp only [wideSet, h0, and_self, if_true]
    rcases j with _ | j
    · exact wideSet_outside _ _ _ _ _ _ (by omega)
    · have := ih (a + 1) s (first - 1) (fun i hi => by have := hz (i + 1) (by omega); simpa using this) j (by omega)
      have ha : a + 1 + j = a + (j + 1) := by omega
      rwa [ha] at this

/-- The first non-zero mask byte takes `8 - lsb` value bits, and each later byte 8. -/
theorem wideSet_first (a : Nat) (d : Word) (ms : List Byte) (s : State) (first : Nat) (m : Byte)
    (hz : ∀ i, i < first → ms[i]? = some 0) (hm : ms[first]? = some m) (h0 : m ≠ 0) :
    (wideSet a false d ms s).riByte (a + first) = setField m (d.setWidth 8) (s.riByte (a + first))
      ∧ ∀ j m', first < j → ms[j]? = some m' →
          (wideSet a false d ms s).riByte (a + j)
            = setField m' ((d >>> (8 - lsb m + 8 * (j - first - 1))).setWidth 8) (s.riByte (a + j)) := by
  induction ms generalizing a s first with
  | nil => simp at hm
  | cons m0 ms ih =>
    rcases first with _ | first
    · simp only [List.getElem?_cons_zero, Option.some.injEq] at hm
      subst hm
      simp only [wideSet, h0, and_false, if_false]
      constructor
      · rw [wideSet_outside _ _ _ _ _ _ (by omega)]
        simp [State.memWrite, riByte_writeByte]
      · intro j m' hj hm'
        obtain ⟨j, rfl⟩ : ∃ i, j = i + 1 := ⟨j - 1, by omega⟩
        simp only [List.getElem?_cons_succ] at hm'
        have := wideSet_started (a + 1) (d >>> (8 - lsb m0)) ms (s.memWrite a [setField m0 (d.setWidth 8) (s.riByte a)]) j m' hm'
        have ha : a + 1 + j = a + (j + 1) := by omega
        rw [ha] at this
        simp only [Bool.false_eq_true, if_false]
        rw [this, ← BitVec.shiftRight_add, State.memWrite, State.memWrite, riByte_writeByte, if_neg (by omega)]
        have : j + 1 - 0 - 1 = j := by omega
        rw [this]
    · have hz0 := hz 0 (by omega)
      simp only [List.getElem?_cons_zero, Option.some.injEq] at hz0
      simp only [wideSet, hz0, and_self, if_true]
      simp only [List.getElem?_cons_succ] at hm
      obtain ⟨h1, h2⟩ := ih (a + 1) s first (fun i hi => by have := hz (i + 1) (by omega); simpa using this) hm
      have ha : ∀ i, a + 1 + i = a + (i + 1) := fun i => by omega
      refine ⟨by rwa [ha] at h1, fun j m' hj hm' => ?_⟩
      obtain ⟨j, rfl⟩ : ∃ i, j = i + 1 := ⟨j - 1, by omega⟩
      simp only [List.getElem?_cons_succ] at hm'
      have := h2 j m' (by omega) hm'
      rw [ha] at this
      rw [this]
      have he : j + 1 - (first + 1) - 1 = j - first - 1 := by omega
      rw [he]

/-- The loop keeps the canonical form of the image. -/
theorem wideSet_wf (a : Nat) (started : Bool) (d : Word) (ms : List Byte) (s : State) (ha : a + ms.length ≤ Config.riSize)
    (h : Memory.wf s = true) : Memory.wf (wideSet a started d ms s) = true := by
  induction ms generalizing a started d s with
  | nil => exact h
  | cons m ms ih =>
    simp only [List.length_cons] at ha
    simp only [wideSet]
    split
    · exact ih _ _ _ _ (by omega) h
    · exact ih _ _ _ _ (by omega) (memWrite_wf _ _ (by simp only [List.length_singleton]; omega) h)

end Sys2Proof.Machine
end

