-- ==== Sys2Proof/Laws/Commands.lean ====
section
/-! SUPPORT. What a command can do, said once for all eighteen: the answer it gives, the transactions it adds, and what it
leaves in the image, the DMA registers and the working registers. -/

namespace Sys2Proof.Machine

/-- `DESC` and `REMAIN` fit `DSTATE` (R21 to R23, R112). -/
structure DmaFits (s : State) : Prop where
  unarmed : s.dstate = .idle → s.remain = 0 ∧ s.desc = Desc.zero
  armed : s.dstate ≠ .idle → s.desc.valid = true ∧ s.remain ≠ 0 ∧ s.remain ≤ s.desc.size

theorem Unarmed.fits {s : State} (h : Unarmed s) : DmaFits s :=
  ⟨fun _ => ⟨h.remain, h.desc⟩, fun h0 => absurd h.dstate h0⟩

theorem SameDma.fits {s t : State} (h : SameDma s t) (k : DmaFits s) : DmaFits t :=
  ⟨fun h0 => by rw [h.remain, h.desc]; exact k.unarmed (h.dstate.symm.trans h0),
    fun h0 => by rw [h.remain, h.desc]; exact k.armed fun h1 => h0 (h.dstate.trans h1)⟩

/-- What `DOUT` may be after a command (R77). -/
def DoutOf (i : Instr) (t : State) : Prop :=
  match i with
  | .bulkrd n => t.dout.length = t.res.toNat ∧ t.dout.length ≤ n.toNat
  | .dmaread _ size _ => t.dout.length = t.res.toNat ∧ t.dout.length ≤ size.toNat
  | .bfget _ _ | .bfset _ _ _ | .wbfset _ _ _ | .getle _ _ | .getbe _ _ | .setle _ _ _ | .setbe _ _ _ => t.dout = []
  | .dmareset | .dmaenrd _ _ _ | .dmaenwr _ _ _ | .dmacancel | .dmawait _ | .bulkwr _ _ | .dmawrite _ _ _ _ => t.dout = []
  | .settype _ | .detect => t.dout = []

/-- The working registers after a command (R24 to R26, R134). -/
structure WorkOf (op : Op) (s t : State) : Prop where
  attempt : op ∉ [Op.dmawrite, .detect] → t.attempt = s.attempt ∧ t.scratch = s.scratch ∧ t.avails = s.avails
  polls : op ∉ [Op.dmawait, .detect] → t.polls = s.polls
  detect : op ≠ .detect → t.cand = s.cand ∧ t.probe = s.probe
  attempt_le : s.attempt ≤ Config.writeAttempts → t.attempt ≤ Config.writeAttempts
  cand_le : s.cand ≤ maxCode → t.cand ≤ maxCode
  probe_zero : s.probe = 0 → t.probe = 0
  scratch_none : s.scratch = none → t.scratch = none

theorem SameWork.workOf {s t : State} (h : SameWork s t) (ha : t.avails = s.avails) (op : Op) : WorkOf op s t :=
  ⟨fun _ => ⟨h.attempt, h.scratch, ha⟩, fun _ => h.polls, fun _ => ⟨h.cand, h.probe⟩, fun k => by rw [h.attempt]; exact k,
    fun k => by rw [h.cand]; exact k, fun k => by rw [h.probe]; exact k, fun k => by rw [h.scratch]; exact k⟩

/-- What every command does. -/
structure Ran (i : Instr) (s t : State) : Prop where
  cfg : t.cfg = s.cfg
  host : t.host = s.host
  answers : Answers s t t.status t.res t.dout
  grown : ∃ added, t.trace = s.trace ++ added ∧ t.replies = s.replies.drop added.length
    ∧ added.length ≤ transactionBound s.cfg i ∧ (∀ e ∈ added, e.Proper s.cfg) ∧ Taken s added
  wf : Memory.wf s = true → Memory.wf t = true
  status : t.status ∈ answersOf i.op
  image : mayWriteImage i = false → t.ri = s.ri
  fault : t.status ∈ [Status.boundsFault, .badOperand, .sequenceFault] → AnswersOnly s t t.status 0 []
  dma : isCodec i = true ∨ i.op = .settype ∨ i.op = .dmawait → SameDma s t
  fits : DmaFits s → DmaFits t
  work : WorkOf i.op s t
  dout : DoutOf i t

theorem same_work (s : State) (st : Status) (r : Word) (out : List Byte) : SameWork s (s.respond st r out) :=
  ⟨rfl, rfl, rfl, rfl, rfl⟩

/-- A command that raises a status before it does anything (R165). -/
theorem ran_raise (i : Instr) (s : State) (st : Status) (h : st ∈ answersOf i.op) : Ran i s (s.respond st 0 []) := by
  refine ⟨rfl, rfl, ⟨rfl, rfl, rfl, rfl, rfl⟩, ⟨[], by simp⟩, id, h, fun _ => rfl,
    fun _ => respond_answersOnly _ _ _ _, fun _ => ⟨rfl, rfl, rfl⟩, SameDma.fits ⟨rfl, rfl, rfl⟩, (same_work s st 0 []).workOf rfl _, ?_⟩
  cases i <;> simp [DoutOf]

/-- A codec command (R90). -/
theorem ran_codec (i : Instr) (s : State) (off n : Nat) (body : State → State × Word) (hc : isCodec i = true)
    (hi : ∀ u, ImageOnly u (body u).1) (hg : mayWriteImage i = false → ∀ u, (body u).1.ri = u.ri)
    (hw : inRange off n = true → ∀ u, Memory.wf u = true → Memory.wf (body u).1 = true) :
    Ran i s (codecCommand off n s body) := by
  have hb : Status.ok ∈ answersOf i.op ∧ Status.boundsFault ∈ answersOf i.op := by
    cases i <;> simp [isCodec, Instr.op] at hc <;> simp [answersOf, Instr.op]
  by_cases h : inRange off n = true
  · rw [codecCommand_in h]
    obtain ⟨h1, h2⟩ := (hi (s.goto (Seq.idle.enter .codec))).respond (s := s) .ok (body (s.goto (Seq.idle.enter .codec))).2 []
    refine ⟨h2.setting.cfg, h2.setting.host, h1, ⟨[], by rw [h2.port.trace]; simp, by rw [h2.port.replies]; simp, by simp, by simp⟩, ?_,
      hb.1, fun hm => hg hm _, by simp, fun _ => h2.dma, h2.dma.fits, h2.work.workOf h2.port.avails _, ?_⟩
    · intro hwf
      exact hw h (s.goto _) hwf
    · cases i <;> simp [isCodec, Instr.op] at hc <;> simp [DoutOf]
  · rw [codecCommand_out (by simpa using h)]
    exact ran_raise i s _ hb.2

/-- A command of the engine that ends in one of its procedures. -/
theorem ran_engine (i : Instr) {n : Nat} {s u : State} (st : Status) (r : Word) (out : List Byte) (h : Engine n s u)
    (hn : n ≤ transactionBound s.cfg i) (hst : st ∈ answersOf i.op) (hok : st = .ok ∨ st = .transportFailure ∨ st = .timeout)
    (hd : i.op = .dmawait → SameDma s u) (hc : isCodec i = false) (hs : i.op ≠ .settype) (hf : DmaFits s → DmaFits u)
    (hw : WorkOf i.op s (u.respond st r out)) (ho : DoutOf i (u.respond st r out)) : Ran i s (u.respond st r out) := by
  obtain ⟨added, h1, h2, h3, h4⟩ := h.grown
  refine ⟨h.cfg, h.host, ⟨rfl, rfl, rfl, rfl, by simp [h.responses]⟩, ⟨added, h1, h2, by omega, h4⟩,
    wf_congr h.cfg h.ri, hst, fun _ => h.ri, ?_, ?_, fun k => SameDma.fits (s := u) ⟨rfl, rfl, rfl⟩ (hf k), hw, ho⟩
  · intro hx
    rcases hok with rfl | rfl | rfl <;> simp at hx
  · rintro (hx | hx | hx)
    · simp [hx] at hc
    · exact absurd hx hs
    · exact ⟨(hd hx).dstate, (hd hx).desc, (hd hx).remain⟩

theorem Held.workOf {n : Nat} {s u : State} (h : Held s u) (k : Engine n s u) (op : Op) (st : Status) (r : Word)
    (out : List Byte) : WorkOf op s (u.respond st r out) :=
  SameWork.workOf (t := u.respond st r out) ⟨h.attempt, h.polls, k.cand, k.probe, h.scratch⟩ h.avails op

/-! ### The primitives -/

theorem ran_dmareset (s : State) : Ran .dmareset s (resetProc .idle s).answer :=
  ran_engine _ _ _ _ (resetProc_engine .idle s) (Nat.le_refl _) (by rcases resetProc_status .idle s with h | h <;> rw [h] <;> decide)
    (by rcases resetProc_status .idle s with h | h <;> simp [h]) (by simp [Instr.op]) rfl (by simp [Instr.op])
    (fun _ => (resetProc_unarmed .idle s).fits) ((resetProc_held .idle s).workOf (resetProc_engine .idle s) _ _ _ _) rfl

theorem ran_dmacancel (s : State) : Ran .dmacancel s (cancelProc .idle s).answer :=
  ran_engine _ _ _ _ (cancelProc_engine .idle s) (Nat.le_refl _) (by rcases cancelProc_status .idle s with h | h <;> rw [h] <;> decide)
    (by rcases cancelProc_status .idle s with h | h <;> simp [h]) (by simp [Instr.op]) rfl (by simp [Instr.op])
    (fun _ => (cancelProc_unarmed .idle s).fits) ((cancelProc_held .idle s).workOf (cancelProc_engine .idle s) _ _ _ _) rfl

theorem fits_arm {s : State} {d : Desc} (h : s.dstate ≠ .idle) (hd : s.desc = d) (hr : s.remain = d.size) (hv : d.valid = true) :
    DmaFits s := by
  refine ⟨fun h0 => absurd h0 h, fun _ => ?_⟩
  rw [hd, hr]
  refine ⟨hv, ?_, BitVec.le_refl _⟩
  simp only [Desc.valid, Bool.and_eq_true, bne_iff_ne, ne_eq] at hv
  exact hv.1

theorem ran_enable (i : Instr) (dir : Dir) (d : Desc) (s : State) (hi : i.op = .dmaenrd ∨ i.op = .dmaenwr)
    (hb : transactionBound s.cfg i = 1) (ho : ∀ t : State, t.dout = [] → DoutOf i t) :
    Ran i s (enableProc .idle dir d s).answer := by
  have hm : ∀ st, st ∈ [Status.ok, .transportFailure, .badOperand, .sequenceFault] → st ∈ answersOf i.op := by
    intro st h
    rcases hi with h' | h' <;> rw [h'] <;> exact h
  have he := enableProc_engine .idle dir d s
  have hh := enableProc_held .idle dir d s
  by_cases hv : d.valid = true
  · by_cases hs : s.dstate = .idle
    · have hc := enableProc_cases .idle dir d s hv hs
      generalize enableProc .idle dir d s = e at he hh hc ⊢
      refine ran_engine i e.status 0 [] he (by omega) ?_ ?_ ?_ ?_ ?_ ?_ (hh.workOf he _ _ _ _) (ho _ rfl)
      · rcases hc with ⟨h, _⟩ | ⟨h, _⟩ <;> rw [h] <;> exact hm _ (by decide)
      · rcases hc with ⟨h, _⟩ | ⟨h, _⟩ <;> simp [h]
      · rcases hi with h | h <;> simp [h]
      · rcases hi with h | h <;> simp [isCodec, h]
      · rcases hi with h | h <;> simp [h]
      · intro hf
        rcases hc with ⟨_, h1, h2, h3⟩ | ⟨_, h⟩
        · exact fits_arm (by rw [h1]; cases dir <;> simp [Dir.armed]) h2 h3 hv
        · exact h.fits hf
    · have : (enableProc .idle dir d s).answer = s.respond .sequenceFault 0 [] := by
        unfold enableProc; rw [if_neg (by simp [hv]), if_pos hs]; rfl
      rw [this]
      exact ran_raise i s _ (hm _ (by decide))
  · have : (enableProc .idle dir d s).answer = s.respond .badOperand 0 [] := by
      unfold enableProc; rw [if_pos (by simpa using hv)]; rfl
    rw [this]
    exact ran_raise i s _ (hm _ (by decide))

theorem ran_dmawait (timeout : Word) (s : State) :
    Ran (.dmawait timeout) s ((waitReadyProc .idle timeout s).state.respond (waitReadyProc .idle timeout s).status
      (waitReadyProc .idle timeout s).state.polls []) := by
  have he := waitReadyProc_engine .idle timeout s
  obtain ⟨h1, h2, h3, h4⟩ := waitLoop_keeps .idle (pollBudget s.cfg timeout) (s.setPolls 0)
  have hst := waitLoop_status .idle (pollBudget s.cfg timeout) (s.setPolls 0)
  have hd : SameDma s (waitReadyProc .idle timeout s).state := ⟨h1.dstate, h1.desc, h1.remain⟩
  refine ran_engine _ _ _ _ he (Nat.le_refl _) ?_ ?_ (fun _ => hd) rfl (by simp [Instr.op]) hd.fits ?_ rfl
  · rcases hst with h | h | h <;> exact (congrArg (· ∈ _) h).mpr (by simp [answersOf, Instr.op])
  · rcases hst with h | h | h
    · exact .inl h
    · exact .inr (.inr h)
    · exact .inr (.inl h)
  · exact ⟨fun _ => ⟨h2, h3, h4⟩, by simp [Instr.op], fun _ => ⟨he.cand, he.probe⟩, fun k => (congrArg (· ≤ _) h2).mpr k,
      fun k => (congrArg (· ≤ _) he.cand).mpr k, fun k => (congrArg (· = _) he.probe).mpr k,
      fun k => (congrArg (· = _) h3).mpr k⟩

theorem BulkEnd.fits {s t : State} {st : Status} {moved n : Nat} (h : BulkEnd s t st moved n) (k : DmaFits s)
    (hs : s.dstate ≠ .idle) (hn : n ≤ s.remain.toNat) : DmaFits t := by
  rcases h.ends with ⟨_, h1, h2, h3⟩ | ⟨_, h1⟩
  · by_cases h0 : t.remain = 0
    · rw [if_pos h0] at h2 h3
      exact Unarmed.fits ⟨h2, h3, h0⟩
    · rw [if_neg h0] at h2 h3
      obtain ⟨k1, k2, k3⟩ := k.armed hs
      refine ⟨fun hd => absurd (h2.symm.trans hd) hs, fun _ => ⟨by rw [h3]; exact k1, h0, ?_⟩⟩
      rw [h3, h1]
      have hm := h.high
      have hlt := s.remain.isLt
      rw [BitVec.le_def, BitVec.toNat_sub_of_le (by rw [BitVec.le_def, BitVec.toNat_ofNat, Nat.mod_eq_of_lt (by omega)]; omega)]
      rw [BitVec.le_def] at k3
      omega
  · exact h1.fits

theorem ran_bulkrd (n : Word) (s : State) (t : State) (h : execBulkrd n s = .next t) : Ran (.bulkrd n) s t := by
  simp only [execBulkrd, Host.Outcome.next.injEq] at h
  subst h
  split
  · exact ran_raise _ _ _ (by simp [answersOf, Instr.op])
  · split
    · exact ran_raise _ _ _ (by simp [answersOf, Instr.op])
    · rename_i hn hs
      simp only [not_or, ne_eq, not_not, BitVec.not_lt] at hs
      have he := bulkInProc_engine .idle n.toNat s
      have hee := bulkInProc_end .idle n.toNat s
      generalize bulkInProc .idle n.toNat s = e at he hee ⊢
      have hlt := n.isLt
      have hh := hee.high
      refine ran_engine _ _ _ _ he (Nat.le_refl _) ?_ ?_ (by simp [Instr.op]) rfl (by simp [Instr.op]) ?_ (hee.held.workOf he _ _ _ _) ?_
      · rcases hee.status with h | h <;> simp [h, answersOf, Instr.op]
      · rcases hee.status with h | h <;> simp [h]
      · exact fun k => hee.fits k (by simp [hs.1]) hs.2
      · simp only [DoutOf, respond_dout, respond_res, BitVec.toNat_ofNat]
        exact ⟨(Nat.mod_eq_of_lt (by omega)).symm, hh⟩

theorem ran_bulkwr (n : Word) (payload : List Byte) (s t : State) (hp : payload.length = n.toNat)
    (h : execBulkwr n payload s = .next t) : Ran (.bulkwr n payload) s t := by
  simp only [execBulkwr, Host.Outcome.next.injEq] at h
  subst h
  split
  · exact ran_raise _ _ _ (by simp [answersOf, Instr.op])
  · split
    · exact ran_raise _ _ _ (by simp [answersOf, Instr.op])
    · rename_i hn hs
      simp only [not_or, ne_eq, not_not, BitVec.not_lt] at hs
      have he := bulkOutProc_engine .idle payload s
      have hee := bulkOutProc_end .idle payload s
      generalize bulkOutProc .idle payload s = e at he hee ⊢
      rw [hp] at he hee
      refine ran_engine _ _ _ _ he (Nat.le_refl _) ?_ ?_ (by simp [Instr.op]) rfl (by simp [Instr.op]) ?_ (hee.held.workOf he _ _ _ _) rfl
      · rcases hee.status with h | h <;> simp [h, answersOf, Instr.op]
      · rcases hee.status with h | h <;> simp [h]
      · exact fun k => hee.fits k (by simp [hs.1]) hs.2

/-! ### The composites -/

theorem ran_dmaread (cls : Half) (size options : Word) (s t : State) (h : execDmaread cls size options s = .next t) :
    Ran (.dmaread cls size options) s t := by
  simp only [execDmaread, Host.Outcome.next.injEq] at h
  subst h
  by_cases hv : (⟨cls, size, options⟩ : Desc).valid = true
  · have h := dmaReadProc_end .idle ⟨cls, size, options⟩ s hv
    generalize dmaReadProc .idle ⟨cls, size, options⟩ s = e at h ⊢
    have hlt := size.isLt
    have hh := h.high
    refine ran_engine _ _ _ _ h.engine (Nat.le_refl _) ?_ ?_ (by simp [Instr.op]) rfl (by simp [Instr.op]) (fun _ => h.unarmed.fits)
      (h.held.workOf h.engine _ _ _ _) ?_
    · rcases h.ends with ⟨h, _⟩ | h <;> simp [h, answersOf, Instr.op]
    · rcases h.ends with ⟨h, _⟩ | h <;> simp [h]
    · simp only [DoutOf, respond_dout, respond_res, BitVec.toNat_ofNat]
      exact ⟨(Nat.mod_eq_of_lt (by omega)).symm, hh⟩
  · have : dmaReadProc .idle ⟨cls, size, options⟩ s = ⟨s, .badOperand, []⟩ := by
      unfold dmaReadProc; rw [if_pos (by simpa using hv)]
    rw [this]
    exact ran_raise _ s .badOperand (by simp [answersOf, Instr.op])

theorem ran_dmawrite (cls : Half) (size options : Word) (payload : List Byte) (s t : State) (hp : payload.length = size.toNat)
    (h : execDmawrite cls size options payload s = .next t) : Ran (.dmawrite cls size options payload) s t := by
  simp only [execDmawrite, Host.Outcome.next.injEq] at h
  subst h
  split
  · exact ran_raise _ _ _ (by simp [answersOf, Instr.op])
  · rename_i hv
    obtain ⟨h1, h2, h3, h4, h5, h6, h7, h8⟩ := dmaWriteProc_end .idle ⟨cls, size, options⟩ payload s (by simpa using hv) hp
    generalize dmaWriteProc .idle ⟨cls, size, options⟩ payload s = e at h1 h2 h3 h4 h5 h6 h7 h8 ⊢
    refine ran_engine _ _ _ _ h1 (Nat.le_refl _) ?_ ?_ (by simp [Instr.op]) rfl (by simp [Instr.op]) (fun _ => h5.fits) ?_ rfl
    · rcases h6 with h | h <;> simp [h, answersOf, Instr.op]
    · rcases h6 with h | h <;> simp [h]
    · exact ⟨by simp [Instr.op], fun _ => h2, fun _ => ⟨h1.cand, h1.probe⟩, fun _ => h7, fun k => (congrArg (· ≤ _) h1.cand).mpr k,
        fun k => (congrArg (· = _) h1.probe).mpr k, fun _ => h4⟩

theorem ran_settype (code : BitVec 3) (s t : State) (h : execSettype code s = .next t) : Ran (.settype code) s t := by
  simp only [execSettype, Host.Outcome.next.injEq] at h
  subst h
  by_cases hc : code ≤ maxCode
  · have h := setTypeProc_end .idle code s hc
    have hst := h.status
    generalize setTypeProc .idle code s = e at h hst ⊢
    have hd : SameDma s e.answer := ⟨h.dma.dstate, h.dma.desc, h.dma.remain⟩
    obtain ⟨added, k1, k2, k3, k4⟩ := h.detecting.grown
    have hw : SameWork s e.answer := ⟨h.held.attempt, h.held.polls, h.cand, h.probe, h.held.scratch⟩
    refine ⟨h.detecting.cfg, h.detecting.host, ⟨rfl, rfl, rfl, rfl, ?_⟩, ⟨added, k1, k2, k3, k4⟩, h.detecting.wf, ?_,
      by simp [mayWriteImage, Instr.op], ?_, fun _ => hd, hd.fits, hw.workOf h.held.avails _, rfl⟩
    · simp [Done.answer, h.detecting.responses]
    · show e.status ∈ _
      rcases hst with h | h <;> simp [h, answersOf, Instr.op]
    · intro hx
      have hx : e.status ∈ [Status.boundsFault, .badOperand, .sequenceFault] := hx
      rcases hst with h | h <;> simp [h] at hx
  · have : (setTypeProc .idle code s).answer = s.respond .badOperand 0 [] := by
      unfold setTypeProc; rw [if_pos (by simpa using hc)]; rfl
    rw [this]
    exact ran_raise _ s _ (by simp [answersOf, Instr.op])

theorem ran_detect (s : State) : Ran .detect s (detect s) := by
  have h := detect_end s
  obtain ⟨st, r, out, ha⟩ := h.ending.answered
  have hst : (detect s).status = .ok ∨ (detect s).status = .initFatal ∨ (detect s).status = .transportFailure := by
    rcases h.outcome with h | h | h
    · exact .inl h.1
    · exact .inr (.inl h.1)
    · exact .inr (.inr h.1)
  refine ⟨h.ending.cfg, h.ending.host, ?_, h.ending.grown, h.ending.wf, ?_, by simp [mayWriteImage, Instr.op], ?_, ?_,
    fun _ => h.unarmed.fits, ⟨by simp [Instr.op], by simp [Instr.op], by simp [Instr.op], h.attempt, fun _ => h.cand, fun _ => h.probe, h.scratch⟩, h.dout⟩
  · rw [ha.status, ha.res, ha.dout]; exact ha
  · rcases hst with h | h | h <;> simp [h, answersOf, Instr.op]
  · intro hx
    rcases hst with h | h | h <;> simp [h] at hx
  · simp [isCodec, Instr.op]

/-! ### All of them -/

/-- Every well-formed command answers a next state, and does what `Ran` says. -/
theorem exec_ran (i : Instr) (s : State) (hi : WellFormed i) : ∃ t, exec i s = .next t ∧ Ran i s t := by
  have hp : i.payload.length = i.payloadLength := by simpa [WellFormed, Instr.wellFormed] using hi
  cases i
  case bfget off mask =>
    exact ⟨_, rfl, ran_codec _ s _ _ _ rfl (fun _ => rfl) (fun _ _ => rfl) fun _ _ h => h⟩
  case bfset off mask val =>
    exact ⟨_, rfl, ran_codec _ s _ _ _ rfl (fun _ => memWrite_imageOnly _ _ _) (by simp [mayWriteImage, Instr.op])
      fun h _ k => memWrite_wf _ _ (by simpa [inRange] using h) k⟩
  case wbfset off mask val =>
    refine ⟨_, rfl, ran_codec _ s _ _ _ rfl (fun _ => wideSet_imageOnly _ _ _ _ _) (by simp [mayWriteImage, Instr.op])
      fun h _ k => wideSet_wf _ _ _ _ _ ?_ k⟩
    rw [length_maskBytes_take]
    simp only [inRange, Bool.and_eq_true, decide_eq_true_eq] at h
    have := h.2
    unfold wideTouched at this
    omega
  case getle nm1 off =>
    exact ⟨_, rfl, ran_codec _ s _ _ _ rfl (fun _ => rfl) (fun _ _ => rfl) fun _ _ h => h⟩
  case getbe nm1 off =>
    exact ⟨_, rfl, ran_codec _ s _ _ _ rfl (fun _ => rfl) (fun _ _ => rfl) fun _ _ h => h⟩
  case setle nm1 off val =>
    refine ⟨_, rfl, ran_codec _ s _ _ _ rfl (fun _ => memWrite_imageOnly _ _ _) (by simp [mayWriteImage, Instr.op])
      fun h _ k => memWrite_wf _ _ ?_ k⟩
    rw [length_leBytes]
    simp only [inRange, Bool.and_eq_true, decide_eq_true_eq] at h
    exact h.2
  case setbe nm1 off val =>
    refine ⟨_, rfl, ran_codec _ s _ _ _ rfl (fun _ => memWrite_imageOnly _ _ _) (by simp [mayWriteImage, Instr.op])
      fun h _ k => memWrite_wf _ _ ?_ k⟩
    rw [length_beBytes]
    simp only [inRange, Bool.and_eq_true, decide_eq_true_eq] at h
    exact h.2
  case dmareset => exact ⟨_, rfl, ran_dmareset s⟩
  case dmaenrd cls size options =>
    exact ⟨_, rfl, ran_enable _ .rd ⟨cls, size, options⟩ s (.inl rfl) rfl fun _ h => h⟩
  case dmaenwr cls size options =>
    exact ⟨_, rfl, ran_enable _ .wr ⟨cls, size, options⟩ s (.inr rfl) rfl fun _ h => h⟩
  case dmacancel => exact ⟨_, rfl, ran_dmacancel s⟩
  case dmawait timeout => exact ⟨_, rfl, ran_dmawait timeout s⟩
  case bulkrd n => exact ⟨_, rfl, ran_bulkrd n s _ rfl⟩
  case bulkwr n payload => exact ⟨_, rfl, ran_bulkwr n payload s _ hp rfl⟩
  case dmaread cls size options => exact ⟨_, rfl, ran_dmaread cls size options s _ rfl⟩
  case dmawrite cls size options payload => exact ⟨_, rfl, ran_dmawrite cls size options payload s _ hp rfl⟩
  case settype code => exact ⟨_, rfl, ran_settype code s _ rfl⟩
  case detect => exact ⟨_, rfl, ran_detect s⟩

end Sys2Proof.Machine
end

