-- ==== Sys2Proof/Laws/Decode.lean ====
section
/-! SUPPORT. The small lemmas of the encoding: the header's fields and its bits are one thing, the opcode map is one to one,
and a command's fields set no fixed bit and spell the command. -/

namespace Sys2Proof

theorem Header.ofBits_bits (h : Header) : Header.ofBits h.bits = h := by
  obtain ⟨op, ax, ao, b, c⟩ := h
  simp only [Header.ofBits, Header.bits, Header.mk.injEq]
  refine ⟨?_, ?_, ?_, ?_, ?_⟩ <;>
  · apply BitVec.eq_of_getLsbD_eq
    intro i hi
    simp only [BitVec.getLsbD_extractLsb', BitVec.getLsbD_append, hi, decide_true, Bool.true_and]
    repeat' split
    all_goals first | omega | (congr 1; omega)

theorem Header.bits_ofBits (w : HeaderBits) : (Header.ofBits w).bits = w := by
  simp only [Header.ofBits, Header.bits]
  apply BitVec.eq_of_getLsbD_eq
  intro i hi
  have hi : i < 96 := hi
  simp only [BitVec.getLsbD_extractLsb', BitVec.getLsbD_append]
  repeat' split
  all_goals
    rw [decide_eq_true (by omega), Bool.true_and]
    congr 1; omega

theorem Header.bits_inj {a b : Header} (h : a.bits = b.bits) : a = b := by
  rw [← Header.ofBits_bits a, h, Header.ofBits_bits]

/-- Bits are masked field by field. -/
theorem Header.bits_and (a b : Header) :
    a.bits &&& b.bits
      = (⟨a.op &&& b.op, a.ax &&& b.ax, a.ao &&& b.ao, a.b &&& b.b, a.c &&& b.c⟩ : Header).bits := by
  simp only [Header.bits]
  show (a.op ++ a.ax ++ a.ao ++ a.b ++ a.c &&& b.op ++ b.ax ++ b.ao ++ b.b ++ b.c : BitVec (8 + 8 + 16 + 32 + 32)) = _
  simp only [BitVec.and_append]

/-- `OP` values name their operations (R72). -/
theorem Op.ofCode_code (op : Op) : Op.ofCode op.code = some op := by cases op <;> decide

theorem Op.code_of_ofCode {c : Byte} {op : Op} (h : Op.ofCode c = some op) : op.code = c := by
  have := List.find?_some h
  simpa using this

theorem Instr.fields_op (i : Instr) : i.fields.op = i.op.code := by cases i <;> rfl

/-- A command's fields set no fixed bit (R72). -/
theorem Instr.clear_fields (i : Instr) : Header.clear i.op.fixed i.fields = true := by
  have h8 : ∀ b : Byte, b.setWidth 32 &&& 0xFFFFFF00#32 = 0#32 := by decide +kernel
  have h2 : ∀ b : BitVec 2, b.setWidth 8 &&& 0xFC#8 = 0#8 := by decide
  have h3 : ∀ b : BitVec 3, b.setWidth 8 &&& 0xF8#8 = 0#8 := by decide
  cases i <;> simp [Instr.fields, Instr.op, Op.fixed, Header.clear, h8, h2, h3]

/-- A command's fields spell the command (R71, R73). -/
theorem Instr.build_fields (i : Instr) : i.op.build i.fields i.payload = i := by
  cases i <;> simp [Op.build, Instr.op, Instr.fields, Instr.payload]

/-- An operation's operand fields, with no fixed bit set, are the fields of the command they spell (R71 to R73). -/
theorem Op.fields_build (op : Op) (h : Header) (payload : List Byte) (ho : h.op = op.code)
    (hc : Header.clear op.fixed h = true) : (op.build h payload).fields = h := by
  have h8 : ∀ b : Word, b &&& 0xFFFFFF00#32 = 0#32 → (b.setWidth 8).setWidth 32 = b := by
    intro b hb
    apply BitVec.eq_of_getLsbD_eq
    intro i hi
    have := congrArg (fun x => x.getLsbD i) hb
    simp only [BitVec.getLsbD_and, BitVec.getLsbD_setWidth, BitVec.getLsbD_zero] at this ⊢
    interval_cases i <;> simp_all
  have h2 : ∀ b : Byte, b &&& 0xFC#8 = 0#8 → (b.setWidth 2).setWidth 8 = b := by decide +kernel
  have h3 : ∀ b : Byte, b &&& 0xF8#8 = 0#8 → (b.setWidth 3).setWidth 8 = b := by decide +kernel
  have hf : ∀ b : Byte, b &&& 0xFF#8 = b := by decide +kernel
  have hh : ∀ b : Half, b &&& 0xFFFF#16 = b := fun b => by
    rw [show (0xFFFF#16) = BitVec.allOnes 16 from rfl, BitVec.and_allOnes]
  have hw : ∀ b : Word, b &&& 0xFFFFFFFF#32 = b := fun b => by
    rw [show (0xFFFFFFFF#32) = BitVec.allOnes 32 from rfl, BitVec.and_allOnes]
  obtain ⟨o, ax, ao, b, c⟩ := h
  simp only at ho
  subst ho
  cases op <;> simp [Op.fixed, Header.clear, hf, hh, hw] at hc <;>
    simp [Op.build, Instr.fields, Instr.op, hc, h8, h2, h3]

theorem Op.op_build (op : Op) (h : Header) (payload : List Byte) : (op.build h payload).op = op := by
  cases op <;> rfl

/-- What decoding a header gives (R74). -/
theorem decodeHeader_instr {w : HeaderBits} {payload : List Byte} {i : Instr}
    (h : decodeHeader w payload = .instr i) :
    (Header.ofBits w).op = i.op.code ∧ Header.clear i.op.fixed (Header.ofBits w) = true
      ∧ i = i.op.build (Header.ofBits w) payload := by
  unfold decodeHeader at h
  simp only at h
  split at h
  · cases h
  · rename_i op ho
    split at h
    · rename_i hc
      cases h
      rw [Op.op_build]
      exact ⟨(Op.code_of_ofCode ho).symm, hc, rfl⟩
    · cases h

theorem decodeHeader_of {w : HeaderBits} (payload : List Byte) (op : Op) (ho : (Header.ofBits w).op = op.code)
    (hc : Header.clear op.fixed (Header.ofBits w) = true) :
    decodeHeader w payload = .instr (op.build (Header.ofBits w) payload) := by
  unfold decodeHeader
  simp only [ho, Op.ofCode_code, hc, if_true]

/-- The payload a header announces is the payload length of the command it spells (R76). -/
theorem payloadLength_fields (i : Instr) : payloadLength i.fields.bits = i.payloadLength := by
  unfold payloadLength
  rw [Header.ofBits_bits]
  cases i <;> simp [Instr.fields, Instr.op, Op.code, Instr.payloadLength]

end Sys2Proof
end

