-- ==== Sys2Proof/Laws/PerInstr.lean ====
section
/-! SUPPORT. One statement for every command, as one lemma per constructor: the command's encoding has the bits of its own
row of the opcode table, and announces the length of its payload (R72, R76). -/

namespace Sys2Proof

/-- The mask of an operation's row: `OP`, and the fixed bits of R72. -/
def Op.rowMask (op : Op) : Header := { op.fixed with op := 0xFF }

/-- The value under that mask: the `OP` of R72, and zeros. -/
def Op.rowValue (op : Op) : Header := ⟨op.code, 0, 0, 0, 0⟩

/-- The rows of the opcode table are the opcode map's. -/
theorem Op.row_mem (op : Op) : (op, op.rowMask.bits, op.rowValue.bits) ∈ Machine.opcodeRows := by cases op <;> decide

/-- A command's fields have the bits of its operation's row. -/
theorem Instr.fields_row (i : Instr) : i.fields.bits &&& i.op.rowMask.bits = i.op.rowValue.bits := by
  rw [Header.bits_and]
  have h := Instr.clear_fields i
  have ho := Instr.fields_op i
  have hf : i.op.fixed.op = 0 := by cases i <;> rfl
  simp only [Header.clear, hf, Bool.and_eq_true, beq_iff_eq] at h
  obtain ⟨⟨⟨⟨-, h1⟩, h2⟩, h3⟩, h4⟩ := h
  have hb : ∀ b : Byte, b &&& 255 = b := fun b => by
    rw [show (255 : Byte) = BitVec.allOnes 8 from rfl, BitVec.and_allOnes]
  simp only [Op.rowMask, Op.rowValue, h1, h2, h3, h4, ho]
  rw [hb]

end Sys2Proof

namespace Sys2Proof.Laws.Encoding

open Sys2Proof Sys2Proof.Machine

/-- The encoding of a command fits a row of the opcode table that is its own operation's, and the header announces exactly
the command's payload length. -/
def Statement (i : Instr) : Prop :=
  (∃ row ∈ opcodeRows, row.1 = i.op ∧ (encode i).header &&& row.2.1 = row.2.2)
    ∧ payloadLength (encode i).header = i.payloadLength

/-- What each of the lemmas below rests on. -/
theorem statement_of (i : Instr) : Statement i :=
  ⟨⟨_, i.op.row_mem, rfl, i.fields_row⟩, payloadLength_fields i⟩

theorem bfget (off : Half) (mask : Byte) : Statement (.bfget off mask) := statement_of _
theorem bfset (off : Half) (mask val : Byte) : Statement (.bfset off mask val) := statement_of _
theorem wbfset (off : Half) (mask val : Word) : Statement (.wbfset off mask val) := statement_of _
theorem getle (nm1 : BitVec 2) (off : Half) : Statement (.getle nm1 off) := statement_of _
theorem getbe (nm1 : BitVec 2) (off : Half) : Statement (.getbe nm1 off) := statement_of _
theorem setle (nm1 : BitVec 2) (off : Half) (val : Word) : Statement (.setle nm1 off val) := statement_of _
theorem setbe (nm1 : BitVec 2) (off : Half) (val : Word) : Statement (.setbe nm1 off val) := statement_of _
theorem dmareset : Statement .dmareset := statement_of _
theorem dmaenrd (cls : Half) (size options : Word) : Statement (.dmaenrd cls size options) := statement_of _
theorem dmaenwr (cls : Half) (size options : Word) : Statement (.dmaenwr cls size options) := statement_of _
theorem dmacancel : Statement .dmacancel := statement_of _
theorem dmawait (timeout : Word) : Statement (.dmawait timeout) := statement_of _
theorem bulkrd (n : Word) : Statement (.bulkrd n) := statement_of _
theorem bulkwr (n : Word) (payload : List Byte) : Statement (.bulkwr n payload) := statement_of _
theorem dmaread (cls : Half) (size options : Word) : Statement (.dmaread cls size options) := statement_of _
theorem dmawrite (cls : Half) (size options : Word) (payload : List Byte) : Statement (.dmawrite cls size options payload) :=
  statement_of _
theorem settype (code : BitVec 3) : Statement (.settype code) := statement_of _
theorem detect : Statement .detect := statement_of _

end Sys2Proof.Laws.Encoding
end

