-- ==== Sys2Proof/Laws/Port.lean ====
section
/-! SUPPORT. What a step can do, said once: the inputs it takes and what each leaves. -/

namespace Sys2Proof.Machine

/-- What decodes is well formed (R76). -/
theorem decode_wellFormed {c : Command} {i : Instr} (h : decode c = .instr i) : WellFormed i := by
  unfold decode at h
  split at h
  · rename_i hp
    obtain ⟨h1, h2, h3⟩ := decodeHeader_instr h
    have hb : i.fields.bits = c.header := by
      have := Op.fields_build i.op (Header.ofBits c.header) c.payload h1 h2
      rw [← h3] at this
      rw [this, Header.bits_ofBits]
    have hl : c.payload.length = i.payloadLength := by rw [hp, ← hb, payloadLength_fields]
    rw [h3] at hl ⊢
    generalize i.op = op at hl ⊢
    generalize Header.ofBits c.header = hh at hl ⊢
    generalize c.payload = q at hl ⊢
    clear h hp h1 h2 h3 hb
    cases op <;> simp [Op.build, Instr.payload, Instr.payloadLength, WellFormed, Instr.wellFormed] at hl ⊢ <;> exact hl
  · cases h

/-- What a command on the port does: it is refused, it runs, or its illegal header is answered (R74, R76). -/
theorem runCommand_cases (c : Command) (s : State) :
    (c.payload.length ≠ payloadLength c.header ∧ runCommand c s = .refused .payloadLength)
      ∨ (c.payload.length = payloadLength c.header
        ∧ ((∃ i t, decode c = .instr i ∧ WellFormed i ∧ runCommand c s = .next t ∧ exec i s = .next t ∧ Ran i s t)
          ∨ (∃ why, decode c = .illegal why ∧ runCommand c s = .next (s.respond .illegalCommand 0 [])))) := by
  by_cases hp : c.payload.length = payloadLength c.header
  · refine .inr ⟨hp, ?_⟩
    unfold runCommand
    cases hd : decode c with
    | instr i =>
      obtain ⟨t, h1, h2⟩ := exec_ran i s (decode_wellFormed hd)
      exact .inl ⟨i, t, rfl, decode_wellFormed hd, h1, h1, h2⟩
    | illegal why => exact .inr ⟨why, rfl, rfl⟩
    | notCommand =>
      unfold decode at hd
      rw [if_pos hp] at hd
      unfold decodeHeader at hd
      simp only at hd
      split at hd
      · cases hd
      · split at hd <;> cases hd
  · refine .inl ⟨hp, ?_⟩
    unfold runCommand decode
    rw [if_neg hp]

/-- A command that ends in a next state answers once, adds to the histories, and keeps the block's invariants. -/
structure Ended (s t : State) : Prop where
  cfg : t.cfg = s.cfg
  host : t.host = s.host
  answers : Answers s t t.status t.res t.dout
  grown : ∃ added, t.trace = s.trace ++ added ∧ t.replies = s.replies.drop added.length
  wf : Memory.wf s = true → Memory.wf t = true
  answered : t.status.answered = true
  fault : t.status ∈ [Status.boundsFault, .badOperand, .sequenceFault, .illegalCommand] → AnswersOnly s t t.status 0 []
  fits : DmaFits s → DmaFits t
  attempt : s.attempt ≤ Config.writeAttempts → t.attempt ≤ Config.writeAttempts
  cand : s.cand ≤ maxCode → t.cand ≤ maxCode
  probe : s.probe = 0 → t.probe = 0
  scratch : s.scratch = none → t.scratch = none
  dout : t.dout = [] ∨ t.dout.length = t.res.toNat

theorem Ran.ended {i : Instr} {s t : State} (h : Ran i s t) : Ended s t := by
  obtain ⟨added, g1, g2, -, -⟩ := h.grown
  refine ⟨h.cfg, h.host, h.answers, ⟨added, g1, g2⟩, h.wf, ?_, ?_, h.fits, h.work.attempt_le, h.work.cand_le,
    h.work.probe_zero, h.work.scratch_none, ?_⟩
  · have hs := h.status
    revert hs
    generalize t.status = st
    cases i.op <;> cases st <;> decide
  · intro hx
    apply h.fault
    have hs := h.status
    revert hs hx
    generalize t.status = st
    cases i.op <;> cases st <;> decide
  · have := h.dout
    cases i <;> simp only [DoutOf] at this
    all_goals first | exact .inl this | exact .inr this.1

theorem runCommand_ended {c : Command} {s t : State} (h : runCommand c s = .next t) : Ended s t := by
  rcases runCommand_cases c s with ⟨_, h1⟩ | ⟨_, ⟨i, u, _, _, h1, _, h2⟩ | ⟨why, _, h1⟩⟩
  · rw [h1] at h; cases h
  · rw [h1] at h; cases h; exact h2.ended
  · rw [h1] at h; cases h
    exact ⟨rfl, rfl, ⟨rfl, rfl, rfl, rfl, rfl⟩, ⟨[], by simp⟩, id, rfl, fun _ => respond_answersOnly _ _ _ _,
      fun k => SameDma.fits (s := s) ⟨rfl, rfl, rfl⟩ k, id, id, id, id, .inl rfl⟩

/-- The block right after a reset, whatever stands at its ports (R32, R190). -/
theorem afterReset_inv (cfg : Config.Cfg) (host : List HostInput) (replies : List Reply) (avails : List Bool)
    (trace : List Event) (responses : List Response) :
    (State.afterReset cfg host replies avails trace responses).Inv :=
  ⟨rfl, rfl, fun _ => ⟨rfl, rfl⟩, fun h => absurd rfl h, Nat.zero_le _, (by decide : (0 : BitVec 3) ≤ maxCode), rfl, rfl, rfl, .inl rfl⟩

/-- The image a reset brings (R32, R192). -/
theorem afterReset_riByte (cfg : Config.Cfg) (host : List HostInput) (replies : List Reply) (avails : List Bool)
    (trace : List Event) (responses : List Response) (a : Nat) (h : a < Config.riSize) :
    (State.afterReset cfg host replies avails trace responses).riByte a = cfg.riInit[a] := by
  simp [State.riByte, State.afterReset, Cells.find, initByte, h]

/-- What a step does with each input (R19, R177, R178, R190). -/
theorem step_cases {s t : State} (h : step s = .next t) :
    s.seq = .idle
      ∧ ((s.host = [] ∧ t = s)
        ∨ (∃ c rest, s.host = .command c :: rest ∧ runCommand c s.takeInput = .next t)
        ∨ (∃ image rest, s.host = .reset image :: rest ∧ t = s.takeInput.blockReset image)
        ∨ (∃ c n image rest u, s.host = .resetDuring c n image :: rest ∧ runCommand c s.takeInput = .next u
            ∧ t = cutOff n image s.takeInput u)) := by
  unfold step at h
  split at h
  · rename_i hs
    refine ⟨hs, ?_⟩
    unfold advance at h
    cases hh : s.host with
    | nil => rw [hh] at h; cases h; exact .inl ⟨rfl, rfl⟩
    | cons input rest =>
      rw [hh] at h
      cases input with
      | command c => exact .inr (.inl ⟨c, rest, rfl, h⟩)
      | reset image => simp only [accept] at h; cases h; exact .inr (.inr (.inl ⟨image, rest, rfl, rfl⟩))
      | resetDuring c n image =>
        simp only [accept] at h
        cases hr : runCommand c s.takeInput with
        | next u => rw [hr] at h; cases h; exact .inr (.inr (.inr ⟨c, n, image, rest, u, rfl, hr, rfl⟩))
        | fault r => rw [hr] at h; cases h
        | refused r => rw [hr] at h; cases h
  · cases h

end Sys2Proof.Machine
end

