-- ==== Sys2Proof/Machine/Wire.lean ====
section
/-! DEFINITION. The wire form of a control-pipe transaction, as far as rule R58 (20_memory.md) settles it. It is an
observation: no rule of the block depends on it (notes/assumptions/21.md). -/

namespace Sys2Proof.Machine

/-- A vendor-specific control transfer (R58). A part the source does not settle is none. -/
structure ControlTransfer where
  requestType : Byte
  requestCode : Byte
  wValue : Option Half
  wIndex : Option Half
  payload : Option (List Byte)
deriving DecidableEq, Repr

/-- The mode selector of a register access: of the two EEPROM selectors the source does not say which phase takes which
(R57, R58). -/
def Space.wIndex (cfg : Config.Cfg) : Space → Option Half
  | .reg => some cfg.idxReg
  | .eeprom => none

/-- The mode selector of a dma-enable (R58). -/
def Dir.wIndex (cfg : Config.Cfg) : Dir → Half
  | .rd => cfg.idxDmaEnrd
  | .wr => cfg.idxDmaEnwr

/-- The control transfer of a transaction (R53, R54, R58), none for a bulk transfer, which is not on the control pipe. How
a byte travels in a payload (90_conflicts.md C6) and what `wValue` is for the DMA opcodes are not settled. -/
def Transaction.wire (cfg : Config.Cfg) : Transaction → Option ControlTransfer
  | .regRead space addr _ => some ⟨Config.reqtypeRead, cfg.reqCode, some addr, space.wIndex cfg, none⟩
  | .regWrite space addr _ => some ⟨Config.reqtypeWrite, cfg.reqCode, some addr, space.wIndex cfg, none⟩
  | .dmaReset => some ⟨Config.reqtypeWrite, cfg.reqCode, none, some cfg.idxDmaReset, none⟩
  | .dmaCancel => some ⟨Config.reqtypeWrite, cfg.reqCode, none, some cfg.idxDmaCancel, none⟩
  | .dmaEnable dir cls words options =>
    some ⟨Config.reqtypeWrite, cfg.reqCode, none, some (dir.wIndex cfg),
      some (enablePayload cfg cls words options).toList⟩
  | .bulkOut _ => none
  | .bulkIn _ => none

end Sys2Proof.Machine
end

