-- ==== Sys2Proof/Laws/Wire.lean ====
section
/-! SUPPORT. `ENABLE_PAYLOAD` as a table (R7): every function is a table's on any finite set of arguments, and the wire form
of a dma-enable carries what the table says. -/

namespace Sys2Proof.Machine

/-- The table of a function over some arguments. -/
def payloadTable (f : Half → Nat → Word → Vector Byte Config.payloadLen) (args : List (Half × Nat × Word)) :
    Config.PayloadTable :=
  ⟨args.map fun a => ⟨a.1, a.2.1, a.2.2, f a.1 a.2.1 a.2.2⟩, default⟩

theorem enablePayload_table (cfg : Config.Cfg) (f : Half → Nat → Word → Vector Byte Config.payloadLen)
    (args : List (Half × Nat × Word)) (h : cfg.enablePayload = payloadTable f args) {cls : Half} {words : Nat}
    {options : Word} (hm : (cls, words, options) ∈ args) : enablePayload cfg cls words options = f cls words options := by
  unfold enablePayload
  rw [h]
  simp only [payloadTable]
  clear h
  induction args with
  | nil => cases hm
  | cons a args ih =>
    by_cases ha : a = (cls, words, options)
    · subst ha; simp
    · have hf : (a.1 == cls && a.2.1 == words && a.2.2 == options) = false := by
        rw [Bool.eq_false_iff]
        intro hx
        simp only [Bool.and_eq_true, beq_iff_eq] at hx
        exact ha (by rw [← hx.1.1, ← hx.1.2, ← hx.2])
      simp only [List.map_cons, List.find?_cons, hf]
      exact ih ((List.mem_cons.mp hm).resolve_left fun e => ha e.symm)

theorem wire_dmaEnable (cfg : Config.Cfg) (dir : Dir) (cls : Half) (words : Nat) (options : Word) :
    ((Transaction.dmaEnable dir cls words options).wire cfg).map (fun w => (w.wIndex, w.payload))
      = some (some (dir.wIndex cfg), some (enablePayload cfg cls words options).toList) := rfl

end Sys2Proof.Machine
end

