-- ==== Sys2Proof/Machine/Asm.lean ====
section
/-! DEFINITION. The written forms of a command: the 24 hexadecimal digits of a header (R78) and the assembler line (R79) of
30_encoding.md. -/

namespace Sys2Proof.Machine

/-- A hexadecimal digit. -/
def hexDigit (n : Nat) : Char :=
  ['0', '1', '2', '3', '4', '5', '6', '7', '8', '9', 'A', 'B', 'C', 'D', 'E', 'F'].getD n '0'

/-- The 24 digits of a header, most significant first (R78). -/
def headerDigits (w : HeaderBits) : List Char :=
  (List.range 24).reverse.map fun i => hexDigit (w.extractLsb' (4 * i) 4).toNat

/-- The digits as text. -/
def renderHeader (w : HeaderBits) : String := String.ofList (headerDigits w)

/-- The mnemonic of an operation (R72). -/
def mnemonic : Op → String
  | .bfget => "BFGET"
  | .bfset => "BFSET"
  | .wbfset => "WBFSET"
  | .getle => "GETLE"
  | .getbe => "GETBE"
  | .setle => "SETLE"
  | .setbe => "SETBE"
  | .dmareset => "DMARESET"
  | .dmaenrd => "DMAENRD"
  | .dmaenwr => "DMAENWR"
  | .dmacancel => "DMACANCEL"
  | .dmawait => "DMAWAIT"
  | .bulkrd => "BULKRD"
  | .bulkwr => "BULKWR"
  | .dmaread => "DMAREAD"
  | .dmawrite => "DMAWRITE"
  | .settype => "SETTYPE"
  | .detect => "DETECT"

/-- A payload as a bracketed byte list (R79). -/
def renderPayload (bs : List Byte) : String :=
  "[" ++ String.intercalate ", " (bs.map fun b => toString b.toNat) ++ "]"

/-- The operands of a command in the order of its assembler line (R79); a byte count is `N`, not the field of the header. -/
def renderOperands : Instr → List String
  | .bfget off mask => [toString off.toNat, toString mask.toNat]
  | .bfset off mask val => [toString off.toNat, toString mask.toNat, toString val.toNat]
  | .wbfset off mask val => [toString off.toNat, toString mask.toNat, toString val.toNat]
  | .getle nm1 off | .getbe nm1 off => [toString off.toNat, toString (byteCount nm1)]
  | .setle nm1 off val | .setbe nm1 off val => [toString off.toNat, toString (byteCount nm1), toString val.toNat]
  | .dmareset | .dmacancel | .detect => []
  | .dmaenrd cls size options | .dmaenwr cls size options | .dmaread cls size options =>
    [toString cls.toNat, toString size.toNat, toString options.toNat]
  | .dmawait timeout => [toString timeout.toNat]
  | .bulkrd n => [toString n.toNat]
  | .bulkwr n payload => [toString n.toNat, renderPayload payload]
  | .dmawrite cls size options payload =>
    [toString cls.toNat, toString size.toNat, toString options.toNat, renderPayload payload]
  | .settype code => [toString code.toNat]

/-- The assembler line of a command (R79). -/
def renderAsm (i : Instr) : String :=
  mnemonic i.op ++ " " ++ String.intercalate ", " (renderOperands i)

end Sys2Proof.Machine
end

