-- ==== Sys2Proof/Tests/Slice0.lean ====
section
/-! SUPPORT. The model's own tests, and a witness for the hypotheses of every statement that has some. Every
expected value is taken from 95_test_vectors.md or from the worked examples of the rules. The configuration is `CFG_TEST`
of its section 0, whose values are test values only. -/

namespace Sys2Proof.Tests

open Sys2Proof Sys2Proof.Machine

-- One test after the other: the tests the kernel evaluates would each hold a thread until all the lemmas are checked.
set_option Elab.async false

/-! ### Well-formedness: a term each check refuses (R76) -/

theorem test_wellFormed_bulkwr_short : Instr.wellFormed (.bulkwr 2 [0x01]) = false := by decide
theorem test_wellFormed_dmawrite_long : Instr.wellFormed (.dmawrite 4 2 0 [1, 2, 3]) = false := by decide
theorem test_wellFormed_bulkwr : Instr.wellFormed (.bulkwr 2 [0x01, 0x02]) = true := by decide

/-! ### Decoding: one word per command, from the opcode map (R72) and the vectors' headers -/

/-- What a header decodes to with a payload of zero bytes of its own length. -/
def decoded (w : Nat) : Option Instr := decodeTableWord 96 w

theorem test_decode_bfget : decoded 0x010000100000003800000000 = some (.bfget 0x10 0x38) := by decide
theorem test_decode_bfset : decoded 0x020000100000003800000005 = some (.bfset 0x10 0x38 5) := by decide
theorem test_decode_wbfset : decoded 0x0300010000FFFFF0000ABCDE = some (.wbfset 0x100 0x00FFFFF0 0xABCDE) := by decide
theorem test_decode_getle : decoded 0x040100200000000000000000 = some (.getle 1 0x20) := by decide
theorem test_decode_getbe : decoded 0x050300200000000000000000 = some (.getbe 3 0x20) := by decide
theorem test_decode_setle : decoded 0x060300200000000011223344 = some (.setle 3 0x20 0x11223344) := by decide
theorem test_decode_setbe : decoded 0x0702002000000000AABBCCDD = some (.setbe 2 0x20 0xAABBCCDD) := by decide
theorem test_decode_dmareset : decoded 0x100000000000000000000000 = some .dmareset := by decide
theorem test_decode_dmaenrd : decoded 0x110000040000002000000102 = some (.dmaenrd 4 32 0x102) := by decide
theorem test_decode_dmaenwr : decoded 0x120000040000081800000102 = some (.dmaenwr 4 2072 0x102) := by decide
theorem test_decode_dmacancel : decoded 0x130000000000000000000000 = some .dmacancel := by decide
theorem test_decode_dmawait : decoded 0x14000000000005DC00000000 = some (.dmawait 1500) := by decide
theorem test_decode_bulkrd : decoded 0x150000000000002000000000 = some (.bulkrd 32) := by decide
theorem test_decode_bulkwr :
    decode ⟨0x160000000000000400000000, [0xDE, 0xAD, 0xBE, 0xEF]⟩ = .instr (.bulkwr 4 [0xDE, 0xAD, 0xBE, 0xEF]) := by
  decide
theorem test_decode_dmaread : decoded 0x180000040000002000000102 = some (.dmaread 4 32 0x102) := by decide
theorem test_decode_dmawrite :
    decode ⟨0x190000040000000200000102, [0xA0, 0xA1]⟩ = .instr (.dmawrite 4 2 0x102 [0xA0, 0xA1]) := by decide
theorem test_decode_settype : decoded 0x1A0300000000000000000000 = some (.settype 3) := by decide
theorem test_decode_detect : decoded 0x1B0000000000000000000000 = some .detect := by decide

/-- Section 2.5: unassigned opcodes and a 1 in a fixed bit are illegal. -/
theorem test_decode_illegal :
    decode ⟨0, []⟩ = .illegal .unassignedOp
      ∧ decode ⟨0x170000000000000000000000, []⟩ = .illegal .unassignedOp
      ∧ decode ⟨0xFFFFFFFFFFFFFFFFFFFFFFFF, []⟩ = .illegal .unassignedOp
      ∧ decode ⟨0x010100100000003800000000, []⟩ = .illegal .fixedBit
      ∧ decode ⟨0x010000100000013800000000, []⟩ = .illegal .fixedBit
      ∧ decode ⟨0x040400100000000000000000, []⟩ = .illegal .fixedBit
      ∧ decode ⟨0x1A0800000000000000000000, []⟩ = .illegal .fixedBit
      ∧ decode ⟨0x100000000000000000000001, []⟩ = .illegal .fixedBit := by decide

/-- R76: a pair whose payload has the wrong length is not a command. -/
theorem test_decode_wrong_payload : decode ⟨0x160000000000000400000000, [0xDE]⟩ = .notCommand := by decide

/-- R81: a pseudo-command is the words of its command. -/
theorem test_pseudo_getw_m : encode (.getwM 0x20) = ⟨0x050100200000000000000000, []⟩ := by decide

/-- R78: digits most significant first. -/
theorem test_render_header :
    headerDigits 0x0300010000FFFFF0000ABCDE = "0300010000FFFFF0000ABCDE".toList := by decide

/-! ### CFG_TEST and small states -/

/-- `REF_PATTERN(p)[i]`: `p` when `i` is odd, 0 when `i` is even. -/
def refStepTest (p : Byte) : Config.RefStep :=
  ⟨⟨((List.range 32).map fun i => if i % 2 = 1 then p else 0).toArray, by simp⟩, 4, 0x102, 4, 0x102⟩

/-- `CFG_TEST` with a maximum transfer size. -/
def cfgTest (maxXfer : { n : Nat // 1 ≤ n }) : Config.Cfg where
  maxXfer := maxXfer
  pollMs := ⟨100, by decide⟩
  rdyAddr := 0xEF09
  rdyMask := ⟨0x01, by decide⟩
  ramtypeOff := 0x708
  ramtypeMask := ⟨0xE0, by decide⟩
  ramtypeAddr := 0xEF08
  detCls := 4
  detOptions := 0x102
  detTimeout := 1500
  detPattern := Config.detPatternDefault
  refSteps := ⟨(Config.probes.map refStepTest).toArray, rfl⟩
  refineTable := ⟨((List.range 5).map fun k => Vector.replicate 9 (Fin.ofNat 5 k)).toArray, rfl⟩
  reqCode := 0
  idxReg := 0
  idxEeprom1 := 0
  idxEeprom2 := 0
  idxDmaReset := 0
  idxDmaCancel := 0
  idxDmaEnrd := 0
  idxDmaEnwr := 0
  enablePayload := ⟨[⟨4, 16, 0x102, #v[4, 0, 16, 0, 2, 1]⟩], #v[0, 0, 0, 0, 0, 0]⟩
  riInit := Vector.replicate Config.riSize 0

/-- The reset state of `CFG_TEST`, with bytes of `RI` from an offset and the environment's next answers. -/
def start (maxXfer : { n : Nat // 1 ≤ n }) (off : Nat) (bytes : List Byte) (replies : List Reply) : State :=
  (State.afterReset (cfgTest maxXfer) [] replies [true] [] []).memWrite off bytes

/-- `MAX_XFER = 512`, as most vectors have it. -/
def start512 (off : Nat) (bytes : List Byte) (replies : List Reply) : State := start ⟨512, by decide⟩ off bytes replies

/-- `STATUS` (its code), `RES` and `DOUT` after a command, none where it does not answer a next state. -/
def response (i : Instr) (s : State) : Option (Nat × Nat × List Byte) :=
  match exec i s with
  | .next t => some (t.status.code.toNat, t.res.toNat, t.dout)
  | .fault _ => none
  | .refused _ => none

/-- `n` bytes of `RI` after a command. -/
def image (i : Instr) (s : State) (off n : Nat) : List Byte := (after i s).memRead off n

/-- The transactions of a command. -/
def issued (i : Instr) (s : State) : List Transaction := (after i s).trace.map Event.tx

/-! ### Codec -/

/-- R91's example and its mask with gaps. -/
theorem test_bfget : response (.bfget 0x10 0x38) (start512 0x10 [0xB6] []) = some (0, 6, []) := by decide +kernel
theorem test_bfget_gaps : response (.bfget 0x10 0xA4) (start512 0x10 [0xB6] []) = some (0, 0x29, []) := by decide +kernel
/-- R93's example; section 2.1, a mask with gaps. -/
theorem test_bfset : image (.bfset 0x10 0x38 0xFD) (start512 0x0F [0x11, 0xB6, 0x22] []) 0x0F 3 = [0x11, 0xAE, 0x22] := by
  decide +kernel
theorem test_bfset_gaps : image (.bfset 0x10 0xA4 0) (start512 0x10 [0xFF] []) 0x10 1 = [0x5B] := by decide +kernel
/-- Section 2.3. -/
theorem test_wbfset_contiguous :
    image (.wbfset 0x100 0x0003FC00 0x1A5) (start512 0x100 [0x11, 0x22, 0x33, 0x44, 0x77] []) 0x100 5
      = [0x11, 0x96, 0x32, 0x44, 0x77] := by decide +kernel
theorem test_wbfset_gaps :
    image (.wbfset 0x100 0x00F000FF 0x12345678) (start512 0x100 [0xFF, 0xFF, 0xFF, 0xFF] []) 0x100 4
      = [0x78, 0xFF, 0x4F, 0xFF] := by decide +kernel
/-- Section 2.2. -/
theorem test_getle :
    response (.getle 2 0x20) (start512 0x20 [0x44, 0x33, 0x22, 0x11] []) = some (0, 0x223344, []) := by decide +kernel
theorem test_getbe :
    response (.getbe 2 0x20) (start512 0x20 [0x44, 0x33, 0x22, 0x11] []) = some (0, 0x443322, []) := by decide +kernel
theorem test_setle :
    image (.setle 2 0x20 0xA1B2C3D4) (start512 0x20 [0xEE, 0xEE, 0xEE, 0xEE] []) 0x20 4 = [0xD4, 0xC3, 0xB2, 0xEE] := by
  decide +kernel
theorem test_setbe :
    image (.setbe 2 0x20 0xA1B2C3D4) (start512 0x20 [0xEE, 0xEE, 0xEE, 0xEE] []) 0x20 4 = [0xB2, 0xC3, 0xD4, 0xEE] := by
  decide +kernel
/-- Section 2.4: the edges of the image. -/
theorem test_bounds_get :
    response (.getle 3 0x716) (start512 0 [] []) = some (0, 0, [])
      ∧ response (.getle 3 0x717) (start512 0 [] []) = some (9, 0, [])
      ∧ response (.bfget 0xFFFF 1) (start512 0 [] []) = some (9, 0, []) := by decide +kernel
theorem test_bounds_wide :
    response (.wbfset 0x716 0x80000000 1) (start512 0 [] []) = some (0, 0, [])
      ∧ response (.wbfset 0x717 0x80000000 1) (start512 0 [] []) = some (9, 0, [])
      ∧ response (.wbfset 0x719 0 0) (start512 0 [] []) = some (0, 0, [])
      ∧ response (.wbfset 0x71A 0 0) (start512 0 [] []) = some (9, 0, []) := by decide +kernel

/-! ### DMA primitives -/

/-- Section 2.6: Reset failing while armed. -/
theorem test_dmareset_fail :
    let t := after .dmareset (after (.dmaenrd 4 8 0) (start512 0 [] [okay, .fail]))
    (t.status, t.dstate, t.remain) = (.transportFailure, .idle, 0) := by decide +kernel
theorem test_dmacancel_fail :
    let t := after .dmacancel (after (.dmaenwr 4 8 0) (start512 0 [] [okay, .fail]))
    (t.status, t.dstate, t.remain, t.trace.length) = (.transportFailure, .idle, 0, 2) := by decide +kernel
/-- R113's example. -/
theorem test_dmaenrd :
    let t := after (.dmaenrd 4 32 0x102) (start512 0 [] [okay])
    (t.dstate, t.remain, t.trace.map Event.tx) = (.armedRd, 32, [.dmaEnable .rd 4 16 0x102]) := by decide +kernel
theorem test_dmaenrd_odd : response (.dmaenrd 4 7 0) (start512 0 [] [okay]) = some (10, 0, []) := by decide +kernel
/-- R114's example; program P4, step 9. -/
theorem test_dmaenwr :
    let t := after (.dmaenwr 4 2072 0x102) (start512 0 [] [okay])
    (t.dstate, t.remain, t.trace.map Event.tx) = (.armedWr, 2072, [.dmaEnable .wr 4 1036 0x102]) := by decide +kernel
theorem test_dmaenwr_armed :
    let t := after (.dmaenwr 4 8 0) (after (.dmaenrd 4 8 0) (start512 0 [] [okay]))
    (t.status, t.dstate, t.remain, t.trace.length) = (.sequenceFault, .armedRd, 8, 1) := by decide +kernel
/-- Section 2.7. -/
theorem test_dmawait_timeout :
    response (.dmawait 250) (start512 0 [] [.ok 1 [0], .ok 1 [0xFE], .ok 1 [0]]) = some (1, 3, []) := by decide +kernel
theorem test_dmawait_last_poll :
    response (.dmawait 0) (start512 0 [] [.ok 1 [1]]) = some (0, 1, []) := by decide +kernel
/-- Section 2.6: chunked bulk-in with a short second chunk. -/
theorem test_bulkrd_short_chunk :
    let t := after (.bulkrd 10) (after (.dmaenrd 4 16 0) (start ⟨4, by decide⟩ 0 []
      [okay, .ok 4 [1, 2, 3, 4], .ok 1 [5]]))
    (t.status, t.res, t.dout, t.dstate, t.remain, t.trace.length)
      = (.ok, 5, [1, 2, 3, 4, 5], .armedRd, 11, 3) := by decide +kernel
theorem test_bulkrd_idle : response (.bulkrd 8) (start512 0 [] []) = some (11, 0, []) := by decide +kernel
/-- R123's example; section 2.6, a short bulk-out. -/
theorem test_bulkwr :
    let t := after (.bulkwr 4 [0xDE, 0xAD, 0xBE, 0xEF]) (after (.dmaenwr 4 4 0) (start512 0 [] [okay, .ok 4 []]))
    (t.status, t.res, t.dstate, t.desc) = (.ok, 4, .idle, Desc.zero) := by decide +kernel
theorem test_bulkwr_short :
    let t := after (.bulkwr 8 [0, 1, 2, 3, 4, 5, 6, 7]) (after (.dmaenwr 4 8 0) (start512 0 [] [okay, .ok 2 []]))
    (t.status, t.res, t.dstate, t.remain) = (.ok, 2, .armedWr, 6) := by decide +kernel

/-! ### Composites -/

/-- Section 2.8: a short read. -/
theorem test_dmaread_short :
    response (.dmaread 4 8 0x102) (start512 0 [] [okay, okay, .ok 6 [1, 2, 3, 4, 5, 6]])
      = some (2, 6, [1, 2, 3, 4, 5, 6]) := by decide +kernel
theorem test_dmaread :
    let s := start512 0 [] [okay, okay, .ok 4 [1, 2, 3, 4]]
    response (.dmaread 4 4 0x102) s = some (0, 4, [1, 2, 3, 4])
      ∧ issued (.dmaread 4 4 0x102) s = [.dmaReset, .dmaEnable .rd 4 2 0x102, .bulkIn 4] := by decide +kernel
/-- Program P2b; section 2.8, a mismatch and then a match. -/
theorem test_dmawrite_verified :
    let s := start512 0 [] [okay, okay, .ok 2 [], okay, .ok 2 [0xA0, 0xA1]]
    response (.dmawrite 4 2 0x102 [0xA0, 0xA1]) s = some (0, 1, [])
      ∧ issued (.dmawrite 4 2 0x102 [0xA0, 0xA1]) s
        = [.dmaReset, .dmaEnable .wr 4 1 0x102, .bulkOut [0xA0, 0xA1], .dmaEnable .rd 4 1 0x102, .bulkIn 2] := by
  decide +kernel
theorem test_dmawrite_second_attempt :
    let s := start512 0 [] [okay, okay, .ok 2 [], okay, .ok 2 [0, 0], okay, okay, .ok 2 [], okay, .ok 2 [0xA0, 0xA1]]
    response (.dmawrite 4 2 0x102 [0xA0, 0xA1]) s = some (0, 2, [])
      ∧ ((after (.dmawrite 4 2 0x102 [0xA0, 0xA1]) s).trace.length,
          (after (.dmawrite 4 2 0x102 [0xA0, 0xA1]) s).dstate) = (10, .idle) := by decide +kernel
/-- Section 2.8: SETTYPE 3 from `RI[0x708] = 0x1F`; a failed write is not rolled back. -/
theorem test_settype :
    let s := start512 0x708 [0x1F] [okay]
    image (.settype 3) s 0x708 1 = [0x7F] ∧ issued (.settype 3) s = [.regWrite .reg 0xEF08 [0x7F]] := by decide +kernel
theorem test_settype_fail :
    let s := start512 0x708 [0x00] [.fail]
    response (.settype 3) s = some (2, 0, []) ∧ image (.settype 3) s 0x708 1 = [0x60] := by decide +kernel

/-- R143, R144: five candidates whose Reset fails: `InitFatal`, three transactions a round, code 0 left in the field. -/
theorem test_detect_init_fatal :
    let s := start512 0x708 [0xFF] (List.replicate 5 [okay, .ok 1 [1], .fail]).flatten
    let t := after .detect s
    (t.status, t.res, t.memRead 0x708 1, t.trace.length, t.cand, t.dstate)
      = (.initFatal, 0, [0x1F], 15, 0, .idle) := by decide +kernel
/-- Section 2.9: the first `T.RegWrite` answers `fail`. -/
theorem test_detect_first_push_fails :
    let t := after .detect (start512 0x708 [0x1F] [.fail])
    (t.status, t.res, t.memRead 0x708 1, t.trace.length) = (.transportFailure, 0, [0x9F], 1) := by decide +kernel

/-! ### The port -/

/-- R177: with nothing sent the block waits. -/
theorem test_step_waits : (match step State.reset with | .next t => t.host.length | _ => 1) = 0 := by decide
/-- P4, step 16: an illegal header is answered. -/
theorem test_step_illegal :
    (match step ((start512 0 [] []).withFetchWord 96 0) with | .next t => (t.status, t.responses.length) | _ => (.ok, 0))
      = (.illegalCommand, 1) := by decide +kernel
/-- Every command runs as the first one after reset. -/
theorem test_step_runs_from_reset :
    (Op.all.all fun op =>
      match step (State.reset.withFetchWord 96 (op.code.toNat * 2 ^ 88)) with
      | .next _ => true
      | _ => false) = true := by decide

/-! ### Witnesses: a state and operands that meet the hypotheses of each statement of Certificates/Slice0/Obligations.lean -/

/-- The idle block of `CFG_TEST` with these inputs from the host. -/
def sent (host : List HostInput) : State := { start512 0 [] [] with host := host }

/-- The block with a transfer of `size` bytes armed. -/
def armed (maxXfer : { n : Nat // 1 ≤ n }) (dir : Dir) (size : Word) (x : Script) : State :=
  { start maxXfer 0 [] (x.answers ++ []) with dstate := dir.armed, desc := ⟨4, size, 0⟩, remain := size }

/-- The status of an outcome. -/
def statusOf : Host.Outcome State Fault Refusal → Option Status
  | .next t => some t.status
  | .fault _ => none
  | .refused _ => none

theorem witness_DecodeInvertsEncode :
    WellFormed (.bulkwr 2 [1, 2]) ∧ WellFormed (.bulkwr 0 []) ∧ WellFormed (.bfget 0xFFFF 0xFF) := by decide
theorem witness_EncodeInvertsDecode : decode ⟨0x1A0300000000000000000000, []⟩ = .instr (.settype 3) := by decide
theorem witness_LegalHeadersAreTheTableRows_legal :
    ∃ row ∈ opcodeRows, (0x1A0700000000000000000000 : HeaderBits) &&& row.2.1 = row.2.2 := by decide
theorem witness_LegalHeadersAreTheTableRows_illegal :
    (∀ row ∈ opcodeRows, (0x1A0800000000000000000000 : HeaderBits) &&& row.2.1 ≠ row.2.2)
      ∧ ∀ row ∈ opcodeRows, (0x170000000000000000000000 : HeaderBits) &&& row.2.1 ≠ row.2.2 := by decide
theorem witness_OperandsAreHeaderFields :
    decodeHeader 0x160000000000000200000000 [1, 2] = .instr (.bulkwr 2 [1, 2]) := by decide
theorem witness_StepRunsDecodedCommand :
    (sent [.command ⟨0x100000000000000000000000, []⟩]).seq = .idle
      ∧ (sent [.command ⟨0x100000000000000000000000, []⟩]).host = .command ⟨0x100000000000000000000000, []⟩ :: []
      ∧ decode ⟨0x100000000000000000000000, []⟩ = .instr .dmareset := ⟨rfl, rfl, by decide⟩
theorem witness_IllegalHeaderOnlyAnswers :
    (sent [.command ⟨0, []⟩]).seq = .idle ∧ (sent [.command ⟨0, []⟩]).host = .command ⟨0, []⟩ :: []
      ∧ decode ⟨0, []⟩ = .illegal .unassignedOp := ⟨rfl, rfl, by decide⟩
/-- A payload of the announced length, for an operation that has one and for one that has none, and one byte too few. -/
theorem witness_PayloadLengthDecides :
    payloadLength 0x160000000000000200000000 = 2 ∧ payloadLength 0x150000000000000200000000 = 0
      ∧ statusOf (step (sent [.command ⟨0x160000000000000200000000, [1, 2]⟩])) = some .sequenceFault
      ∧ statusOf (step (sent [.command ⟨0x160000000000000200000000, [1]⟩])) = none := by decide +kernel
theorem witness_OneResponsePerCommand : WellFormed (.dmawrite 4 2 0 [1, 2]) ∧ WellFormed .detect := by decide
theorem witness_StatusesOfEachCommand :
    WellFormed (.bfget 0x10 0x38) ∧ ∃ t, exec (.bfget 0x10 0x38) (sent []) = .next t := ⟨by decide, _, rfl⟩
/-- Each of the four added faults, as the status of a step. -/
theorem witness_FaultingCommandsAreNoOps :
    statusOf (step (sent [.command ⟨0x0100071A0000000100000000, []⟩])) = some .boundsFault
      ∧ statusOf (step (sent [.command ⟨0x1A0500000000000000000000, []⟩])) = some .badOperand
      ∧ statusOf (step (sent [.command ⟨0x150000000000000100000000, []⟩])) = some .sequenceFault
      ∧ statusOf (step (sent [.command ⟨0, []⟩])) = some .illegalCommand := by decide +kernel
theorem witness_StepExtendsHistory :
    (∃ t, step (sent [.command ⟨0, []⟩]) = .next t) ∧ (∀ c, (sent [.command ⟨0, []⟩]).host.head? ≠ some (.reset c))
      ∧ ∀ c n image, (sent [.command ⟨0, []⟩]).host.head? ≠ some (.resetDuring c n image) :=
  ⟨⟨_, rfl⟩, by simp [sent], by simp [sent]⟩
theorem witness_HostResetRestores (image : Vector Byte 1818) :
    (sent [.reset image]).seq = .idle ∧ (sent [.reset image]).host = .reset image :: [] := ⟨rfl, rfl⟩
/-- A reset that strikes DMAREAD before its first transaction, and after it. -/
theorem witness_ResetCutsOffCommand (n : Nat) (image : Vector Byte 1818) :
    ∃ u added, (sent [.resetDuring ⟨0x180000040000000200000000, []⟩ n image]).seq = .idle
      ∧ decode ⟨0x180000040000000200000000, []⟩ = .instr (.dmaread 4 2 0)
      ∧ exec (.dmaread 4 2 0) { start512 0 [] [.fail] with host := [] } = .next u
      ∧ u.trace = (start512 0 [] [.fail]).trace ++ added :=
  ⟨_, [⟨.two .rdReset .prim, .dmaReset, .fail⟩], rfl, by decide, rfl, by decide +kernel⟩
/-- An illegal header, and a pair that is no command, under the same reset. -/
theorem witness_ResetCutsOffCommand_none (n : Nat) (image : Vector Byte 1818) :
    (sent [.resetDuring ⟨0, []⟩ n image]).seq = .idle ∧ (∃ why, decode ⟨0, []⟩ = .illegal why)
      ∧ decode ⟨0x160000000000000200000000, [1]⟩ = .notCommand := ⟨rfl, ⟨_, rfl⟩, by decide⟩
theorem witness_StepKeepsInvariant :
    let s := { armed ⟨512, by decide⟩ .rd 8 [] with host := [.command ⟨0, []⟩] }
    s.Inv ∧ ∃ t, step s = .next t :=
  ⟨⟨rfl, by decide +kernel, (fun h => by cases h), (fun _ => by decide +kernel), by decide +kernel, by decide +kernel, rfl, rfl, rfl,
    .inl rfl⟩, _, rfl⟩
theorem witness_OnlyTheNamedCommandsChangeTheImage :
    WellFormed .dmareset ∧ (∃ t, exec .dmareset (sent []) = .next t)
      ∧ Instr.dmareset.op ∉ [Op.bfset, .wbfset, .setle, .setbe, .settype, .detect] := ⟨by decide, ⟨_, rfl⟩, by decide⟩
theorem witness_DmaRegistersKept :
    (isCodec (.bfget 0 1) = true ∧ ∃ t, exec (.bfget 0 1) (sent []) = .next t)
      ∧ ((Instr.settype 5).op = .settype ∧ ∃ t, exec (.settype 5) (sent []) = .next t)
      ∧ ((Instr.dmawait 0).op = .dmawait ∧ ∃ t, exec (.dmawait 0) (sent []) = .next t) :=
  ⟨⟨rfl, _, rfl⟩, ⟨rfl, _, rfl⟩, ⟨rfl, _, rfl⟩⟩
/-- A command that is none of DMAWRITE, DMAWAIT and DETECT meets all three premises at once. -/
theorem witness_WorkingRegistersKept :
    WellFormed .dmareset ∧ (∃ t, exec .dmareset (sent []) = .next t) ∧ Instr.dmareset.op ∉ [Op.dmawrite, .detect]
      ∧ Instr.dmareset.op ∉ [Op.dmawait, .detect] ∧ Instr.dmareset.op ≠ .detect :=
  ⟨by decide, ⟨_, rfl⟩, by decide, by decide, by decide⟩
theorem witness_EveryCommandEndsWithinItsBound : WellFormed .detect ∧ WellFormed (.dmawrite 4 2 0 [1, 2]) := by decide
theorem witness_TransactionsAreTheBlocksOwn : WellFormed .dmareset ∧ ∃ t, exec .dmareset (sent []) = .next t :=
  ⟨by decide, _, rfl⟩
/-- Two transactions with different answers, of a command that issues both: each recorded answer is its own. -/
theorem witness_TransactionsAreTheBlocksOwn_order :
    (after (.dmaread 4 2 0) (start512 0 [] [okay, .fail])).trace.map (fun e => (e.tx, e.reply))
      = [(.dmaReset, okay), (.dmaEnable .rd 4 1 0, .fail)] := by decide +kernel
/-- Answers at hand, none at hand, and a legal answer. -/
theorem witness_AnswersAreTheEnvironments :
    (start512 0 [] [.fail]).replies = .fail :: [] ∧ (start512 0 [] []).replies = []
      ∧ (Reply.ok 1 [7]).legal (.bulkIn 2) = true := ⟨rfl, rfl, by decide⟩
/-- A DMAREAD whose Enable fails: its second transaction, of two. -/
theorem witness_CompositesStopAtTheFirstFailure :
    ∃ t, exec (.dmaread 4 2 0) (start512 0 [] [okay, .fail]) = .next t
      ∧ t.history = (start512 0 [] [okay, .fail]).history ++ [(.dmaReset, okay), (.dmaEnable .rd 4 1 0, .fail)]
      ∧ ¬ full (.dmaEnable .rd 4 1 0, .fail) :=
  ⟨_, rfl, by decide +kernel, by simp [full, Reply.failed]⟩
/-- The last byte of the image, and the first outside it. -/
theorem witness_BoundsAreAllOrNothing :
    touches (.getle 3 1814) = some (1814, 4) ∧ 1814 + 4 - 1 ≤ 1817
      ∧ touches (.getle 3 1815) = some (1815, 4) ∧ 1817 < 1815 + 4 - 1
      ∧ touches (.wbfset 1817 0 0) = some (1817, 1) ∧ touches (.wbfset 1818 0 0) = some (1818, 1) := by decide
/-- The offsets 1817 and 1818 fall under one clause each (BFGET, BFSET, the single-byte laws). -/
theorem witness_BfgetReturnsTheField : (1817 : Half).toNat ≤ 1817 ∧ 1817 < (1818 : Half).toNat := by decide
theorem witness_BfsetWritesTheField : (1817 : Half).toNat ≤ 1817 ∧ 1817 < (1818 : Half).toNat := by decide
theorem witness_SingleByteLaws : (1817 : Half).toNat ≤ 1817 := by decide
/-- A mask of three bytes whose first byte is 0, at the last offset it fits and at the next. -/
theorem witness_WbfsetPlacesTheBits :
    IsSpan 0x00FFF000 3 ∧ (1815 : Half).toNat + max 3 1 - 1 ≤ 1817 ∧ 1817 < (1816 : Half).toNat + max 3 1 - 1
      ∧ (0x00FFF000 : Word).extractLsb' (8 * 1) 8 ≠ 0 ∧ ∀ j, j < 1 → (0x00FFF000 : Word).extractLsb' (8 * j) 8 = 0 := by
  refine ⟨.inr (by decide), by decide, by decide, by decide, by decide⟩
theorem witness_WbfsetContiguousIsAFieldStore :
    (1 ≤ 32 ∧ 0 + 32 ≤ 32 ∧ (1814 : Half).toNat + (0 + 32 - 1) / 8 ≤ 1817)
      ∧ (1 ≤ 1 ∧ 31 + 1 ≤ 32 ∧ (1814 : Half).toNat + (31 + 1 - 1) / 8 ≤ 1817)
      ∧ (1 ≤ 1 ∧ 0 + 1 ≤ 32 ∧ (1817 : Half).toNat + (0 + 1 - 1) / 8 ≤ 1817) := by decide
/-- The last offset each byte count fits at, and the next. -/
theorem witness_GetleReturnsTheInteger : ∀ nm1 : BitVec 2,
    (BitVec.ofNat 16 (1817 - nm1.toNat)).toNat + (nm1.toNat + 1) - 1 ≤ 1817
      ∧ 1817 < (BitVec.ofNat 16 (1818 - nm1.toNat)).toNat + (nm1.toNat + 1) - 1 := by decide
theorem witness_GetbeReturnsTheInteger : (1814 : Half).toNat + ((3 : BitVec 2).toNat + 1) - 1 ≤ 1817
    ∧ 1817 < (1815 : Half).toNat + ((3 : BitVec 2).toNat + 1) - 1 := by decide
theorem witness_SetleStoresTheInteger : (1814 : Half).toNat + ((3 : BitVec 2).toNat + 1) - 1 ≤ 1817
    ∧ 1817 < (1815 : Half).toNat + ((3 : BitVec 2).toNat + 1) - 1 := by decide
theorem witness_SetbeStoresTheInteger : (1814 : Half).toNat + ((3 : BitVec 2).toNat + 1) - 1 ≤ 1817
    ∧ 1817 < (1815 : Half).toNat + ((3 : BitVec 2).toNat + 1) - 1 := by decide
theorem witness_IntegerRoundTrips : (1814 : Half).toNat + ((3 : BitVec 2).toNat + 1) - 1 ≤ 1817
    ∧ (1817 : Half).toNat + ((0 : BitVec 2).toNat + 1) - 1 ≤ 1817 := by decide
/-- A setter that ends `OK` and one that does not. -/
theorem witness_SettersKeepUnrelatedBits :
    (Instr.setle 3 1814 0).op ∈ [Op.bfset, .wbfset, .setle, .setbe]
      ∧ statusOf (exec (.setle 3 1814 0) (sent [])) = some .ok
      ∧ statusOf (exec (.setle 3 1815 0) (sent [])) = some .boundsFault := by decide +kernel
theorem witness_SettersAreIdempotent :
    (Instr.bfset 0x10 0x38 5).op ∈ [Op.bfset, .wbfset, .setle, .setbe]
      ∧ ∃ t u, exec (.bfset 0x10 0x38 5) (sent []) = .next t ∧ exec (.bfset 0x10 0x38 5) t = .next u :=
  ⟨by decide, _, _, rfl, rfl⟩
/-- The sizes 0 and 1, an armed block, and an idle one whose transaction fails or succeeds. -/
theorem witness_DmaenrdArmsARead :
    (1 : Word).toNat % 2 = 1 ∧ ((2 : Word) ≠ 0 ∧ (2 : Word).toNat % 2 = 0)
      ∧ (armed ⟨512, by decide⟩ .rd 8 []).dstate ≠ .idle ∧ (sent []).dstate = .idle
      ∧ ((start512 0 [] [.fail]).nextReply (.dmaEnable .rd 4 1 0)).failed = true
      ∧ ((start512 0 [] [okay]).nextReply (.dmaEnable .rd 4 1 0)).failed = false := by decide +kernel
theorem witness_DmaenwrArmsAWrite :
    (1 : Word).toNat % 2 = 1 ∧ ((2 : Word) ≠ 0 ∧ (2 : Word).toNat % 2 = 0)
      ∧ (armed ⟨512, by decide⟩ .rd 8 []).dstate ≠ .idle ∧ (sent []).dstate = .idle
      ∧ ((start512 0 [] [.fail]).nextReply (.dmaEnable .wr 4 1 0)).failed = true
      ∧ ((start512 0 [] [okay]).nextReply (.dmaEnable .wr 4 1 0)).failed = false := by decide +kernel
/-- The three endings of DMAWAIT: a failed poll, a set bit on the last poll, a spent budget. -/
theorem witness_DmawaitPolls :
    statusOf (exec (.dmawait 200) (start512 0 [] [.fail])) = some .transportFailure
      ∧ statusOf (exec (.dmawait 200) (start512 0 [] [.ok 1 [0], .ok 1 [1]])) = some .ok
      ∧ statusOf (exec (.dmawait 200) (start512 0 [] [.ok 1 [0], .ok 1 [0]])) = some .timeout := by decide +kernel
/-- The byte counts 0, `REMAIN` and `REMAIN + 1`. -/
theorem witness_BulkPreconditions :
    ([] : List Byte).length = (0 : Word).toNat ∧ (List.replicate 8 (0 : Byte)).length = (8 : Word).toNat
      ∧ (armed ⟨512, by decide⟩ .rd 8 []).dstate = .armedRd ∧ (armed ⟨512, by decide⟩ .wr 8 []).dstate = .armedWr
      ∧ (8 : Word).toNat ≤ (armed ⟨512, by decide⟩ .rd 8 []).remain.toNat
      ∧ (armed ⟨512, by decide⟩ .rd 8 []).remain.toNat < (9 : Word).toNat := by decide +kernel
/-- A bulk-in whose last chunk fails, is short, or is full. -/
theorem witness_BulkrdMovesByChunks :
    ((8 : Word) ≠ 0 ∧ (armed ⟨4, by decide⟩ .rd 8 []).dstate = .armedRd
        ∧ (8 : Word).toNat ≤ (armed ⟨4, by decide⟩ .rd 8 []).remain.toNat)
      ∧ response (.bulkrd 8) (armed ⟨4, by decide⟩ .rd 8 [(.bulkIn 4, .ok 4 [1, 2, 3, 4]), (.bulkIn 4, .fail)])
        = some (2, 4, [1, 2, 3, 4])
      ∧ response (.bulkrd 8) (armed ⟨4, by decide⟩ .rd 8 [(.bulkIn 4, .ok 1 [1])]) = some (0, 1, [1])
      ∧ response (.bulkrd 4) (armed ⟨4, by decide⟩ .rd 8 [(.bulkIn 4, .ok 4 [1, 2, 3, 4])])
        = some (0, 4, [1, 2, 3, 4]) := by decide +kernel
theorem witness_BulkwrMovesByChunks :
    ([1, 2, 3, 4, 5] : List Byte).length = (5 : Word).toNat ∧ (5 : Word) ≠ 0
      ∧ (armed ⟨4, by decide⟩ .wr 6 []).dstate = .armedWr
      ∧ (5 : Word).toNat ≤ (armed ⟨4, by decide⟩ .wr 6 []).remain.toNat
      ∧ response (.bulkwr 5 [1, 2, 3, 4, 5]) (armed ⟨4, by decide⟩ .wr 6 [(.bulkOut [1, 2, 3, 4], .ok 4 []), (.bulkOut [5], .fail)])
        = some (2, 4, [])
      ∧ response (.bulkwr 5 [1, 2, 3, 4, 5]) (armed ⟨4, by decide⟩ .wr 6 [(.bulkOut [1, 2, 3, 4], .ok 3 [])]) = some (0, 3, [])
      ∧ response (.bulkwr 5 [1, 2, 3, 4, 5])
          (armed ⟨4, by decide⟩ .wr 6 [(.bulkOut [1, 2, 3, 4], .ok 4 []), (.bulkOut [5], .ok 1 [])]) = some (0, 5, []) := by
  decide +kernel
/-- A full bulk-in of three chunks, of all that is armed and of a part of it. -/
theorem witness_BulkrdFullTransfer :
    let data : List Byte := [1, 2, 3, 4, 5, 6, 7, 8, 9]
    let x := inScript (cfgTest ⟨4, by decide⟩) data
    (9 : Word) ≠ 0 ∧ data.length = (9 : Word).toNat ∧ (armed ⟨4, by decide⟩ .rd 9 x).dstate = .armedRd
      ∧ (9 : Word).toNat ≤ (armed ⟨4, by decide⟩ .rd 9 x).remain.toNat
      ∧ (9 : Word).toNat ≤ (armed ⟨4, by decide⟩ .rd 10 x).remain.toNat
      ∧ (armed ⟨4, by decide⟩ .rd 9 x).replies
        = Script.answers (inScript (armed ⟨4, by decide⟩ .rd 9 x).cfg data) ++ [] := by decide +kernel
theorem witness_BulkwrFullTransfer :
    let data : List Byte := [1, 2, 3, 4, 5, 6, 7, 8, 9]
    let x := outScript (cfgTest ⟨4, by decide⟩) data
    (9 : Word) ≠ 0 ∧ data.length = (9 : Word).toNat ∧ (armed ⟨4, by decide⟩ .wr 9 x).dstate = .armedWr
      ∧ (9 : Word).toNat ≤ (armed ⟨4, by decide⟩ .wr 9 x).remain.toNat
      ∧ (9 : Word).toNat ≤ (armed ⟨4, by decide⟩ .wr 10 x).remain.toNat
      ∧ (armed ⟨4, by decide⟩ .wr 9 x).replies
        = Script.answers (outScript (armed ⟨4, by decide⟩ .wr 9 x).cfg data) ++ [] := by decide +kernel
/-- The sizes 0, 1 and 2. -/
theorem witness_DmareadOutcomes :
    (1 : Word).toNat % 2 = 1 ∧ (2 : Word) ≠ 0 ∧ (2 : Word).toNat % 2 = 0
      ∧ response (.dmaread 4 0 0) (sent []) = some (10, 0, []) ∧ response (.dmaread 4 1 0) (sent []) = some (10, 0, []) := by
  decide +kernel

/-- The idle block, armed before for a read, with a script of answers and a sample of `SCRATCH_AVAIL`. -/
def scripted (avail : Bool) (x : Script) : State :=
  { armed ⟨4, by decide⟩ .rd 8 x with avails := [avail] }

theorem witness_DmareadReturnsTheData :
    let x := readScript (cfgTest ⟨4, by decide⟩) ⟨4, 6, 0⟩ [1, 2, 3, 4, 5, 6]
    (6 : Word) ≠ 0 ∧ (6 : Word).toNat % 2 = 0 ∧ ([1, 2, 3, 4, 5, 6] : List Byte).length = (6 : Word).toNat
      ∧ (scripted true x).replies
        = Script.answers (readScript (scripted true x).cfg ⟨4, 6, 0⟩ [1, 2, 3, 4, 5, 6]) ++ [] := by decide +kernel
/-- The sizes 0, 1 and 2, and both samples of `SCRATCH_AVAIL`. -/
theorem witness_DmawriteOutcomes :
    ([] : List Byte).length = (0 : Word).toNat ∧ ([7] : List Byte).length = (1 : Word).toNat
      ∧ ([7, 8] : List Byte).length = (2 : Word).toNat ∧ (1 : Word).toNat % 2 = 1 ∧ (2 : Word).toNat % 2 = 0
      ∧ (scripted false []).nextAvail = false ∧ (scripted true []).nextAvail = true := by decide +kernel
/-- Section 2.8, where a verifying Write stops: at Reset, at the first EnableWrite, in the first data phase (failed, short), at the
Cancel after a mismatch, at the EnableWrite after it. `RES` is the number of the last attempt started. -/
theorem witness_DmawriteOutcomes_attempt :
    let first := [okay, okay, .ok 2 [], okay, .ok 2 [0, 0]]
    [[.fail], [okay, .fail], [okay, okay, .fail], [okay, okay, .ok 1 []], first ++ [.fail], first ++ [okay, .fail]].map
        (fun answers => response (.dmawrite 4 2 0 [7, 8]) { scripted true [] with replies := answers })
      = [0, 0, 1, 1, 1, 1].map (fun n => some (2, n, [])) := by decide +kernel
/-- A match on the first attempt, and on the tenth. -/
theorem witness_DmawriteMatchesOnTheLastAttempt : ∀ bad ∈ [[], List.replicate 9 ([0, 0] : List Byte)],
    let x := writeScript (cfgTest ⟨4, by decide⟩) ⟨4, 2, 0⟩ [7, 8] bad
    (2 : Word) ≠ 0 ∧ (2 : Word).toNat % 2 = 0 ∧ ([7, 8] : List Byte).length = (2 : Word).toNat
      ∧ (scripted true x).nextAvail = true ∧ bad.length < 10 ∧ (∀ back ∈ bad, back.length = (2 : Word).toNat ∧ back ≠ [7, 8])
      ∧ (scripted true x).replies
        = Script.answers (writeScript (scripted true x).cfg ⟨4, 2, 0⟩ [7, 8] bad) ++ [] := by decide +kernel
theorem witness_DmawriteGivesUpAfterTen :
    let bad := List.replicate 10 ([0, 0] : List Byte)
    let x := failedWriteScript (cfgTest ⟨4, by decide⟩) ⟨4, 2, 0⟩ [7, 8] bad
    (scripted true x).nextAvail = true ∧ bad.length = 10 ∧ (∀ back ∈ bad, back.length = (2 : Word).toNat ∧ back ≠ [7, 8])
      ∧ (scripted true x).replies
        = Script.answers (failedWriteScript (scripted true x).cfg ⟨4, 2, 0⟩ [7, 8] bad) ++ [] := by decide +kernel
theorem witness_DmawriteWithoutScratch :
    let x := blindWriteScript (cfgTest ⟨4, by decide⟩) ⟨4, 2, 0⟩ [7, 8]
    (scripted false x).nextAvail = false
      ∧ (scripted false x).replies
        = Script.answers (blindWriteScript (scripted false x).cfg ⟨4, 2, 0⟩ [7, 8]) ++ [] := by decide +kernel
/-- A verified Write that ends `OK`, on its second attempt. -/
theorem witness_DmawriteOkMeansReadBackEqual :
    let x := writeScript (cfgTest ⟨4, by decide⟩) ⟨4, 2, 0⟩ [7, 8] [[0, 0]]
    (scripted true x).nextAvail = true
      ∧ statusOf (exec (.dmawrite 4 2 0 [7, 8]) (scripted true x)) = some .ok := by decide +kernel
/-- Both samples of `SCRATCH_AVAIL`. -/
theorem witness_WriteThenReadRoundTrip :
    let cfg := cfgTest ⟨4, by decide⟩
    let read := readScript cfg ⟨4, 2, 0⟩ [7, 8]
    let verified := scripted true (writeScript cfg ⟨4, 2, 0⟩ [7, 8] [] ++ read)
    let blind := scripted false (blindWriteScript cfg ⟨4, 2, 0⟩ [7, 8] ++ read)
    verified.nextAvail = true ∧ blind.nextAvail = false
      ∧ verified.replies = Script.answers (writeScript verified.cfg ⟨4, 2, 0⟩ [7, 8] []) ++ Script.answers read ++ []
      ∧ blind.replies = Script.answers (blindWriteScript blind.cfg ⟨4, 2, 0⟩ [7, 8]) ++ Script.answers read ++ [] := by
  decide +kernel
/-- The codes 4 and 5 fall under one clause each. -/
theorem witness_SettypeSetsFieldThenDevice : (4 : BitVec 3).toNat ≤ 4 ∧ 4 < (5 : BitVec 3).toNat := by decide

/-- A state at the start of a DETECT whose answers are those of a device that supports code `k`. -/
def detecting (s : State) (rejected : List (BitVec 3 × List (List Byte))) (k : BitVec 3) (missed : List (List Byte)) : State :=
  { s with
    avails := List.replicate (rejected.length + 1 + min 8 (missed.length + 1)) true ++ []
    replies := Script.answers (detectScript s.cfg (s.riByte s.cfg.ramtypeOff.val) 1 rejected k missed
      (refineClass s.cfg k Config.probes[missed.length]?)) ++ [] }

/-- What the statement about DETECT asks of the inputs. -/
theorem detecting_inputs (s : State) (rejected : List (BitVec 3 × List (List Byte))) (k : BitVec 3)
    (missed : List (List Byte)) :
    (detecting s rejected k missed).cfg = s.cfg
      ∧ (detecting s rejected k missed).avails = List.replicate (rejected.length + 1 + min 8 (missed.length + 1)) true ++ []
      ∧ (detecting s rejected k missed).replies
        = Script.answers (detectScript (detecting s rejected k missed).cfg
            ((detecting s rejected k missed).riByte (detecting s rejected k missed).cfg.ramtypeOff.val) 1 rejected k missed
            (refineClass (detecting s rejected k missed).cfg k Config.probes[missed.length]?)) ++ [] := ⟨rfl, rfl, rfl⟩

/-- Ten read-backs in which every bit is wrong. -/
def wrong : List (List Byte) := List.replicate 10 ((detData (cfgTest ⟨512, by decide⟩)).map fun b => ~~~b)

theorem map_not_ne (l : List Byte) (h : l ≠ []) : l.map (fun b => ~~~b) ≠ l := by
  cases l with
  | nil => exact absurd rfl h
  | cons b l =>
    have : ∀ b : Byte, ~~~b ≠ b := by decide +kernel
    simp [this]

theorem wrong_ne : ∀ back ∈ wrong, back.length = 2072 ∧ back ≠ detData (cfgTest ⟨512, by decide⟩) := by
  have hl : (detData (cfgTest ⟨512, by decide⟩)).length = 2072 := Vector.length_toList
  unfold wrong
  generalize detData (cfgTest ⟨512, by decide⟩) = l at hl ⊢
  intro back hb
  rw [List.eq_of_mem_replicate hb]
  exact ⟨by rw [List.length_map, hl], map_not_ne l fun h => by rw [h] at hl; cases hl⟩

/-- All that the statement about DETECT asks of its state and inputs. -/
def Supports (s : State) (rejected : List (BitVec 3 × List (List Byte))) (k : BitVec 3) (missed : List (List Byte)) : Prop :=
  (1 : Byte) &&& s.cfg.rdyMask.val ≠ 0
    ∧ rejected.map Prod.fst ++ [k] <+: [4, 3, 2, 1, 0]
    ∧ (∀ c ∈ rejected, c.2.length = 10 ∧ ∀ back ∈ c.2, back.length = 2072 ∧ back ≠ detData s.cfg)
    ∧ missed.length ≤ 8
    ∧ (∀ c ∈ Config.probes.zip missed, c.2.length = 32 ∧ c.2 ≠ refPattern s.cfg c.1)
    ∧ s.avails = List.replicate (rejected.length + 1 + min 8 (missed.length + 1)) true ++ []
    ∧ s.replies = Script.answers (detectScript s.cfg (s.riByte s.cfg.ramtypeOff.val) 1 rejected k missed
        (refineClass s.cfg k Config.probes[missed.length]?)) ++ []

/-- Code 4 accepted at once, with the first probe matching. -/
theorem witness_DetectFindsTheSupportedCode_first :
    ∃ s : State, s.cfg = cfgTest ⟨512, by decide⟩ ∧ Supports s [] 4 [] := by
  obtain ⟨s, hs⟩ : ∃ s : State, s.cfg = cfgTest ⟨512, by decide⟩ := ⟨sent [], rfl⟩
  obtain ⟨h1, h2, h3⟩ := detecting_inputs s [] 4 []
  refine ⟨detecting s [] 4 [], h1.trans hs, ?_, ⟨_, rfl⟩, by simp, by simp, by simp, h2, h3⟩
  rw [h1, hs]; decide

/-- Code 0 accepted after the four above it, with no probe matching. -/
theorem witness_DetectFindsTheSupportedCode_last :
    ∃ s : State, s.cfg = cfgTest ⟨512, by decide⟩
      ∧ Supports s [(4, wrong), (3, wrong), (2, wrong), (1, wrong)] 0 (List.replicate 8 (List.replicate 32 0xFF)) := by
  obtain ⟨s, hs⟩ : ∃ s : State, s.cfg = cfgTest ⟨512, by decide⟩ := ⟨sent [], rfl⟩
  generalize hr : [((4 : BitVec 3), wrong), (3, wrong), (2, wrong), (1, wrong)] = rejected
  obtain ⟨h1, h2, h3⟩ := detecting_inputs s rejected 0 (List.replicate 8 (List.replicate 32 0xFF))
  refine ⟨detecting s rejected 0 (List.replicate 8 (List.replicate 32 0xFF)), h1.trans hs, ?_, ?_, ?_, by decide, ?_, h2, h3⟩
  · rw [h1, hs]; decide
  · subst hr; exact ⟨[], rfl⟩
  · rw [h1, hs]
    intro c hc
    have : c.2 = wrong := by
      subst hr
      simp only [List.mem_cons, List.not_mem_nil, or_false] at hc
      rcases hc with h | h | h | h <;> rw [h]
    rw [this]
    exact ⟨List.length_replicate, wrong_ne⟩
  · rw [h1, hs]
    decide +kernel

/-- SETTYPE of the first candidate fails, and every candidate's readiness poll fails. -/
theorem witness_DetectOutcomes_coarse :
    (hostCoarse [4, 3, 2, 1, 0] (start512 0 [] [.fail])).verdict = .aborted
      ∧ (hostCoarse [4, 3, 2, 1, 0] (start512 0 [] ((List.replicate 5 [okay, .fail]).flatten))).verdict = .rejected := by
  decide +kernel

/-- The first candidate accepted, and the environment's next answers `more`. -/
theorem coarse_accepts (more : List Reply) :
    ∃ s : State, (detectCoarse Config.ramtypeCodes s).verdict = .accepted
      ∧ (detectCoarse Config.ramtypeCodes s).state.replies = more
      ∧ (detectCoarse Config.ramtypeCodes s).state.avails = [true]
      ∧ (detectCoarse Config.ramtypeCodes s).state.cfg = cfgTest ⟨512, by decide⟩ := by
  obtain ⟨s0, hs⟩ : ∃ s : State, s.cfg = cfgTest ⟨512, by decide⟩ := ⟨sent [], rfl⟩
  obtain ⟨s, h1, h2, h3⟩ : ∃ s : State, s.cfg = s0.cfg ∧ s.avails = List.replicate (0 + 1) true ++ [true]
      ∧ s.replies = Script.answers (rejectedScript s.cfg (s.riByte (ramOff s)) 1 []
        ++ acceptedScript s.cfg (s.riByte (ramOff s)) 1 4) ++ more :=
    ⟨{ s0 with avails := [true, true], replies := Script.answers (rejectedScript s0.cfg (s0.riByte (ramOff s0)) 1 []
        ++ acceptedScript s0.cfg (s0.riByte (ramOff s0)) 1 4) ++ more }, rfl, rfl, rfl⟩
  obtain ⟨c1, -, c3⟩ := detectCoarse_script [] (am := [true]) codes_le ⟨[3, 2, 1, 0], rfl⟩ (s := s) (fun _ => rfl)
    (by rw [h1, hs]; decide) h2 (by simp) h3
  exact ⟨s, c1, c3.follows.replies, c3.avails,
    (detectCoarse_end Config.ramtypeCodes s codes_le).detecting.cfg.trans (h1.trans hs)⟩

/-- The accepted candidate's first probe matches. -/
theorem witness_DetectOutcomes_matches :
    ∃ s : State, (hostCoarse [4, 3, 2, 1, 0] s).verdict = .accepted
      ∧ (hostRefine [1, 2, 4, 8, 16, 32, 64, 128] (hostCoarse [4, 3, 2, 1, 0] s).state).verdict = .accepted := by
  obtain ⟨s, c1, c2, c3, c4⟩ := coarse_accepts (Script.answers (refineScript (cfgTest ⟨512, by decide⟩) []) ++ [])
  obtain ⟨h1, h2⟩ := detectCoarse_host Config.ramtypeCodes (Alike.refl s)
  obtain ⟨-, h4⟩ := detectRefine_host Config.probes h1
  rw [← c4] at c2
  obtain ⟨r1, -, -, -⟩ := detectRefine_script [] (am := []) (ps := Config.probes) (by simp) (by rw [c3]; rfl) (by simp) c2
  exact ⟨s, h2.trans c1, h4.trans (r1 1 rfl).1⟩

/-- The accepted candidate's first probe cannot be written. -/
theorem witness_DetectOutcomes_refineFails :
    ∃ s : State, (hostCoarse [4, 3, 2, 1, 0] s).verdict = .accepted
      ∧ (hostRefine [1, 2, 4, 8, 16, 32, 64, 128] (hostCoarse [4, 3, 2, 1, 0] s).state).verdict = .aborted := by
  obtain ⟨s, c1, c2, -, -⟩ := coarse_accepts [.fail]
  obtain ⟨h1, h2⟩ := detectCoarse_host Config.ramtypeCodes (Alike.refl s)
  obtain ⟨-, h4⟩ := detectRefine_host Config.probes h1
  refine ⟨s, h2.trans c1, h4.trans ?_⟩
  generalize (detectCoarse Config.ramtypeCodes s).state = u at c2 ⊢
  have hv : (refWDesc u.cfg 1#8).valid = true := valid_of_size size_toNat.2 (by decide) (by decide)
  simp [detectRefine, Config.probes, refineRound, dmaWriteProc, hv, writeBody, resetProc, State.nextReply, c2,
    Transaction.fit, Reply.status, Reply.failed]

/-- A DETECT that ends `OK`: its first candidate is accepted and its first probe matches. -/
theorem witness_DetectOkLeavesTheClass : ∃ s t : State, exec .detect s = .next t ∧ t.status = .ok := by
  obtain ⟨s, hs⟩ : ∃ s : State, s.cfg = cfgTest ⟨512, by decide⟩ := ⟨sent [], rfl⟩
  obtain ⟨h1, h2, h3⟩ := detecting_inputs s [] 4 []
  have h1 := h1.trans hs
  generalize detecting s [] 4 [] = s at h1 h2 h3
  refine ⟨s, _, rfl, ?_⟩
  unfold detectScript at h3
  rw [List.append_assoc (rejectedScript _ _ _ _ ++ _), answers_append, List.append_assoc] at h3
  have hc := detectCoarse_end Config.ramtypeCodes s codes_le
  obtain ⟨c1, -, c3⟩ := detectCoarse_script [] (am := [true]) codes_le ⟨[3, 2, 1, 0], rfl⟩ (s := s) (fun _ => rfl)
    (by rw [h1]; decide) h2 (by simp) h3
  unfold detect
  simp only
  generalize detectCoarse Config.ramtypeCodes s = c at hc c1 c3 ⊢
  rw [c1]
  have hcc := hc.detecting.cfg
  have hr := detectRefine_end Config.probes c.state
  have c4 := c3.follows.replies
  rw [answers_append, List.append_assoc, ← hcc] at c4
  obtain ⟨r1, -, -, r4⟩ := detectRefine_script [] (am := []) (ps := Config.probes) (by simp) (by rw [c3.avails]; rfl)
    (by simp) c4
  have r1 := (r1 1 rfl).1
  unfold detectRefineFinish
  simp only
  generalize detectRefine Config.probes c.state = r at hr r1 r4 ⊢
  rw [r1]
  have hrc := hr.detecting.cfg.trans hcc
  have hb := c3.byte
  rw [← riByte_congr hr.detecting.cfg hr.ri (ramOff s)] at hb
  have ho : ramOff (r.state.setProbe 0) = ramOff s := by simp [ramOff, hrc]
  exact (detectFinish_script (refineClass_le _ _ _) (u := r.state.setProbe 0) (more := [])
    (by rw [ho]; simp only [setProbe_cfg, hrc]; exact hb) (r4.replies)).2.1

end Sys2Proof.Tests
end

namespace Sys2Proof.Machine

/-! # The state of the block: the invariant, the histories, reset, and the Write -/

/-! ## Frames of the commands -/

/-- A well-formed command that ends in a next state does what `Ran` says. -/
theorem ran_of_exec {i : Instr} {s t : State} (hi : WellFormed i) (h : exec i s = .next t) : Ran i s t := by
  obtain ⟨u, hu, hran⟩ := exec_ran i s hi
  rw [h] at hu
  cases hu
  exact hran

/-- The commands outside the list of R13 are those that may not write the image. -/
theorem mayWriteImage_eq_false {i : Instr}
    (h : i.op ∉ [Op.bfset, .wbfset, .setle, .setbe, .settype, .detect]) : mayWriteImage i = false := by
  unfold mayWriteImage
  generalize i.op = op at h
  revert h
  cases op <;> decide

/-! ## The invariant -/

theorem State.Inv.fits {s : State} (h : s.Inv) : DmaFits s := ⟨h.unarmed, h.armed⟩

/-- The invariant does not speak of what the host does next. -/
theorem State.Inv.takeInput {s : State} (h : s.Inv) : s.takeInput.Inv :=
  ⟨h.seq, h.image, h.unarmed, h.armed, h.attempt, h.cand, h.probe, h.scratch, h.status, h.dout⟩

/-- A command that ends in a next state keeps the invariant. -/
theorem Ended.inv {s t : State} (h : Ended s t) (hs : s.Inv) : t.Inv :=
  have hf := h.fits hs.fits
  ⟨h.answers.seq, h.wf hs.image, hf.unarmed, hf.armed, h.attempt hs.attempt, h.cand hs.cand, h.probe hs.probe,
    h.scratch hs.scratch, h.answered, h.dout⟩

/-- Settles O17: from each kind of input of `step_cases`. -/
theorem stepKeepsInvariant : Obligations.StepKeepsInvariant := by
  intro s t hs h
  obtain ⟨-, ⟨-, rfl⟩ | ⟨c, rest, -, hrun⟩ | ⟨image, rest, -, rfl⟩ | ⟨c, n, image, rest, u, -, -, rfl⟩⟩ := step_cases h
  · exact hs
  · exact (runCommand_ended hrun).inv hs.takeInput
  · exact afterReset_inv _ _ _ _ _ _
  · exact afterReset_inv _ _ _ _ _ _

/-- Settles O16: the invariant holds after every reset. -/
theorem resetMeetsInvariant : Obligations.ResetMeetsInvariant := afterReset_inv _ _ _ _ _ _

/-! ## A reset, and a reset that strikes a command -/

/-- The block right after a reset, whatever stands at its ports, is as R32 and R190 ask. -/
theorem afterReset_leavesReset (s : State) (image : Vector Byte Config.riSize) (host : List HostInput)
    (replies : List Reply) (avails : List Bool) (trace : List Event) :
    LeavesReset s (State.afterReset { s.cfg with riInit := image } host replies avails trace s.responses) image host :=
  ⟨rfl, rfl, rfl, rfl, ⟨rfl, rfl, rfl⟩, rfl, rfl, rfl, rfl, rfl, afterReset_riByte _ _ _ _ _ _, rfl, rfl, rfl⟩

theorem cutOff_leavesReset (n : Nat) (image : Vector Byte Config.riSize) (s u : State) :
    LeavesReset s (cutOff n image s u) image s.host :=
  afterReset_leavesReset s image _ _ _ _

/-- The history of a command cut off keeps the first `n` of the command's transactions. -/
theorem cutOff_trace {s u : State} {added : List Event} (h : u.trace = s.trace ++ added) (n : Nat)
    (image : Vector Byte Config.riSize) : (cutOff n image s u).trace = s.trace ++ added.take n := by
  simp [cutOff, h, List.take_append, List.take_of_length_le]

/-- A command cut off has taken one answer for each transaction kept. -/
theorem cutOff_replies {s u : State} {added : List Event} (h : u.trace = s.trace ++ added) (n : Nat)
    (image : Vector Byte Config.riSize) : (cutOff n image s u).replies = s.replies.drop (added.take n).length := by
  simp [cutOff, h]

/-- The idle block takes the host's next input (R19). -/
theorem step_of_idle {s : State} {input : HostInput} {rest : List HostInput} (hs : s.seq = .idle)
    (hh : s.host = input :: rest) : step s = accept input { s with host := rest } := by
  simp [step, advance, hs, hh, State.takeInput]

theorem runCommand_of_instr {c : Command} {i : Instr} (h : decode c = .instr i) (s : State) :
    runCommand c s = exec i s := by
  simp [runCommand, h]

theorem runCommand_of_illegal {c : Command} {why : Illegal} (h : decode c = .illegal why) (s : State) :
    runCommand c s = .next (s.respond .illegalCommand 0 []) := by
  simp [runCommand, h]

theorem runCommand_of_notCommand {c : Command} (h : decode c = .notCommand) (s : State) :
    runCommand c s = .refused .payloadLength := by
  simp [runCommand, h]

theorem accept_resetDuring_of_next {c : Command} {s u : State} (h : runCommand c s = .next u) (n : Nat)
    (image : Vector Byte Config.riSize) : accept (.resetDuring c n image) s = .next (cutOff n image s u) := by
  simp [accept, h]

/-- Settles O15: the three clauses are the three results of `decode`. -/
theorem resetCutsOffCommand : Obligations.ResetCutsOffCommand := by
  intro s c n image rest hs hh
  have hstep := step_of_idle hs hh
  refine ⟨fun i u added hd hu hadd => ?_, fun why hd => ?_, fun hd => ?_⟩
  · rw [accept_resetDuring_of_next ((runCommand_of_instr hd _).trans hu)] at hstep
    exact ⟨_, hstep, cutOff_leavesReset n image _ u, cutOff_trace (s := { s with host := rest }) hadd n image,
      cutOff_replies (s := { s with host := rest }) hadd n image⟩
  · rw [accept_resetDuring_of_next (runCommand_of_illegal hd _)] at hstep
    refine ⟨_, hstep, cutOff_leavesReset n image _ _, ?_, ?_, rfl⟩
    · simp [cutOff]
    · simp [cutOff]
  · simp [hstep, accept, runCommand_of_notCommand hd]

/-- Settles O6: the port passes the decoded command to `exec`. -/
theorem stepRunsDecodedCommand : Obligations.StepRunsDecodedCommand :=
  fun _ _ _ _ hs hh hd => (step_of_idle hs hh).trans (runCommand_of_instr hd _)

/-- Settles O13: each register by computation, the image by `afterReset_riByte`. -/
theorem resetValues : Obligations.ResetValues :=
  ⟨rfl, rfl, rfl, rfl, rfl, rfl, rfl, rfl, rfl, rfl, rfl, rfl, rfl, rfl, afterReset_riByte _ _ _ _ _ _⟩

/-- Settles O14: what every reset leaves, and the history kept. -/
theorem hostResetRestores : Obligations.HostResetRestores := by
  intro s image rest hs hh
  obtain ⟨hstatus, hres, hdout, hseq, hdma, hattempt, hpolls, hcand, hprobe, hscratch, himage, hcfg, hresp, hhost⟩ :=
    afterReset_leavesReset s image rest s.replies s.avails s.trace
  exact ⟨_, step_of_idle hs hh, hstatus, hres, hdout, hseq, hdma, hattempt, hpolls, hcand, hprobe, hscratch, himage,
    hcfg, rfl, hresp, hhost⟩

/-! ## The histories -/

/-- Settles O12: from each kind of input of `step_cases`; only the two kinds of reset touch `CFG`. -/
theorem stepExtendsHistory : Obligations.StepExtendsHistory := by
  intro s t h
  obtain ⟨-, ⟨hh, rfl⟩ | ⟨c, rest, -, hrun⟩ | ⟨image, rest, hh, rfl⟩ | ⟨c, n, image, rest, u, hh, hrun, rfl⟩⟩ :=
    step_cases h
  · exact ⟨by simp [hh], List.prefix_rfl, List.prefix_rfl, rfl, fun _ _ => rfl⟩
  · have hend := runCommand_ended hrun
    have hcfg : t.cfg = s.cfg := hend.cfg
    obtain ⟨added, htrace, -⟩ := hend.grown
    exact ⟨hend.host, ⟨added, htrace.symm⟩, ⟨_, hend.answers.responses.symm⟩, by rw [hcfg], fun _ _ => hcfg⟩
  · exact ⟨rfl, List.prefix_rfl, List.prefix_rfl, rfl, fun hno _ => absurd (by simp [hh]) (hno image)⟩
  · obtain ⟨added, htrace, -⟩ := (runCommand_ended hrun).grown
    exact ⟨rfl, ⟨_, (cutOff_trace htrace n image).symm⟩, List.prefix_rfl, rfl,
      fun _ hno => absurd (by simp [hh]) (hno c n image)⟩

/-! ## What only some commands change -/

/-- Settles O18: the frame of `Ran` on the image. -/
theorem onlyTheNamedCommandsChangeTheImage : Obligations.OnlyTheNamedCommandsChangeTheImage := by
  intro i s t hi h hop
  have hran := ran_of_exec hi h
  exact riByte_congr hran.cfg (hran.image (mayWriteImage_eq_false hop))

/-- Settles O20: the frame of `Ran` on the working registers. -/
theorem workingRegistersKept : Obligations.WorkingRegistersKept := by
  intro i s t hi h
  have hwork := (ran_of_exec hi h).work
  exact ⟨hwork.attempt, hwork.polls, hwork.detect⟩

/-! ## DMAWRITE -/

/-- R112: a descriptor is valid when its size is not 0 and even. -/
theorem Desc.valid_iff (d : Desc) : d.valid = true ↔ d.size ≠ 0 ∧ d.size.toNat % 2 = 0 := by
  simp [Desc.valid]

theorem writeData_attempt (here : Seq) (d : Desc) (data : List Byte) (s : State) :
    (writeData here d data s).state.attempt = s.attempt := by
  have h := (bulkOutProc_end (here.enter .wrData) data s).held.attempt
  simp only [writeData]
  split <;> exact h

/-- Without a scratch buffer no attempt is counted, in every outcome (R134, R136). -/
theorem dmaWriteProc_blind_attempt (here : Seq) {d : Desc} (data : List Byte) {s : State} (hv : d.valid = true)
    (hav : s.nextAvail = false) : (dmaWriteProc here d data s).state.attempt = 0 := by
  unfold dmaWriteProc writeBody
  rw [if_neg (by simp [hv])]
  simp only [hav, setScratch_attempt]
  have ha : (resetProc (here.enter .wrReset) (s.setAttempt 0).sampleScratch).state.attempt = 0 :=
    (resetProc_held _ _).attempt
  generalize resetProc (here.enter .wrReset) (s.setAttempt 0).sampleScratch = a at ha ⊢
  have hb := (enableProc_held (here.enter .wrEnable) .wr d a.state).attempt.trans ha
  generalize enableProc (here.enter .wrEnable) .wr d a.state = b at hb ⊢
  split
  · exact ha
  · split
    · exact hb
    · exact (writeData_attempt here d data b.state).trans hb

/-- DMAWRITE with a zero or odd size (R136, R165). -/
theorem exec_dmawrite_of_invalid {cls : Half} {size options : Word} (payload : List Byte) (s : State)
    (hv : (⟨cls, size, options⟩ : Desc).valid = false) :
    exec (.dmawrite cls size options payload) s = .next (s.respond .badOperand 0 []) := by
  simp [exec, execDmawrite, hv]

/-- DMAWRITE with a valid size answers its procedure's status and `ATTEMPT` (R136). -/
theorem exec_dmawrite_of_valid {cls : Half} {size options : Word} (payload : List Byte) (s : State)
    (hv : (⟨cls, size, options⟩ : Desc).valid = true) :
    exec (.dmawrite cls size options payload) s
      = .next ((dmaWriteProc .idle ⟨cls, size, options⟩ payload s).state.respond
          (dmaWriteProc .idle ⟨cls, size, options⟩ payload s).status
          (BitVec.ofNat 32 (dmaWriteProc .idle ⟨cls, size, options⟩ payload s).state.attempt) []) := by
  simp [exec, execDmawrite, hv]

/-- Settles O51: the operand check, then `dmaWriteProc_end` for what holds on both paths, `dmaWriteProc_blind_attempt` and
`dmaWriteProc_starts` for what `ATTEMPT` counts on each. -/
theorem dmawriteOutcomes : Obligations.DmawriteOutcomes := by
  intro cls size options payload s hp
  have hiff : (⟨cls, size, options⟩ : Desc).valid = true ↔ size ≠ 0 ∧ size.toNat % 2 = 0 := Desc.valid_iff _
  by_cases hv : (⟨cls, size, options⟩ : Desc).valid = true
  · obtain ⟨hne, heven⟩ := hiff.mp hv
    obtain ⟨hengine, hpolls, havails, hscratch, hun, hstatus, hle, hok⟩ :=
      dmaWriteProc_end .idle ⟨cls, size, options⟩ payload s hv hp
    have hblind := dmaWriteProc_blind_attempt .idle payload hv (s := s)
    have hstarts := dmaWriteProc_starts .idle ⟨cls, size, options⟩ payload s hv
    refine ⟨_, exec_dmawrite_of_valid payload s hv, fun hbad => ?_, fun _ _ => ?_⟩
    · rcases hbad with hzero | hodd
      · exact absurd hzero hne
      · omega
    · generalize dmaWriteProc .idle ⟨cls, size, options⟩ payload s = e at *
      refine ⟨hstatus, ⟨rfl, rfl, rfl, rfl, ?_⟩, hle, hok, hblind, fun hav => ?_, ⟨hun.dstate, hun.desc, hun.remain⟩,
        ⟨riByte_congr hengine.cfg hengine.ri, hengine.cfg, hengine.host⟩, hpolls, hengine.cand, hengine.probe,
        hscratch, havails⟩
      · simp [hengine.responses]
      · obtain ⟨x, hissued, hcount⟩ := hstarts hav
        exact ⟨x, hissued.still rfl rfl, hcount.symm⟩
  · refine ⟨_, exec_dmawrite_of_invalid payload s (by simpa using hv), fun _ => respond_answersOnly _ _ _ _, ?_⟩
    exact fun hne heven => absurd (hiff.mpr ⟨hne, heven⟩) hv

end Sys2Proof.Machine

namespace Sys2Proof.Machine

/-! # The memory and the transport port: bounds, setters done twice, the environment's answers -/

/-! ## The bounds of the codec -/

/-- Every command that touches bytes of the image touches at least one: WBFSET its base byte (R96), an integer command
`INT_N_MIN` or more (R5). -/
theorem one_le_of_touches {i : Instr} {a n : Nat} (h : touches i = some (a, n)) : 1 ≤ n := by
  cases i <;> simp only [touches, Option.some.injEq, Prod.mk.injEq, reduceCtorEq] at h
  case wbfset off mask val => exact h.2 ▸ Nat.le_max_right _ _
  case getle nm1 off | getbe nm1 off | setle nm1 off val | setbe nm1 off val => exact h.2 ▸ (byteCount_range nm1).1
  case bfget off mask | bfset off mask val => omega

/-- A command that touches bytes of the image runs its body under the bounds check of exactly these bytes (R43, R90). -/
theorem exec_of_touches {i : Instr} {a n : Nat} (h : touches i = some (a, n)) :
    ∃ body, ∀ s, exec i s = .next (codecCommand a n s body) := by
  cases i <;> simp only [touches, Option.some.injEq, Prod.mk.injEq, reduceCtorEq] at h <;> obtain ⟨rfl, rfl⟩ := h
  all_goals exact ⟨_, fun _ => rfl⟩

/-- Settles O25: the bounds check of `codecCommand` comes before its body, and the body cannot fault. -/
theorem boundsAreAllOrNothing : Obligations.BoundsAreAllOrNothing := by
  intro i s a n h
  have hiff := inRange_iff a n (one_le_of_touches h)
  obtain ⟨body, hexec⟩ := exec_of_touches h
  refine ⟨_, hexec s, fun hin => ?_, fun hout => ?_⟩
  · rw [codecCommand_in (hiff.mpr hin), respond_status]
  · have hfalse : inRange a n = false := Bool.eq_false_iff.mpr fun htrue => by have := hiff.mp htrue; omega
    rw [codecCommand_out hfalse]
    exact respond_answersOnly _ _ _ _

/-! ## A setter done twice -/

theorem SameImage.trans {s t u : State} (h : SameImage s t) (k : SameImage t u) : SameImage s u :=
  fun a => (k a).trans (h a)

/-- The body of a codec command leaves every image that it has made itself. -/
def Repeatable (body : State → State × Word) : Prop :=
  ∀ s u, SameImage (body s).1 u → SameImage u (body u).1

/-- A codec command with such a body leaves the image of its own first run, inside the bounds and outside. -/
theorem Repeatable.codecCommand_twice {body : State → State × Word} (h : Repeatable body) (off n : Nat) (s : State) :
    SameImage (codecCommand off n s body) (codecCommand off n (codecCommand off n s body) body) := by
  by_cases hin : inRange off n = true
  · rw [codecCommand_in hin, codecCommand_in hin]
    exact h (s.goto _) _ fun _ => rfl
  · rw [codecCommand_out (by simpa using hin), codecCommand_out (by simpa using hin)]
    exact fun _ => rfl

/-- Bytes that do not depend on the image (R100, R101). -/
theorem repeatable_memWrite (off : Nat) (bs : List Byte) : Repeatable fun s => (s.memWrite off bs, 0) := by
  intro s u h a
  have hu := h a
  simp only [riByte_memWrite] at hu ⊢
  split
  · next hin => rw [hu, dif_pos hin]
  · rfl

/-- Reading any offset after one byte is written (R42). -/
theorem riByte_memWrite_one (s : State) (a x : Nat) (b : Byte) :
    (s.memWrite a [b]).riByte x = if x = a then b else s.riByte x := riByte_writeByte s a x b

/-- Setting a field that already holds the value changes no byte. -/
theorem sameImage_setField {u : State} {a : Nat} {m v b : Byte} (h : u.riByte a = setField m v b) :
    SameImage u (u.memWrite a [setField m v (u.riByte a)]) := by
  intro x
  rw [riByte_memWrite_one, h, setField_twice]
  split
  · next hx => rw [hx, h]
  · rfl

/-- One masked byte (R93). -/
theorem repeatable_setField (off : Nat) (m v : Byte) :
    Repeatable fun s => (s.memWrite off [setField m v (s.riByte off)], 0) := by
  intro s u h
  refine sameImage_setField (b := s.riByte off) ((h off).trans ?_)
  rw [riByte_memWrite_one, if_pos rfl]

/-- The loop of WBFSET places the same value bits under the same mask bytes again, so each byte holds its field already. -/
theorem wideSet_again (a : Nat) (started : Bool) (d : Word) (ms : List Byte) (s u : State)
    (h : SameImage (wideSet a started d ms s) u) : SameImage u (wideSet a started d ms u) := by
  induction ms generalizing a started d s u with
  | nil => exact fun _ => rfl
  | cons m ms ih =>
    simp only [wideSet] at h ⊢
    split
    · next hskip =>
      rw [if_pos hskip] at h
      exact ih _ _ _ _ _ h
    · next hset =>
      rw [if_neg hset] at h
      have hbyte : u.riByte a = setField m (d.setWidth 8) (s.riByte a) := by
        rw [h a, wideSet_outside _ _ _ _ _ _ (.inl (Nat.lt_succ_self a)), riByte_memWrite_one, if_pos rfl]
      have hsame := sameImage_setField hbyte
      exact hsame.trans (ih _ _ _ _ _ (h.trans hsame))

/-- A setter is a codec command whose body leaves the image it has made. -/
theorem exec_setter {i : Instr} (h : i.op ∈ [Op.bfset, .wbfset, .setle, .setbe]) :
    ∃ off n body, Repeatable body ∧ ∀ s, exec i s = .next (codecCommand off n s body) := by
  cases i
  case bfset off mask val => exact ⟨_, _, _, repeatable_setField off.toNat mask val, fun _ => rfl⟩
  case wbfset off mask val => exact ⟨_, _, _, fun s u => wideSet_again off.toNat false val _ s u, fun _ => rfl⟩
  case setle nm1 off val => exact ⟨_, _, _, repeatable_memWrite off.toNat (leBytes (byteCount nm1) val), fun _ => rfl⟩
  case setbe nm1 off val => exact ⟨_, _, _, repeatable_memWrite off.toNat (beBytes (byteCount nm1) val), fun _ => rfl⟩
  all_goals simp [Instr.op] at h

/-- Settles O37: every setter's body is `Repeatable`. -/
theorem settersAreIdempotent : Obligations.SettersAreIdempotent := by
  intro i s t u hop ht hu
  obtain ⟨off, n, body, hbody, hexec⟩ := exec_setter hop
  rw [hexec, Host.Outcome.next.injEq] at ht hu
  subst ht hu
  exact hbody.codecCommand_twice off n s

/-! ## The transactions and the environment's answers -/

/-- Settles O23: an answer is the next of the queue, or the oracle's where the queue is empty, after the cut. -/
theorem answersAreTheEnvironments : Obligations.AnswersAreTheEnvironments := by
  intro s tx
  refine ⟨nextReply_legal s tx, fun r rest hr => ?_, fun hr => ?_, fun _ => fit_of_legal⟩
  · rw [State.nextReply, hr, List.headD_cons]
  · rw [State.nextReply, hr, List.headD_nil]

/-- Settles O22: what `Ran` says of the transactions of a command. -/
theorem transactionsAreTheBlocksOwn : Obligations.TransactionsAreTheBlocksOwn := by
  intro i s t hi h
  obtain ⟨added, htrace, hreplies, -, hproper, htaken⟩ := (ran_of_exec hi h).grown
  exact ⟨added, htrace, hreplies, hproper, htaken⟩

end Sys2Proof.Machine

namespace Sys2Proof

/-! # The encoding: the round trip, the legal headers, the operands, the payload and the response -/

/-! ## The round trip -/

theorem wellFormed_iff {i : Instr} : WellFormed i ↔ i.payload.length = i.payloadLength := by
  simp [WellFormed, Instr.wellFormed]

/-- What `decode` asks of a payload (R76). -/
theorem decode_eq_instr_iff {c : Command} {i : Instr} :
    decode c = .instr i
      ↔ c.payload.length = payloadLength c.header ∧ decodeHeader c.header c.payload = .instr i := by
  unfold decode
  split <;> simp [*]

/-- A command's own fields and payload decode to it (R72, R73). -/
theorem decodeHeader_fields_bits (i : Instr) : decodeHeader i.fields.bits i.payload = .instr i := by
  have hof := Header.ofBits_bits i.fields
  rw [decodeHeader_of i.payload i.op, hof, Instr.build_fields]
  · rw [hof, Instr.fields_op]
  · rw [hof, Instr.clear_fields]

/-- Settles O1: the header decodes, and the payload of a well-formed command has the announced length. -/
theorem decodeInvertsEncode : Obligations.DecodeInvertsEncode := by
  intro i hi
  refine decode_eq_instr_iff.mpr ⟨?_, decodeHeader_fields_bits i⟩
  calc i.payload.length = i.payloadLength := wellFormed_iff.mp hi
    _ = payloadLength i.fields.bits := (payloadLength_fields i).symm

/-- A legal header is the header of the command it spells (R72, R74). -/
theorem fields_bits_of_decodeHeader {w : HeaderBits} {payload : List Byte} {i : Instr}
    (h : decodeHeader w payload = .instr i) : i.fields.bits = w := by
  obtain ⟨hop, hclear, hbuild⟩ := decodeHeader_instr h
  rw [hbuild, Op.fields_build _ _ _ hop hclear, Header.bits_ofBits]

/-- A decoded command carries the payload that stands beside its header, or none (R72). -/
theorem payload_of_decodeHeader {w : HeaderBits} {payload : List Byte} {i : Instr}
    (h : decodeHeader w payload = .instr i) : i.payload = payload ∨ i.payload = [] := by
  obtain ⟨-, -, hbuild⟩ := decodeHeader_instr h
  rw [hbuild]
  cases i.op
  case bulkwr | dmawrite => exact .inl rfl
  all_goals exact .inr rfl

/-- Settles O2: the header is that of the command's fields; the payload is the command's, or both are empty, because they
are as long as the header announces. -/
theorem encodeInvertsDecode : Obligations.EncodeInvertsDecode := by
  intro c i h
  have hwf := Machine.decode_wellFormed h
  obtain ⟨hlen, hdec⟩ := decode_eq_instr_iff.mp h
  have hbits := fields_bits_of_decodeHeader hdec
  have hsame : i.payload.length = c.payload.length := by
    rw [wellFormed_iff.mp hwf, hlen, ← hbits, payloadLength_fields]
  have hpayload : i.payload = c.payload := by
    rcases payload_of_decodeHeader hdec with hp | hp
    · exact hp
    · rw [hp, List.length_nil] at hsame
      rw [hp, List.eq_nil_of_length_eq_zero hsame.symm]
  refine ⟨?_, hwf⟩
  rw [encode, hbits, hpayload]

/-! ## The rows of the opcode table -/

/-- The opcode table has one row for each operation, its own (R72). -/
theorem opcodeRows_eq : Machine.opcodeRows = Op.all.map fun op => (op, op.rowMask.bits, op.rowValue.bits) := by
  decide

/-- No fixed bit stands in `OP`, which each row gives as a whole (R72). -/
theorem Op.fixed_op (op : Op) : op.fixed.op = 0 := by cases op <;> rfl

/-- A header fits an operation's row when it has the operation's `OP` and sets no fixed bit (R72, R74). -/
theorem fits_row_iff (w : HeaderBits) (op : Op) :
    w &&& op.rowMask.bits = op.rowValue.bits
      ↔ (Header.ofBits w).op = op.code ∧ Header.clear op.fixed (Header.ofBits w) = true := by
  have hall (b : Byte) : b &&& 255#8 = b := BitVec.and_allOnes
  generalize hh : Header.ofBits w = h
  have hw : w = h.bits := hh ▸ (Header.bits_ofBits w).symm
  rw [hw, Header.bits_and]
  refine (Iff.intro Header.bits_inj (congrArg Header.bits)).trans ?_
  simp [Op.rowMask, Op.rowValue, Header.clear, op.fixed_op, hall, and_assoc]

/-- A header is a command or illegal, whatever stands beside it (R74). -/
theorem decodeHeader_total (w : HeaderBits) (payload : List Byte) :
    (∃ i, decodeHeader w payload = .instr i) ∨ ∃ why, decodeHeader w payload = .illegal why := by
  unfold decodeHeader
  dsimp only
  split
  · exact .inr ⟨_, rfl⟩
  · split
    · exact .inl ⟨_, rfl⟩
    · exact .inr ⟨_, rfl⟩

/-- Settles O3: a row is fitted by the headers that `decodeHeader` reads as its operation. -/
theorem legalHeadersAreTheTableRows : Obligations.LegalHeadersAreTheTableRows := by
  intro w payload
  refine ⟨fun row hrow hfit => ?_, fun hnone => ?_⟩
  · rw [opcodeRows_eq] at hrow
    obtain ⟨op, -, rfl⟩ := List.mem_map.mp hrow
    obtain ⟨hop, hclear⟩ := (fits_row_iff w op).mp hfit
    exact ⟨_, decodeHeader_of payload op hop hclear, op.op_build _ _⟩
  · refine (decodeHeader_total w payload).resolve_left fun ⟨i, hi⟩ => ?_
    obtain ⟨hop, hclear, -⟩ := decodeHeader_instr hi
    exact hnone _ i.op.row_mem ((fits_row_iff w i.op).mpr ⟨hop, hclear⟩)

/-! ## The operands -/

/-- Settles O4: the operands that each operation takes from the header's fields. -/
theorem operandsAreHeaderFields : Obligations.OperandsAreHeaderFields := by
  intro w payload i h
  obtain ⟨-, -, hbuild⟩ := decodeHeader_instr h
  rw [hbuild]
  generalize i.op = op
  cases op <;> simp [Op.build, Header.ofBits, BitVec.setWidth_extractLsb'_of_le]

end Sys2Proof

namespace Sys2Proof.Machine

/-! ## The payload and the response -/

/-- Settles O8: the announced length is `payloadLength`, by which the port tells a command from what is none. -/
theorem payloadLengthDecides : Obligations.PayloadLengthDecides := by
  intro s c rest hs hh announced
  have hann : announced = payloadLength c.header := rfl
  rw [hann, step_of_idle hs hh]
  rcases runCommand_cases c { s with host := rest } with ⟨hlen, hrefused⟩ | ⟨hlen, hran⟩
  · exact ⟨fun h => absurd h hlen, fun _ => hrefused⟩
  · refine ⟨fun _ => ?_, fun h => absurd hlen h⟩
    rcases hran with ⟨i, t, -, -, hnext, -, hframe⟩ | ⟨why, -, hnext⟩
    · exact ⟨t, hnext, hframe.host⟩
    · exact ⟨_, hnext, rfl⟩

/-- Settles O9: what `Ran` says of the response. -/
theorem oneResponsePerCommand : Obligations.OneResponsePerCommand := by
  intro i s hi
  obtain ⟨t, hnext, hran⟩ := exec_ran i s hi
  refine ⟨t, hnext, hran.answers, ?_⟩
  have hdout := hran.dout
  cases i <;> exact hdout

end Sys2Proof.Machine

namespace Sys2Proof.Machine

/-! # The codec: fields, integers, and what its setters leave -/

/-! ## A codec command, inside the image and beyond it -/

@[simp] theorem riByte_goto (s : State) (p : Seq) (a : Nat) : (s.goto p).riByte a = s.riByte a := rfl

/-- Beyond the image a codec command only answers (R43). -/
theorem codecCommand_beyond {off n : Nat} (s : State) (body : State → State × Word) (h : 1817 < off + n - 1) :
    AnswersOnly s (codecCommand off n s body) .boundsFault 0 [] := by
  have hout : inRange off n = false := by simp [inRange, Config.riSize]; omega
  rw [codecCommand_out hout]
  exact respond_answersOnly _ _ _ _

section
variable {off n : Nat} (s : State) (hn : 1 ≤ n) (hin : off + n - 1 ≤ 1817)
include hn hin

/-- Inside the image a getter answers what its body reads (R90). -/
theorem codecCommand_get (f : State → Word) :
    AnswersOnly s (codecCommand off n s fun u => (u, f u)) .ok (f (s.goto (Seq.idle.enter .codec))) [] := by
  rw [codecCommand_in ((inRange_iff off n hn).mpr hin)]
  exact respond_answersOnly s _ _ _

/-- Inside the image a setter leaves the bytes its body leaves, and nothing else changes but the response (R90). -/
theorem codecCommand_set (g : State → State) (hg : ∀ u, ImageOnly u (g u)) :
    Answers s (codecCommand off n s fun u => (g u, 0)) .ok 0 []
      ∧ CodecFrame s (codecCommand off n s fun u => (g u, 0))
      ∧ SameImage (g (s.goto (Seq.idle.enter .codec))) (codecCommand off n s fun u => (g u, 0)) := by
  rw [codecCommand_in ((inRange_iff off n hn).mpr hin)]
  obtain ⟨hanswers, hframe⟩ := (hg (s.goto (Seq.idle.enter .codec))).respond .ok 0 []
  exact ⟨hanswers, hframe, fun _ => rfl⟩

end

/-! ## Fields of one byte -/

/-- A mask has one lowest set bit (R92). -/
theorem IsLsb.unique {m : Byte} {j k : Nat} (hj : IsLsb m j) (hk : IsLsb m k) : j = k := by
  rcases hj with ⟨h0, rfl⟩ | ⟨hj, hjmin⟩ <;> rcases hk with ⟨h0', rfl⟩ | ⟨hk, hkmin⟩
  · rfl
  · simp [h0] at hk
  · simp [h0'] at hj
  · by_contra hne
    rcases Nat.lt_or_gt_of_ne hne with hlt | hlt
    · simp [hkmin j hlt] at hj
    · simp [hjmin k hlt] at hk

/-- The byte with a field set, in the words of R93. -/
theorem setField_of_isLsb {m : Byte} {k : Nat} (h : IsLsb m k) (v b : Byte) :
    (b &&& ~~~m) ||| ((v <<< k) &&& m) = setField m v b := by
  rw [h.unique (lsb_isLsb m), setField]

/-- Settles O26: the getter's body reads one field. -/
theorem bfgetReturnsTheField : Obligations.BfgetReturnsTheField := by
  intro off mask s
  refine ⟨_, lsb mask, rfl, rfl, lsb_isLsb mask, fun hin => ?_, fun hout => codecCommand_beyond s _ hout⟩
  exact codecCommand_get s le_rfl hin _

/-- Settles O27: the setter's body writes one byte. -/
theorem bfsetWritesTheField : Obligations.BfsetWritesTheField := by
  intro off mask val s
  refine ⟨_, lsb mask, rfl, rfl, lsb_isLsb mask, fun hin => ?_, fun hout => codecCommand_beyond s _ hout⟩
  obtain ⟨hanswers, hframe, himage⟩ := codecCommand_set s le_rfl hin _ fun u =>
    memWrite_imageOnly u off.toNat [setField mask val (u.riByte off.toNat)]
  refine ⟨hanswers, hframe, fun a => ?_⟩
  refine (himage a).trans ?_
  rw [riByte_memWrite_one, riByte_goto, riByte_goto]
  split
  · next ha => rw [ha, setField]
  · rfl

/-- Settles O28: BFSET leaves `setField` in the byte and BFGET answers its `getField`. -/
theorem singleByteLaws : Obligations.SingleByteLaws := by
  intro off m v s hin
  obtain ⟨t, k, ht, -, hk, hset, -⟩ := bfsetWritesTheField off m v s
  obtain ⟨u, l, hu, -, hl, hget, -⟩ := bfgetReturnsTheField off m t
  obtain ⟨-, -, himage⟩ := hset hin
  obtain ⟨hanswers, -⟩ := hget hin
  have hbyte : t.riByte off.toNat = setField m v (s.riByte off.toNat) := by
    rw [himage, if_pos rfl, setField_of_isLsb hk]
  refine ⟨t, u, k, ht, hu, hk, ?_, hanswers.status, ?_⟩
  · rw [hbyte, setField_outside]
  · have hfield := getField_setField m v (s.riByte off.toNat)
    rw [getField, fieldWidthMask, ← hbyte, (lsb_isLsb m).unique hk] at hfield
    rw [hanswers.res, hl.unique hk, hfield]

/-! ## Integers -/

theorem byteCount_eq (nm1 : BitVec 2) : byteCount nm1 = nm1.toNat + 1 := rfl

theorem length_memRead (s : State) (a n : Nat) : (s.memRead a n).length = n := by simp [State.memRead]

/-- A little-endian read as a sum (R98). -/
theorem leNat_memRead (s : State) (a n : Nat) :
    leNat (s.memRead a n) = ∑ i ∈ Finset.range n, (s.riByte (a + i)).toNat * 2 ^ (8 * i) := by
  rw [leNat_sum, length_memRead]
  refine Finset.sum_congr rfl fun i hi => ?_
  rw [State.memRead, List.getD_eq_getElem?_getD, List.getElem?_map,
    List.getElem?_range (Finset.mem_range.mp hi), Option.map_some, Option.getD_some]

/-- A big-endian read as a sum (R99). -/
theorem beNat_memRead (s : State) (a n : Nat) :
    beNat (s.memRead a n) = ∑ i ∈ Finset.range n, (s.riByte (a + (n - 1 - i))).toNat * 2 ^ (8 * i) := by
  rw [beNat, leNat_sum, List.length_reverse, length_memRead]
  refine Finset.sum_congr rfl fun i hi => ?_
  have hlt := Finset.mem_range.mp hi
  rw [List.getD_eq_getElem?_getD, List.getElem?_reverse (by rwa [length_memRead]), length_memRead, State.memRead,
    List.getElem?_map, List.getElem?_range (by omega), Option.map_some, Option.getD_some]

/-- Settles O31: the getter's body reads the bytes little-endian. -/
theorem getleReturnsTheInteger : Obligations.GetleReturnsTheInteger := by
  intro nm1 off s
  refine ⟨_, rfl, rfl, fun hin => ?_, fun hout => codecCommand_beyond s _ hout⟩
  rw [← leNat_memRead]
  exact codecCommand_get s (byteCount_range nm1).1 hin _

/-- Settles O32: the getter's body reads the bytes big-endian. -/
theorem getbeReturnsTheInteger : Obligations.GetbeReturnsTheInteger := by
  intro nm1 off s
  refine ⟨_, rfl, rfl, fun hin => ?_, fun hout => codecCommand_beyond s _ hout⟩
  have hsum := beNat_memRead s off.toNat (byteCount nm1)
  simp only [byteCount_eq, Nat.add_sub_cancel] at hsum
  rw [← hsum]
  exact codecCommand_get s (byteCount_range nm1).1 hin _

/-- The bytes a run of writes leaves: those written, and outside them those before. -/
theorem riByte_memWrite_inside (s : State) (a i : Nat) {bs : List Byte} {b : Byte} (h : bs[i]? = some b) :
    (s.memWrite a bs).riByte (a + i) = b := by
  obtain ⟨hi, rfl⟩ := List.getElem?_eq_some_iff.mp h
  rw [riByte_memWrite, dif_pos ⟨by omega, by omega⟩]
  simp

theorem riByte_memWrite_outside (s : State) (a x : Nat) {bs : List Byte} (h : x < a ∨ a + bs.length ≤ x) :
    (s.memWrite a bs).riByte x = s.riByte x := by
  rw [riByte_memWrite, dif_neg (by omega)]

/-- An integer setter, in either byte order: the bytes it writes and what it leaves (R100, R101). -/
theorem codecCommand_memWrite {off n : Nat} {bs : List Byte} {s t : State}
    (ht : t = codecCommand off n s fun u => (u.memWrite off bs, 0)) (hlen : bs.length = n) (hn : 1 ≤ n)
    (hin : off + n - 1 ≤ 1817) :
    Answers s t .ok 0 [] ∧ CodecFrame s t ∧ (∀ i b, bs[i]? = some b → t.riByte (off + i) = b)
      ∧ ∀ a, a < off ∨ off + n ≤ a → t.riByte a = s.riByte a := by
  obtain ⟨hanswers, hframe, himage⟩ := codecCommand_set s hn hin _ fun u => memWrite_imageOnly u off bs
  subst ht
  refine ⟨hanswers, hframe, fun i b hb => ?_, fun a ha => ?_⟩
  · exact (himage _).trans (riByte_memWrite_inside _ _ _ hb)
  · exact (himage a).trans (riByte_memWrite_outside _ _ _ (by rwa [hlen]))

/-- Settles O33: the setter's body writes the value's bytes, least significant first. -/
theorem setleStoresTheInteger : Obligations.SetleStoresTheInteger := by
  intro nm1 off val s
  refine ⟨_, rfl, rfl, fun hin => ?_, fun hout => codecCommand_beyond s _ hout⟩
  obtain ⟨hanswers, hframe, hbytes, houtside⟩ :=
    codecCommand_memWrite rfl (length_leBytes (byteCount nm1) val) (byteCount_range nm1).1 hin
  exact ⟨hanswers, hframe, fun i hi => hbytes i _ (leBytes_getElem? _ val i hi), houtside⟩

/-- Settles O34: the setter's body writes the value's bytes, most significant first. -/
theorem setbeStoresTheInteger : Obligations.SetbeStoresTheInteger := by
  intro nm1 off val s
  refine ⟨_, rfl, rfl, fun hin => ?_, fun hout => codecCommand_beyond s _ hout⟩
  obtain ⟨hanswers, hframe, hbytes, houtside⟩ :=
    codecCommand_memWrite rfl (length_beBytes (byteCount nm1) val) (byteCount_range nm1).1 hin
  exact ⟨hanswers, hframe, fun i hi => hbytes i _ (beBytes_getElem? _ val i hi), houtside⟩

/-! ## The integer accessors one after the other -/

/-- The low `n` bytes of a value make up the value modulo `2^(8n)`. -/
theorem sum_value_bytes (v : Word) (n : Nat) :
    ∑ i ∈ Finset.range n, (v.extractLsb' (8 * i) 8).toNat * 2 ^ (8 * i) = v.toNat % 2 ^ (8 * n) := by
  induction n with
  | zero => simp [Nat.mod_one]
  | succ n ih =>
    rw [Finset.sum_range_succ, ih, Nat.mul_succ, Nat.pow_add, Nat.mod_mul, BitVec.extractLsb'_toNat,
      Nat.shiftRight_eq_div_pow, Nat.mul_comm (2 ^ (8 * n))]

/-- `n` bytes make up a value below `2^(8n)`. -/
theorem sum_bytes_lt (b : Nat → Byte) (n : Nat) :
    ∑ i ∈ Finset.range n, (b i).toNat * 2 ^ (8 * i) < 2 ^ (8 * n) := by
  induction n with
  | zero => simp
  | succ n ih =>
    have hbyte : (b n).toNat * 2 ^ (8 * n) ≤ 255 * 2 ^ (8 * n) := Nat.mul_le_mul_right _ (by have := (b n).isLt; omega)
    rw [Finset.sum_range_succ, Nat.mul_succ, Nat.pow_add]
    omega

/-- The bytes of an integer command fit `RES`. -/
theorem toNat_ofNat_sum_bytes (b : Nat → Byte) (nm1 : BitVec 2) :
    (BitVec.ofNat 32 (∑ i ∈ Finset.range (nm1.toNat + 1), (b i).toNat * 2 ^ (8 * i))).toNat
      = ∑ i ∈ Finset.range (nm1.toNat + 1), (b i).toNat * 2 ^ (8 * i) := by
  have hfits : 2 ^ (8 * (nm1.toNat + 1)) ≤ 2 ^ 32 := Nat.pow_le_pow_right (by decide) (by have := nm1.isLt; omega)
  rw [BitVec.toNat_ofNat, Nat.mod_eq_of_lt ((sum_bytes_lt b _).trans_le hfits)]

/-- GETLE in bounds: it answers the integer and leaves the image. -/
theorem exec_getle_in {nm1 : BitVec 2} {off : Half} (hin : off.toNat + (nm1.toNat + 1) - 1 ≤ 1817) (s : State) :
    ∃ t, exec (.getle nm1 off) s = .next t ∧ SameImage s t
      ∧ t.res.toNat = ∑ i ∈ Finset.range (nm1.toNat + 1), (s.riByte (off.toNat + i)).toNat * 2 ^ (8 * i) := by
  obtain ⟨t, ht, -, hget, -⟩ := getleReturnsTheInteger nm1 off s
  obtain ⟨hanswers, hquiet⟩ := hget hin
  exact ⟨t, ht, hquiet.image, by rw [hanswers.res, toNat_ofNat_sum_bytes fun i => s.riByte (off.toNat + i)]⟩

/-- GETBE in bounds: it answers the integer and leaves the image. -/
theorem exec_getbe_in {nm1 : BitVec 2} {off : Half} (hin : off.toNat + (nm1.toNat + 1) - 1 ≤ 1817) (s : State) :
    ∃ t, exec (.getbe nm1 off) s = .next t ∧ SameImage s t
      ∧ t.res.toNat
        = ∑ i ∈ Finset.range (nm1.toNat + 1), (s.riByte (off.toNat + (nm1.toNat - i))).toNat * 2 ^ (8 * i) := by
  obtain ⟨t, ht, -, hget, -⟩ := getbeReturnsTheInteger nm1 off s
  obtain ⟨hanswers, hquiet⟩ := hget hin
  refine ⟨t, ht, hquiet.image, ?_⟩
  rw [hanswers.res, toNat_ofNat_sum_bytes fun i => s.riByte (off.toNat + (nm1.toNat - i))]

/-- Settles O35: each getter answers the sum of the bytes that the setter before it left. -/
theorem integerRoundTrips : Obligations.IntegerRoundTrips := by
  intro nm1 off val s hin
  obtain ⟨t, ht, -, hsetle, -⟩ := setleStoresTheInteger nm1 off val s
  obtain ⟨-, -, hlittle, -⟩ := hsetle hin
  obtain ⟨t', ht', -, hsetbe, -⟩ := setbeStoresTheInteger nm1 off val s
  obtain ⟨-, -, hbig, -⟩ := hsetbe hin
  obtain ⟨le, hle, hleimage, hleres⟩ := exec_getle_in hin t
  obtain ⟨again, hagain, -, hagainres⟩ := exec_getle_in hin le
  obtain ⟨be, hbe, hbeimage, hberes⟩ := exec_getbe_in hin t
  obtain ⟨again', hagain', -, hagainres'⟩ := exec_getbe_in hin be
  obtain ⟨be', hbe', -, hberes'⟩ := exec_getbe_in hin t'
  refine ⟨t, le, again, be, again', t', be', ht, hle, ?_, hagain, BitVec.eq_of_toNat_eq ?_, hbe, hagain',
    BitVec.eq_of_toNat_eq ?_, ?_, ht', hbe', ?_⟩
  · rw [hleres, ← sum_value_bytes]
    exact Finset.sum_congr rfl fun i hi => by rw [hlittle i (Finset.mem_range.mp hi)]
  · rw [hagainres, hleres]
    exact Finset.sum_congr rfl fun i _ => by rw [hleimage]
  · rw [hagainres', hberes]
    exact Finset.sum_congr rfl fun i _ => by rw [hbeimage]
  · rw [hberes]
    exact Finset.sum_congr rfl fun i _ => by rw [hlittle _ (by omega)]
  · rw [hberes', ← sum_value_bytes]
    refine Finset.sum_congr rfl fun i hi => ?_
    have hlt := Finset.mem_range.mp hi
    rw [hbig _ (by omega), Nat.sub_sub_self (by omega)]

/-! ## Wide masks -/

/-- Settles O29: `wideSet_first` over the mask bytes of the span. -/
theorem wbfsetPlacesTheBits : Obligations.WbfsetPlacesTheBits := by
  intro off mask val s
  refine ⟨_, span mask, rfl, rfl, span_isSpan mask, fun hout => codecCommand_beyond s _ hout, fun hin => ?_⟩
  obtain ⟨hanswers, hframe, himage⟩ := codecCommand_set s (Nat.le_max_right _ _) hin _ fun u =>
    wideSet_imageOnly off.toNat false val ((maskBytes mask).take (span mask)) u
  refine ⟨hanswers, hframe, fun a ha => ?_, fun first hfirst hne hzero => ?_⟩
  · exact (himage a).trans (wideSet_outside _ _ _ _ _ _ (by rwa [length_maskBytes_take]))
  · have hspan := lt_span_of_ne mask first hfirst hne
    have hskip : ∀ j, j < first → ((maskBytes mask).take (span mask))[j]? = some 0 := fun j hj => by
      rw [maskBytes_take_getElem? mask j (by omega), hzero j hj]
    obtain ⟨hplaced, hlater⟩ := wideSet_first off.toNat val _ (s.goto (Seq.idle.enter .codec)) first _ hskip
      (maskBytes_take_getElem? mask first hspan) hne
    refine ⟨lsb _, lsb_isLsb _, fun j hj => ?_, (himage _).trans hplaced, fun j hj hjspan => ⟨lsb _, lsb_isLsb _, ?_⟩⟩
    · exact (himage _).trans (wideSet_skipped _ _ _ _ first hskip j hj)
    · exact (himage _).trans (hlater j _ hj (maskBytes_take_getElem? mask j hjspan))

/-! ## Contiguous wide masks -/

/-- The bits of a mask of `w` contiguous bits from bit `p` up (R97). -/
def IsRun (mask : Word) (w p : Nat) : Prop :=
  ∀ i, mask.getLsbD i = decide (p ≤ i ∧ i < p + w)

theorem isRun_ofNat {w p : Nat} (h : p + w ≤ 32) : IsRun (BitVec.ofNat 32 ((2 ^ w - 1) * 2 ^ p)) w p := by
  intro i
  rw [BitVec.getLsbD_ofNat, Nat.testBit_mul_two_pow, Nat.testBit_two_pow_sub_one, ← Bool.decide_and, ← Bool.decide_and]
  exact decide_eq_decide.mpr (by omega)

theorem getLsbD_maskByte (mask : Word) {j b : Nat} (hb : b < 8) :
    (mask.extractLsb' (8 * j) 8).getLsbD b = mask.getLsbD (8 * j + b) := by
  rw [BitVec.getLsbD_extractLsb', decide_eq_true hb, Bool.true_and]

section
variable {mask : Word} {w p : Nat} (hrun : IsRun mask w p)
include hrun

theorem IsRun.le_of_getLsbD {i : Nat} (hi : mask.getLsbD i = true) : p ≤ i := by
  rw [hrun, decide_eq_true_eq] at hi
  exact hi.1

theorem IsRun.getLsbD_byte {j b : Nat} (hb : b < 8) :
    (mask.extractLsb' (8 * j) 8).getLsbD b = decide (p ≤ 8 * j + b ∧ 8 * j + b < p + w) := by
  rw [getLsbD_maskByte mask hb, hrun]

/-- The mask bytes below and above the run are zero. -/
theorem IsRun.byte_eq_zero {j : Nat} (h : j < p / 8 ∨ (p + w - 1) / 8 < j) : mask.extractLsb' (8 * j) 8 = 0 := by
  refine BitVec.eq_of_getLsbD_eq fun b hb => ?_
  rw [hrun.getLsbD_byte hb, decide_eq_false (by omega), BitVec.ofNat_eq_ofNat, BitVec.getLsbD_zero]

variable (hw : 1 ≤ w)
include hw

/-- The first mask byte of the run starts at the run's own lowest bit, every later one at bit 0. -/
theorem IsRun.byte_isLsb {j : Nat} (hlow : p / 8 ≤ j) (hhigh : j ≤ (p + w - 1) / 8) :
    IsLsb (mask.extractLsb' (8 * j) 8) (p - 8 * j) := by
  refine .inr ⟨?_, fun b hb => ?_⟩
  · rw [hrun.getLsbD_byte (by omega), decide_eq_true (by omega)]
  · rw [hrun.getLsbD_byte (by omega), decide_eq_false (by omega)]

theorem IsRun.byte_ne_zero {j : Nat} (hlow : p / 8 ≤ j) (hhigh : j ≤ (p + w - 1) / 8) :
    mask.extractLsb' (8 * j) 8 ≠ 0 := by
  intro h0
  have hbit := hrun.getLsbD_byte (j := j) (b := p - 8 * j) (by omega)
  rw [h0, decide_eq_true (by omega)] at hbit
  simp at hbit

/-- The span ends with the byte of the run's highest bit (R95). -/
theorem IsRun.span_eq (h32 : p + w ≤ 32) {n : Nat} (hn : IsSpan mask n) : n = (p + w - 1) / 8 + 1 := by
  have hne := hrun.byte_ne_zero hw (j := (p + w - 1) / 8) (by omega) le_rfl
  rcases hn with ⟨h0, -⟩ | ⟨hpos, -, hlast, hzero⟩
  · exact absurd (by simp [h0]) hne
  · have hle : ¬ n ≤ (p + w - 1) / 8 := fun hle => hne (hzero _ hle (by omega))
    have hge : ¬ (p + w - 1) / 8 < n - 1 := fun hlt => hlast (hrun.byte_eq_zero (.inr hlt))
    omega

end

/-- No bit of a mask stands below its lowest set bit. -/
theorem IsLsb.le_of_getLsbD {m : Byte} {k i : Nat} (hk : IsLsb m k) (hi : m.getLsbD i = true) : k ≤ i := by
  rcases hk with ⟨h0, rfl⟩ | ⟨-, hmin⟩
  · exact Nat.zero_le i
  · by_contra hlt
    simp [hmin i (by omega)] at hi

/-- A bit after a masked store at bit `k`: under the mask a bit of the value, elsewhere the bit before (R93, R97). -/
theorem getLsbD_maskedStore {n k i : Nat} (x v m : BitVec n) (hi : i < n) (hk : m.getLsbD i = true → k ≤ i) :
    ((x &&& ~~~m) ||| ((v <<< k) &&& m)).getLsbD i = if m.getLsbD i then v.getLsbD (i - k) else x.getLsbD i := by
  simp only [BitVec.getLsbD_or, BitVec.getLsbD_and, BitVec.getLsbD_not, BitVec.getLsbD_shiftLeft]
  cases hm : m.getLsbD i
  · simp [hi]
  · simp [hi, hk hm]

theorem getLsbD_imageWord (s : State) (a : Nat) {j b : Nat} (hj : j < 4) (hb : b < 8) :
    (imageWord s a).getLsbD (8 * j + b) = (s.riByte (a + j)).getLsbD b := by
  simp only [imageWord, BitVec.getLsbD_append]
  interval_cases j
  · rw [if_pos (by omega)]; simp
  · rw [if_neg (by omega), if_pos (by omega)]; simp
  · rw [if_neg (by omega), if_neg (by omega), if_pos (by omega)]
    congr 1; omega
  · rw [if_neg (by omega), if_neg (by omega), if_neg (by omega)]
    congr 1; omega

/-- Two words with the same bits in each byte are the same. -/
theorem word_ext_bytes {x y : Word} (h : ∀ j b, j < 4 → b < 8 → x.getLsbD (8 * j + b) = y.getLsbD (8 * j + b)) :
    x = y := by
  refine BitVec.eq_of_getLsbD_eq fun i hi => ?_
  have hi' := h (i / 8) (i % 8) (by omega) (by omega)
  rwa [Nat.div_add_mod] at hi'

/-- WBFSET under a contiguous mask, bit by bit: bit `p + i` of the four bytes takes bit `i` of the value (R97). -/
theorem exec_wbfset_run {mask : Word} {w p : Nat} (hrun : IsRun mask w p) (hw : 1 ≤ w) (h32 : p + w ≤ 32) (off : Half)
    (val : Word) (s : State) (hin : off.toNat + (p + w - 1) / 8 ≤ 1817) :
    ∃ t, exec (.wbfset off mask val) s = .next t ∧ t.status = .ok ∧ ∀ j b, j < 4 → b < 8 →
      (t.riByte (off.toNat + j)).getLsbD b
        = if mask.getLsbD (8 * j + b) then val.getLsbD (8 * j + b - p) else (s.riByte (off.toNat + j)).getLsbD b := by
  obtain ⟨t, n, ht, -, hn, -, hset⟩ := wbfsetPlacesTheBits off mask val s
  have hspan := hrun.span_eq hw h32 hn
  obtain ⟨hanswers, -, houtside, hplaced⟩ := hset (by omega)
  obtain ⟨q, hq, hbefore, hfirst, hlater⟩ := hplaced (p / 8) (by omega)
    (hrun.byte_ne_zero hw le_rfl (by omega)) fun j hj => hrun.byte_eq_zero (.inl hj)
  have hqp : q = p - 8 * (p / 8) := hq.unique (hrun.byte_isLsb hw le_rfl (by omega))
  refine ⟨t, ht, hanswers.status, fun j b hj hb => ?_⟩
  rcases Nat.lt_trichotomy j (p / 8) with hlt | rfl | hgt
  · rw [hbefore j hlt, hrun, decide_eq_false (by omega), if_neg Bool.false_ne_true]
  · rw [hfirst, getLsbD_maskedStore _ _ _ hb hq.le_of_getLsbD, getLsbD_maskByte mask hb]
    split
    · next hm =>
      have := hrun.le_of_getLsbD hm
      rw [BitVec.getLsbD_setWidth, decide_eq_true (by omega), Bool.true_and]
      congr 1; omega
    · rfl
  · rcases Nat.lt_or_ge j n with hjn | hjn
    · obtain ⟨r, hr, hbyte⟩ := hlater j hgt hjn
      have hr0 : r = p - 8 * j := hr.unique (hrun.byte_isLsb hw (by omega) (by omega))
      rw [hbyte, getLsbD_maskedStore _ _ _ hb hr.le_of_getLsbD, getLsbD_maskByte mask hb, BitVec.getLsbD_setWidth,
        decide_eq_true (by omega), Bool.true_and, BitVec.getLsbD_ushiftRight]
      congr 2; omega
    · rw [houtside _ (.inr (by omega)), hrun, decide_eq_false (by omega), if_neg Bool.false_ne_true]

/-- Settles O30: the field store has the bits of `exec_wbfset_run`. -/
theorem wbfsetContiguousIsAFieldStore : Obligations.WbfsetContiguousIsAFieldStore := by
  intro off w p val s hw h32 hin mask
  have hrun : IsRun mask w p := isRun_ofNat h32
  obtain ⟨t, ht, hok, hbits⟩ := exec_wbfset_run hrun hw h32 off val s hin
  refine ⟨t, ht, hok, word_ext_bytes fun j b hj hb => ?_⟩
  rw [getLsbD_imageWord t _ hj hb, hbits j b hj hb, getLsbD_maskedStore _ _ _ (by omega) hrun.le_of_getLsbD,
    getLsbD_imageWord s _ hj hb]

/-! ## What the setters leave -/

/-- One masked byte leaves the bits outside its mask (R94). -/
theorem riByte_setField_outside (s : State) (a x : Nat) {m m' : Byte} (v : Byte) (h : a = x → m' = m) :
    (s.memWrite a [setField m' v (s.riByte a)]).riByte x &&& ~~~m = s.riByte x &&& ~~~m := by
  rw [riByte_memWrite_one]
  split
  · next hx => rw [h hx.symm, hx, setField_outside]
  · rfl

/-- The loop of WBFSET leaves the bits outside a byte's own mask byte. -/
theorem wideSet_keeps (a : Nat) (started : Bool) (d : Word) (ms : List Byte) (s : State) (x : Nat) (m : Byte)
    (h : ∀ j m', ms[j]? = some m' → a + j = x → m' = m) :
    (wideSet a started d ms s).riByte x &&& ~~~m = s.riByte x &&& ~~~m := by
  induction ms generalizing a started d s with
  | nil => rfl
  | cons m₀ ms ih =>
    have hrest : ∀ j m', ms[j]? = some m' → a + 1 + j = x → m' = m := fun j m' hj hx =>
      h (j + 1) m' (by simpa using hj) (by omega)
    simp only [wideSet]
    split
    · exact ih _ _ _ _ hrest
    · rw [ih _ _ _ _ hrest]
      exact riByte_setField_outside _ _ _ _ (h 0 m₀ rfl)

/-- Integer bytes leave the bytes they do not touch. -/
theorem riByte_memWrite_keeps (s : State) (a x n : Nat) {bs : List Byte} (hlen : bs.length = n) :
    (s.memWrite a bs).riByte x &&& ~~~(if a ≤ x ∧ x < a + n then 0xFF else 0)
      = s.riByte x &&& ~~~(if a ≤ x ∧ x < a + n then 0xFF else 0) := by
  split
  · simp
  · rw [riByte_memWrite_outside _ _ _ (by omega)]

/-- A setter is a codec command whose body keeps every bit that is not `settable` (R103). -/
theorem exec_setter_keeps {i : Instr} (h : i.op ∈ [Op.bfset, .wbfset, .setle, .setbe]) :
    ∃ off n body, (∀ s, exec i s = .next (codecCommand off n s body))
      ∧ ∀ u a, (body u).1.riByte a &&& ~~~settable i a = u.riByte a &&& ~~~settable i a := by
  cases i
  case bfset off mask val =>
    exact ⟨_, _, _, fun _ => rfl, fun u a => riByte_setField_outside u _ a val fun h => (if_pos h.symm).symm⟩
  case wbfset off mask val =>
    refine ⟨_, _, _, fun _ => rfl, fun u a => wideSet_keeps _ _ _ _ u a _ fun j m hj ha => ?_⟩
    have hlt : j < span mask := by
      rw [← length_maskBytes_take]
      exact (List.getElem?_eq_some_iff.mp hj).1
    rw [maskBytes_take_getElem? mask j hlt, Option.some.injEq] at hj
    have := span_le mask
    rw [settable, if_pos (by omega), ← hj, ← ha, Nat.add_sub_cancel_left]
  case setle nm1 off val =>
    exact ⟨_, _, _, fun _ => rfl, fun u a => riByte_memWrite_keeps u _ a _ (length_leBytes _ val)⟩
  case setbe nm1 off val =>
    exact ⟨_, _, _, fun _ => rfl, fun u a => riByte_memWrite_keeps u _ a _ (length_beBytes _ val)⟩
  all_goals simp [Instr.op] at h

/-- Settles O36: inside the image the body keeps the bits, beyond it the command only answers. -/
theorem settersKeepUnrelatedBits : Obligations.SettersKeepUnrelatedBits := by
  intro i s t hop ht
  obtain ⟨off, n, body, hexec, hkeeps⟩ := exec_setter_keeps hop
  rw [hexec, Host.Outcome.next.injEq] at ht
  subst ht
  by_cases hin : inRange off n = true
  · rw [codecCommand_in hin]
    exact ⟨fun _ a => hkeeps (s.goto _) a, fun hne => absurd (respond_status ..) hne⟩
  · rw [codecCommand_out (by simpa using hin)]
    exact ⟨fun _ _ => rfl, fun _ _ => rfl⟩

/-! ## The worked examples' headers -/

/-- Settles O5: each header is the encoding of its command, so `decodeInvertsEncode` decodes it. -/
theorem specWordsDecode : Obligations.SpecWordsDecode :=
  ⟨decodeInvertsEncode (.bfget 0x10 0x38) rfl, decodeInvertsEncode (.wbfset 0x100 0x00FFFFF0 0xABCDE) rfl,
    decodeInvertsEncode (.setbe 2 0x20 0xAABBCCDD) rfl, decodeInvertsEncode (.dmaenrd 4 32 0x102) rfl,
    decodeInvertsEncode (.dmawait 1500) rfl, decodeInvertsEncode (.bulkwr 4 [0xDE, 0xAD, 0xBE, 0xEF]) rfl,
    decodeInvertsEncode (.settype 3) rfl⟩

end Sys2Proof.Machine

namespace Sys2Proof.Machine

/-! # The DMA primitives: their frames, Reset and Cancel, Enable, the poll budget, and the bulk commands -/

/-! ## The DMA registers of the commands without a transfer -/

/-- Only BULKWR and DMAWRITE carry a payload, so every other command is well formed (R76). -/
theorem wellFormed_of_op {i : Instr} (hbulk : i.op ≠ .bulkwr) (hwrite : i.op ≠ .dmawrite) : WellFormed i := by
  cases i
  case bulkwr => exact absurd rfl hbulk
  case dmawrite => exact absurd rfl hwrite
  all_goals rfl

/-- Settles O19: none of these commands carries a payload, so the frame of `Ran` on the DMA registers holds. -/
theorem dmaRegistersKept : Obligations.DmaRegistersKept := by
  intro i s t h hkind
  have hwf : WellFormed i :=
    wellFormed_of_op (fun hop => by simp [isCodec, hop] at hkind) (fun hop => by simp [isCodec, hop] at hkind)
  exact (ran_of_exec hwf h).dma hkind

/-! ## The response after a run of the engine -/

section
variable {n : Nat} {s u : State} (h : Engine n s u) (st : Status) (r : Word) (out : List Byte)
include h

theorem Engine.respond_answers : Answers s (u.respond st r out) st r out :=
  ⟨rfl, rfl, rfl, rfl, by simp [h.responses]⟩

theorem Engine.respond_frame : EngineFrame s (u.respond st r out) :=
  ⟨riByte_congr h.cfg h.ri, h.cfg, h.host⟩

/-- What every primitive but DMAWAIT leaves alone. -/
theorem Engine.respond_keeps (k : Held s u) :
    EngineFrame s (u.respond st r out) ∧ SameWork s (u.respond st r out) ∧ (u.respond st r out).avails = s.avails :=
  ⟨h.respond_frame st r out, ⟨k.attempt, k.polls, h.cand, h.probe, k.scratch⟩, k.avails⟩

end

/-! ## Reset and Cancel -/

/-- One transaction that disarms whatever its answer is: the body of `ResetProc` and `CancelProc` (R111, R115). -/
theorem exchange_disarm_answer {s : State} {tx : Transaction} (p : Seq) (hown : ownTransaction s.cfg tx) :
    let t := (Done.mk (s.exchange p tx).disarm (s.nextReply tx).status).answer
    Answers s t (if (s.nextReply tx).failed then .transportFailure else .ok) 0 []
      ∧ Issued s t [(tx, s.nextReply tx)] ∧ Unarmed t ∧ EngineFrame s t ∧ SameWork s t ∧ t.avails = s.avails := by
  have hengine : Engine 1 s (s.exchange p tx).disarm := (exchange_engine s p tx hown).then (disarm_engine _)
  exact ⟨hengine.respond_answers _ _ _, (exchange_issued s p tx).still rfl rfl, ⟨rfl, rfl, rfl⟩,
    hengine.respond_keeps _ _ _ ((exchange_held s p tx).trans (disarm_held _))⟩

/-- Settles O38: `exchange_disarm_answer` for a Reset. -/
theorem dmaresetForcesIdle : Obligations.DmaresetForcesIdle :=
  fun _ => ⟨_, rfl, rfl, exchange_disarm_answer _ trivial⟩

/-- Settles O39: `exchange_disarm_answer` for a Cancel. -/
theorem dmacancelForcesIdle : Obligations.DmacancelForcesIdle :=
  fun _ => ⟨_, rfl, rfl, exchange_disarm_answer _ trivial⟩

/-! ## Enable -/

/-- R112: a descriptor is invalid when its size is 0 or odd. -/
theorem Desc.valid_eq_false_iff (d : Desc) : d.valid = false ↔ d.size = 0 ∨ d.size.toNat % 2 = 1 := by
  rw [Bool.eq_false_iff, ne_eq, Desc.valid_iff, not_and_or, not_not, Nat.mod_two_not_eq_zero]

section
variable (here : Seq) (dir : Dir) {d : Desc} {s : State}

theorem enableProc_of_invalid (hv : d.valid = false) : enableProc here dir d s = ⟨s, .badOperand⟩ := if_pos hv

variable (hv : d.valid = true)
include hv

theorem enableProc_of_armed (hs : s.dstate ≠ .idle) : enableProc here dir d s = ⟨s, .sequenceFault⟩ := by
  simp [enableProc, hv, hs]

/-- From `IDLE` with a valid descriptor the one transaction is issued, whatever its answer (R113). -/
theorem enableProc_issued (hs : s.dstate = .idle) :
    Issued s (enableProc here dir d s).state [(enableTx dir d, s.nextReply (enableTx dir d))] := by
  have hx := exchange_issued s (here.enter .prim) (enableTx dir d)
  unfold enableProc
  rw [if_neg (by simp [hv]), if_neg (by simp [hs])]
  split
  · exact hx
  · exact hx.still rfl rfl

/-- Its status is the answer's (R113). -/
theorem enableProc_status (hs : s.dstate = .idle) :
    (enableProc here dir d s).status = (s.nextReply (enableTx dir d)).status := by
  unfold enableProc Reply.status
  rw [if_neg (by simp [hv]), if_neg (by simp [hs])]
  split <;> rfl

end

/-- DMAENRD and DMAENWR (R112 to R114): the operand check, the `DSTATE` check, and the transaction's two answers. -/
theorem enableProc_answer (dir : Dir) (d : Desc) (s : State) :
    let t := (enableProc .idle dir d s).answer
    (d.size = 0 ∨ d.size.toNat % 2 = 1 → AnswersOnly s t .badOperand 0 [])
      ∧ (d.size ≠ 0 → d.size.toNat % 2 = 0 → s.dstate ≠ .idle → AnswersOnly s t .sequenceFault 0 [])
      ∧ (d.size ≠ 0 → d.size.toNat % 2 = 0 → s.dstate = .idle →
          let tx := enableTx dir d
          Issued s t [(tx, s.nextReply tx)] ∧ EngineFrame s t ∧ SameWork s t ∧ t.avails = s.avails
            ∧ ((s.nextReply tx).failed = true → Answers s t .transportFailure 0 [] ∧ SameDma s t)
            ∧ ((s.nextReply tx).failed = false → Answers s t .ok 0 []
                ∧ t.dstate = dir.armed ∧ t.desc = d ∧ t.remain = d.size)) := by
  intro t
  refine ⟨fun hbad => ?_, fun hne heven hs => ?_, fun hne heven hs => ?_⟩
  · simp only [t, enableProc_of_invalid .idle dir ((Desc.valid_eq_false_iff d).mpr hbad)]
    exact respond_answersOnly _ _ _ _
  · simp only [t, enableProc_of_armed .idle dir ((Desc.valid_iff d).mpr ⟨hne, heven⟩) hs]
    exact respond_answersOnly _ _ _ _
  · have hv := (Desc.valid_iff d).mpr ⟨hne, heven⟩
    have hengine := enableProc_engine .idle dir d s
    have hissued := enableProc_issued .idle dir hv hs
    have hstatus := enableProc_status .idle dir hv hs
    have hcases := enableProc_cases .idle dir d s hv hs
    obtain ⟨hframe, hwork, havails⟩ :=
      hengine.respond_keeps (enableProc .idle dir d s).status 0 [] (enableProc_held .idle dir d s)
    have hanswers := hengine.respond_answers (enableProc .idle dir d s).status 0 []
    refine ⟨hissued.still rfl rfl, hframe, hwork, havails, fun hfailed => ?_, fun hok => ?_⟩
    · have hst := hstatus.trans (status_of_failed hfailed)
      rcases hcases with ⟨hst', -⟩ | ⟨-, hdma⟩
      · simp [hst] at hst'
      · exact ⟨hst ▸ hanswers, hdma.dstate, hdma.desc, hdma.remain⟩
    · have hst := hstatus.trans ((failed_status _).mpr hok)
      rcases hcases with ⟨-, harmed⟩ | ⟨hst', -⟩
      · exact ⟨hst ▸ hanswers, harmed⟩
      · simp [hst] at hst'

/-- Settles O40: `enableProc_answer` for a read. -/
theorem dmaenrdArmsARead : Obligations.DmaenrdArmsARead :=
  fun cls size options s => ⟨_, rfl, rfl, enableProc_answer .rd ⟨cls, size, options⟩ s⟩

/-- Settles O41: `enableProc_answer` for a write. -/
theorem dmaenwrArmsAWrite : Obligations.DmaenwrArmsAWrite :=
  fun cls size options s => ⟨_, rfl, rfl, enableProc_answer .wr ⟨cls, size, options⟩ s⟩

/-! ## The poll budget -/

/-- What is below the rounded-up quotient the model computes on naturals (R117, R121). -/
theorem lt_add_sub_one_div_iff (n k : Nat) {m : Nat} (hm : 1 ≤ m) : k < (n + m - 1) / m ↔ k * m < n := by
  rw [Nat.lt_div_iff_mul_lt hm]
  omega

/-- That quotient is the rational ceiling. -/
theorem add_sub_one_div_eq_ceil (n : Nat) {m : Nat} (hm : 1 ≤ m) : (n + m - 1) / m = ⌈(n : ℚ) / (m : ℚ)⌉₊ := by
  have hpos : (0 : ℚ) < m := by exact_mod_cast hm
  refine eq_of_forall_lt_iff fun k => ?_
  rw [lt_add_sub_one_div_iff n k hm, Nat.lt_ceil, lt_div_iff₀ hpos]
  norm_cast

theorem lt_pollBudget_iff (cfg : Config.Cfg) (timeout : Word) (i : Nat) :
    i < pollBudget cfg timeout ↔ i = 0 ∨ i * cfg.pollMs.val < timeout.toNat := by
  rw [pollBudget, lt_max_iff, Nat.lt_one_iff, lt_add_sub_one_div_iff _ _ cfg.pollMs.property]

theorem one_le_pollBudget (cfg : Config.Cfg) (timeout : Word) : 1 ≤ pollBudget cfg timeout := le_max_left _ _

/-- The budget fits the 32 bits of `POLLS` (R25). -/
theorem pollBudget_lt (cfg : Config.Cfg) (timeout : Word) : pollBudget cfg timeout < 2 ^ 32 := by
  have hm := cfg.pollMs.property
  have hlt := timeout.isLt
  have hge : 2 ^ 32 - 1 ≤ (2 ^ 32 - 1) * cfg.pollMs.val := Nat.le_mul_of_pos_right _ hm
  have hover : ¬ 2 ^ 32 - 1 < pollBudget cfg timeout := by rw [lt_pollBudget_iff]; omega
  omega

/-- Settles O42: the ceiling, and `lt_pollBudget_iff`. -/
theorem pollBudgetIsTheCeiling : Obligations.PollBudgetIsTheCeiling :=
  fun cfg timeout => ⟨congrArg (max 1) (add_sub_one_div_eq_ceil _ cfg.pollMs.property), lt_pollBudget_iff cfg timeout⟩

/-! ## DMAWAIT -/

/-- A count that fits a word is kept by it. -/
theorem toNat_ofNat_word {k : Nat} (h : k < 2 ^ 32) : (BitVec.ofNat 32 k).toNat = k := by
  rw [BitVec.toNat_ofNat, Nat.mod_eq_of_lt h]

theorem ready_eq_false_iff (cfg : Config.Cfg) (r : Reply) :
    ready cfg r = false ↔ r.bytes.headD 0 &&& cfg.rdyMask.val = 0 := by simp [ready]

theorem ready_eq_true_iff (cfg : Config.Cfg) (r : Reply) :
    ready cfg r = true ↔ r.bytes.headD 0 &&& cfg.rdyMask.val ≠ 0 := by simp [ready]

/-- The polls of `WaitReadyProc`; `POLLS` counts them without wrapping (R118). -/
theorem waitReadyProc_trace (here : Seq) (timeout : Word) (s : State) :
    ∃ x, Issued s (waitReadyProc here timeout s).state x
      ∧ PollTrace s.cfg (pollBudget s.cfg timeout) x (waitReadyProc here timeout s).status
      ∧ (waitReadyProc here timeout s).state.polls.toNat = x.length := by
  obtain ⟨x, hhistory, htrace, hpolls⟩ :=
    waitLoop_trace here (pollBudget s.cfg timeout) (s.setPolls 0) (one_le_pollBudget s.cfg timeout)
  refine ⟨x, (waitReadyProc_engine here timeout s).issued hhistory, htrace, ?_⟩
  have hlt := htrace.high.trans_lt (pollBudget_lt s.cfg timeout)
  calc (waitReadyProc here timeout s).state.polls.toNat
    _ = (0#32 + BitVec.ofNat 32 x.length).toNat := congrArg BitVec.toNat hpolls
    _ = x.length := by rw [BitVec.zero_add, toNat_ofNat_word hlt]

/-- Settles O43: `waitReadyProc_trace` for the polls, `waitLoop_keeps` for what they leave alone. -/
theorem dmawaitPolls : Obligations.DmawaitPolls := by
  intro timeout s
  obtain ⟨x, hissued, htrace, hpolls⟩ := waitReadyProc_trace .idle timeout s
  have hengine := waitReadyProc_engine .idle timeout s
  obtain ⟨hdma, hattempt, hscratch, havails⟩ := waitLoop_keeps .idle (pollBudget s.cfg timeout) (s.setPolls 0)
  have hlast := List.getLast?_eq_some_getLast (List.length_pos_iff.mp htrace.low)
  obtain ⟨hfailed, hset, hclear⟩ := htrace.last _ hlast
  simp only [ready_eq_true_iff] at hset
  simp only [ready_eq_false_iff] at hclear
  refine ⟨_, x, _, rfl, rfl, hissued.still rfl rfl, hlast, htrace.tx, fun e he => ?_, htrace.high, hpolls,
    hengine.respond_answers _ _ _, hfailed, hset, hclear, ⟨hdma.dstate, hdma.desc, hdma.remain⟩,
    hengine.respond_frame _ _ _, hattempt, hengine.cand, hengine.probe, hscratch, havails⟩
  exact ⟨(htrace.clear e he).1, (ready_eq_false_iff _ _).mp (htrace.clear e he).2⟩

/-! ## The preconditions of the bulk commands -/

/-- The two checks a bulk command makes before its transfer, which answers `t` (R120). -/
def bulkGate (armed : DState) (n : Word) (s t : State) : State :=
  if n = 0 then s.raise .badOperand else if s.dstate ≠ armed ∨ s.remain < n then s.raise .sequenceFault else t

/-- The response of a bulk-in: the bytes read and their number (R122). -/
def Got.answer (e : Got) : State := e.state.respond e.status (BitVec.ofNat 32 e.out.length) e.out

/-- The response of a bulk-out: the number of bytes moved (R123). -/
def Sent.answer (e : Sent) : State := e.state.respond e.status (BitVec.ofNat 32 e.moved) []

theorem exec_bulkrd (n : Word) (s : State) :
    exec (.bulkrd n) s = .next (bulkGate .armedRd n s (bulkInProc .idle n.toNat s).answer) := rfl

theorem exec_bulkwr (n : Word) (payload : List Byte) (s : State) :
    exec (.bulkwr n payload) s = .next (bulkGate .armedWr n s (bulkOutProc .idle payload s).answer) := rfl

section
variable {armed : DState} {n : Word} {s t : State}

theorem bulkGate_zero (hn : n = 0) : AnswersOnly s (bulkGate armed n s t) .badOperand 0 [] := by
  rw [bulkGate, if_pos hn]
  exact respond_answersOnly _ _ _ _

variable (hn : n ≠ 0)
include hn

theorem bulkGate_unready (hs : s.dstate ≠ armed ∨ s.remain.toNat < n.toNat) :
    AnswersOnly s (bulkGate armed n s t) .sequenceFault 0 [] := by
  rw [bulkGate, if_neg hn, if_pos (by rwa [BitVec.lt_def])]
  exact respond_answersOnly _ _ _ _

theorem bulkGate_ready (hd : s.dstate = armed) (hr : n.toNat ≤ s.remain.toNat) : bulkGate armed n s t = t := by
  rw [bulkGate, if_neg hn, if_neg (by simpa [hd, BitVec.le_def] using hr)]

end

/-- Settles O44: the three ways through `bulkGate`, the same for both directions. -/
theorem bulkPreconditions : Obligations.BulkPreconditions := by
  intro n payload s _
  refine ⟨_, _, exec_bulkrd n s, exec_bulkwr n payload s, fun h0 => ⟨bulkGate_zero h0, bulkGate_zero h0⟩,
    bulkGate_unready, bulkGate_unready, fun hn hd hr => ?_, fun hn hd hr => ?_⟩
  · rw [bulkGate_ready hn hd hr]
    exact (bulkInProc_end .idle n.toNat s).status
  · rw [bulkGate_ready hn hd hr]
    exact (bulkOutProc_end .idle payload s).status

/-! ## The bulk transfers -/

section
variable {s u : State} {st : Status} {moved n : Nat} (h : BulkEnd s u st moved n) (hn : n ≤ s.remain.toNat) (r : Word)
  (out : List Byte)
include h hn

/-- `REMAIN` goes down by what was moved, without wrapping (R121). -/
theorem BulkEnd.remain_toNat (hst : st = .ok) : u.remain.toNat = s.remain.toNat - moved := by
  have hhigh := h.high
  have hlt := s.remain.isLt
  have hm : (BitVec.ofNat 32 moved).toNat = moved := toNat_ofNat_word (by omega)
  rcases h.ends with ⟨-, hremain, -⟩ | ⟨htf, -⟩
  · rw [hremain, BitVec.toNat_sub_of_le (by rw [BitVec.le_def]; omega), hm]
  · simp [hst] at htf

/-- The two endings of an admitted bulk command, told by whether its last chunk failed (R121). -/
theorem BulkEnd.endings {failed : Bool} (hfailed : failed = true ↔ st ≠ .ok) :
    let t := u.respond st r out
    (failed = true → t.status = .transportFailure ∧ Unarmed t)
      ∧ (failed = false → t.status = .ok ∧ t.remain.toNat = s.remain.toNat - moved
          ∧ t.dstate = (if t.remain = 0 then .idle else s.dstate)
          ∧ t.desc = (if t.remain = 0 then ⟨0, 0, 0⟩ else s.desc)) := by
  rcases h.ends with ⟨hst, -, hdstate, hdesc⟩ | ⟨hst, hun⟩
  · have hok : failed = false := by simpa [hst] using hfailed
    exact ⟨fun hf => absurd (hok.symm.trans hf) (by decide), fun _ => ⟨hst, h.remain_toNat hn hst, hdstate, hdesc⟩⟩
  · have htf : failed = true := by simpa [hst] using hfailed
    exact ⟨fun _ => ⟨hst, hun.dstate, hun.desc, hun.remain⟩, fun hf => absurd (htf.symm.trans hf) (by decide)⟩

end

/-- A bulk phase that moved all `n` bytes of the command (R121). -/
theorem BulkEnd.of_full {s u : State} {n : Word} {m : Nat} (h : BulkEnd s u .ok n.toNat m) (r : Word)
    (out : List Byte) :
    let t := u.respond .ok r out
    t.remain = s.remain - n ∧ (t.remain = 0 → Unarmed t) ∧ (t.remain ≠ 0 → t.dstate = s.dstate ∧ t.desc = s.desc) := by
  rcases h.ends with ⟨-, hremain, hdstate, hdesc⟩ | ⟨htf, -⟩
  · rw [BitVec.ofNat_toNat, BitVec.setWidth_eq] at hremain
    exact ⟨hremain, fun h0 => ⟨hdstate.trans (if_pos h0), hdesc.trans (if_pos h0), h0⟩,
      fun h0 => ⟨hdstate.trans (if_neg h0), hdesc.trans (if_neg h0)⟩⟩
  · cases htf

/-- Settles O45: `bulkInProc_trace` for the chunks, `BulkEnd.endings` for the DMA registers. -/
theorem bulkrdMovesByChunks : Obligations.BulkrdMovesByChunks := by
  intro n s hn hd hr
  obtain ⟨x, hissued, htrace⟩ := bulkInProc_trace .idle n.toNat s
  have hengine := bulkInProc_engine .idle n.toNat s
  have hend := bulkInProc_end .idle n.toNat s
  have hexec := exec_bulkrd n s
  rw [bulkGate_ready hn hd hr] at hexec
  generalize bulkInProc .idle n.toNat s = e at *
  have hlast := List.getLast?_eq_some_getLast (htrace.begun (BitVec.toNat_ne.mp hn))
  obtain ⟨hfailed, hfull⟩ := htrace.last _ hlast
  obtain ⟨hfail, hok⟩ := hend.endings hr (BitVec.ofNat 32 e.out.length) e.out hfailed
  rw [hd] at hok
  refine ⟨_, x, _, hexec, hissued.still rfl rfl, hlast, htrace.tx, hengine.respond_answers _ _ _, htrace.got, hfail,
    hok, fun hf => ?_, hengine.respond_keeps _ _ _ hend.held⟩
  exact (hfull.mp hf).2.trans (Nat.zero_add _)

/-- Settles O46: `bulkOutProc_trace` for the chunks, `BulkEnd.endings` for the DMA registers. -/
theorem bulkwrMovesByChunks : Obligations.BulkwrMovesByChunks := by
  intro n payload s hp hn hd hr
  obtain ⟨x, hissued, htrace⟩ := bulkOutProc_trace .idle payload s
  have hengine := bulkOutProc_engine .idle payload s
  have hend := bulkOutProc_end .idle payload s
  have hexec := exec_bulkwr n payload s
  rw [bulkGate_ready hn hd hr] at hexec
  generalize bulkOutProc .idle payload s = e at *
  have hmoved : (BitVec.ofNat 32 e.moved).toNat = e.moved := toNat_ofNat_word (hend.high.trans_lt (hp ▸ n.isLt))
  rw [hp, ← hmoved] at hend
  have hne : payload ≠ [] := fun h0 => BitVec.toNat_ne.mp hn (by rw [← hp, h0]; rfl)
  have hlast := List.getLast?_eq_some_getLast (htrace.begun hne)
  obtain ⟨hfailed, hfull⟩ := htrace.last _ hlast
  obtain ⟨hfail, hok⟩ := hend.endings hr (BitVec.ofNat 32 e.moved) [] hfailed
  rw [hd] at hok
  refine ⟨_, x, _, hexec, hissued.still rfl rfl, hlast, htrace.tx, hengine.respond_answers _ _ _, ?_, hfail, hok,
    fun hf => BitVec.eq_of_toNat_eq ?_, hengine.respond_keeps _ _ _ hend.held⟩
  · exact hmoved.trans (htrace.sum.trans (Nat.zero_add _))
  · exact hmoved.trans (((hfull.mp hf).2.trans (Nat.zero_add _)).trans hp)

/-- As many chunks as the rational ceiling (R121). -/
theorem chunkCount_eq_ceil (cfg : Config.Cfg) (n : Nat) : chunkCount cfg n = ⌈(n : ℚ) / (cfg.maxXfer.val : ℚ)⌉₊ :=
  add_sub_one_div_eq_ceil n cfg.maxXfer.property

theorem ofNat_of_length_eq {data : List Byte} {n : Word} (h : data.length = n.toNat) :
    BitVec.ofNat 32 data.length = n := by
  simp [h]

/-- Settles O47: `bulkInProc_script` for the transactions, `BulkEnd.of_full` for the DMA registers. -/
theorem bulkrdFullTransfer : Obligations.BulkrdFullTransfer := by
  intro n data rest s hn hl hd hr hreplies
  obtain ⟨hstatus, hout, hfollows⟩ := bulkInProc_script .idle data hl hreplies
  have hengine := bulkInProc_engine .idle n.toNat s
  have hend := bulkInProc_end .idle n.toNat s
  have hexec := exec_bulkrd n s
  rw [bulkGate_ready hn hd hr, Got.answer, hstatus, hout, ofNat_of_length_eq hl] at hexec
  rw [hstatus, hout, hl] at hend
  generalize (bulkInProc .idle n.toNat s).state = u at *
  obtain ⟨hremain, hzero, hleft⟩ := hend.of_full n data
  rw [hd] at hleft
  exact ⟨_, hexec, hengine.respond_answers _ _ _, (hengine.issued hfollows.history).still rfl rfl,
    by rw [inScript_length, hl, chunkCount_eq_ceil], hremain, hzero, hleft, hengine.respond_keeps _ _ _ hend.held⟩

/-- Settles O48: `bulkOutProc_script` for the transactions, `BulkEnd.of_full` for the DMA registers. -/
theorem bulkwrFullTransfer : Obligations.BulkwrFullTransfer := by
  intro n data rest s hn hl hd hr hreplies
  obtain ⟨hstatus, hmoved, hfollows⟩ := bulkOutProc_script .idle data hreplies
  have hengine := bulkOutProc_engine .idle data s
  have hend := bulkOutProc_end .idle data s
  have hexec := exec_bulkwr n data s
  rw [bulkGate_ready hn hd hr, Sent.answer, hstatus, hmoved, ofNat_of_length_eq hl] at hexec
  rw [hstatus, hmoved, hl] at hend
  generalize (bulkOutProc .idle data s).state = u at *
  obtain ⟨hremain, hzero, hleft⟩ := hend.of_full n []
  rw [hd] at hleft
  exact ⟨_, hexec, hengine.respond_answers _ _ _, (hengine.issued hfollows.history).still rfl rfl,
    by rw [outScript_length, hl, chunkCount_eq_ceil], hremain, hzero, hleft, hengine.respond_keeps _ _ _ hend.held⟩

end Sys2Proof.Machine

namespace Sys2Proof.Machine

/-! # The DMA composites: their transactions, what the first failure does, Read and Write under a script, and DETECT -/

/-- Settles O21: the count of transactions in `Ran`. -/
theorem everyCommandEndsWithinItsBound : Obligations.EveryCommandEndsWithinItsBound := by
  intro i s hi
  obtain ⟨t, hexec, hran⟩ := exec_ran i s hi
  obtain ⟨added, htrace, -, hbound, -⟩ := hran.grown
  exact ⟨t, added, hexec, htrace, hbound⟩

/-! ## Issued transactions -/

theorem Issued.trace_length {s t : State} {x : Script} (h : Issued s t x) :
    t.trace.length = s.trace.length + x.length := by
  simpa [State.history] using congrArg List.length h.history

/-- The transactions that were issued are those the history has grown by. -/
theorem Issued.eq_of_history {s t : State} {x y : Script} (h : Issued s t x) (hy : t.history = s.history ++ y) : y = x :=
  List.append_cancel_left (hy.symm.trans h.history)

theorem Detecting.issued {n : Nat} {s t : State} {x : Script} (h : Detecting n s t) (hx : t.history = s.history ++ x) :
    Issued s t x := by
  obtain ⟨added, htrace, hreplies, -⟩ := h.grown
  refine ⟨hx, ?_⟩
  simp only [State.history, htrace, List.map_append, List.append_cancel_left_eq] at hx
  rw [hreplies, ← hx, List.length_map]

/-- Where the answers at hand begin with a script's, following the script is issuing it. -/
theorem Follows.issued {s t : State} {x : Script} {more : List Reply} (h : Follows s t x more)
    (hs : s.replies = Script.answers x ++ more) : Issued s t x :=
  ⟨h.history, by simp [h.replies, hs, Script.answers]⟩

/-! ## The first failure is the last transaction (R131) -/

theorem Clean.of_failed {x : Script} {st : Status} (h : Clean x st) : Clean x .transportFailure :=
  fun k e he hn => ⟨(h k e he hn).1, rfl⟩

/-- From `s` to `t` only the last transaction may have failed or been short, and then `st` is `TransportFailure`. -/
def RunsClean (s t : State) (st : Status) : Prop := ∃ x, Issued s t x ∧ Clean x st

theorem RunsClean.refl (s : State) (st : Status) : RunsClean s s st := ⟨[], Issued.refl s, Clean.nil st⟩

theorem RunsClean.trans {s t u : State} {st : Status} (h : RunsClean s t .ok) (k : RunsClean t u st) :
    RunsClean s u st := by
  obtain ⟨x, hx, hxc⟩ := h
  obtain ⟨y, hy, hyc⟩ := k
  exact ⟨x ++ y, hx.trans hy, Clean.append hxc.all hyc⟩

/-- A step that leaves the port alone. -/
theorem RunsClean.still {s t u : State} {st : Status} (h : RunsClean s t st) (hh : u.history = t.history)
    (hr : u.replies = t.replies) : RunsClean s u st := by
  obtain ⟨x, hx, hc⟩ := h
  exact ⟨x, hx.still hh hr, hc⟩

/-- A procedure that a failure ends may answer `TransportFailure` for whatever status it saw. -/
theorem RunsClean.of_failed {s t : State} {st : Status} (h : RunsClean s t st) : RunsClean s t .transportFailure := by
  obtain ⟨x, hx, hc⟩ := h
  exact ⟨x, hx, hc.of_failed⟩

theorem RunsClean.ok {s t : State} {st : Status} (h : RunsClean s t st) (hst : ¬ st ≠ .ok) : RunsClean s t .ok :=
  not_not.mp hst ▸ h

theorem resetProc_runsClean (here : Seq) (s : State) :
    RunsClean s (resetProc here s).state (resetProc here s).status := by
  obtain ⟨r, hissued, hclean, -⟩ := resetProc_clean here s
  exact ⟨_, hissued, hclean⟩

theorem cancelProc_runsClean (here : Seq) (s : State) :
    RunsClean s (cancelProc here s).state (cancelProc here s).status := by
  obtain ⟨r, hissued, hclean, -⟩ := cancelProc_clean here s
  exact ⟨_, hissued, hclean⟩

/-- An Enable that is refused issues nothing. -/
theorem enableProc_runsClean (here : Seq) (dir : Dir) (d : Desc) (s : State) :
    RunsClean s (enableProc here dir d s).state (enableProc here dir d s).status := by
  by_cases hv : d.valid = true
  · by_cases hs : s.dstate = .idle
    · obtain ⟨r, hissued, hclean, -⟩ := enableProc_clean here dir d s hv hs
      exact ⟨_, hissued, hclean⟩
    · rw [enableProc_of_armed here dir hv hs]
      exact RunsClean.refl s _
  · rw [enableProc_of_invalid here dir (by simpa using hv)]
    exact RunsClean.refl s _

theorem writeData_runsClean (here : Seq) {d : Desc} {data : List Byte} (hl : data.length = d.size.toNat) (s : State) :
    RunsClean s (writeData here d data s).state (writeData here d data s).status := by
  obtain ⟨x, hissued, htrace⟩ := bulkOutProc_trace (here.enter .wrData) data s
  obtain ⟨hall, hfailed⟩ := htrace.clean
  simp only [writeData]
  split
  · exact ⟨x, hissued.still rfl rfl, hfailed⟩
  · next hfull =>
    simp only [ne_eq, not_or, not_not] at hfull
    exact ⟨x, hissued, Clean.of_all (hall hfull.1 (by omega)) _⟩

/-- The status an attempt's result stands for: a mismatch is no failure of a transaction (R135, R164). -/
def Attempt.status : Attempt → Status
  | .verified => .ok
  | .mismatch => .ok
  | .failed => .transportFailure

theorem writeAttempt_runsClean (here : Seq) {d : Desc} {data : List Byte} (hl : data.length = d.size.toNat) (s : State) :
    RunsClean s (writeAttempt here d data s).state (writeAttempt here d data s).result.status := by
  have h0 : RunsClean s (s.setAttempt (s.attempt + 1)) .ok := (RunsClean.refl s .ok).still rfl rfl
  have hw := h0.trans (writeData_runsClean here hl (s.setAttempt (s.attempt + 1)))
  simp only [writeAttempt]
  generalize writeData here d data (s.setAttempt (s.attempt + 1)) = w at hw ⊢
  have hv := enableProc_runsClean (here.enter .wrVenable) .rd d w.state
  generalize enableProc (here.enter .wrVenable) .rd d w.state = v at hv ⊢
  obtain ⟨x, hissued, htrace⟩ := bulkInProc_trace (here.enter .wrVdata) d.size.toNat v.state
  obtain ⟨hall, hfailed⟩ := htrace.clean
  generalize bulkInProc (here.enter .wrVdata) d.size.toNat v.state = r at hissued hall hfailed ⊢
  split
  · exact hw.of_failed
  · next hwok =>
    have hw := hw.ok hwok
    split
    · exact (hw.trans hv).of_failed
    · next hvok =>
      have hv := hw.trans (hv.ok hvok)
      split
      · exact hv.trans ⟨x, hissued.still rfl rfl, hfailed⟩
      · next hfull =>
        simp only [ne_eq, not_or, not_not] at hfull
        have hr := hv.trans ⟨x, hissued, Clean.of_all (hall hfull.1 (by simpa using hfull.2)) .ok⟩
        split
        · exact hr.still rfl rfl
        · exact hr.still rfl rfl

theorem writeLoop_runsClean (here : Seq) {d : Desc} {data : List Byte} (hl : data.length = d.size.toNat) (left : Nat)
    (s : State) : RunsClean s (writeLoop here d data left s).state (writeLoop here d data left s).status := by
  induction left generalizing s with
  | zero => exact RunsClean.refl s _
  | succ left ih =>
    have ha := writeAttempt_runsClean here hl s
    simp only [writeLoop]
    generalize writeAttempt here d data s = a at ha ⊢
    have hc := cancelProc_runsClean (here.enter .wrCancel) a.state
    generalize cancelProc (here.enter .wrCancel) a.state = c at hc ⊢
    have he := enableProc_runsClean (here.enter .wrReenable) .wr d c.state
    generalize enableProc (here.enter .wrReenable) .wr d c.state = e at he ⊢
    split
    · next hres => rwa [hres] at ha
    · exact ha.of_failed
    · next hres =>
      rw [hres] at ha
      have hac := RunsClean.trans ha hc
      split
      · exact hac.of_failed
      · next hcok =>
        split
        · exact hac.of_failed
        · have hace := (hac.ok hcok).trans he
          split
          · exact hace.of_failed
          · next heok => exact (hace.ok heok).trans (ih e.state)

theorem dmaWriteProc_runsClean (here : Seq) {d : Desc} {data : List Byte} (hl : data.length = d.size.toNat) (s : State) :
    RunsClean s (dmaWriteProc here d data s).state (dmaWriteProc here d data s).status := by
  have h0 : RunsClean s (s.setAttempt 0).sampleScratch .ok := (RunsClean.refl s .ok).still rfl rfl
  simp only [dmaWriteProc, writeBody]
  generalize (s.setAttempt 0).sampleScratch = s0 at h0 ⊢
  have ha := h0.trans (resetProc_runsClean (here.enter .wrReset) s0)
  generalize resetProc (here.enter .wrReset) s0 = a at ha ⊢
  have hb := enableProc_runsClean (here.enter .wrEnable) .wr d a.state
  generalize enableProc (here.enter .wrEnable) .wr d a.state = b at hb ⊢
  split
  · exact RunsClean.refl s _
  · split
    · exact ha.of_failed.still rfl rfl
    · next haok =>
      have hab := (ha.ok haok).trans hb
      split
      · exact hab.of_failed.still rfl rfl
      · next hbok =>
        have hab := hab.ok hbok
        split
        · exact (hab.trans (writeLoop_runsClean here hl _ _)).still rfl rfl
        · exact (hab.trans (writeData_runsClean here hl _)).still rfl rfl


/-! ## Read -/

/-- A transaction whose `ok` carries nothing brings no bytes (R51). -/
theorem bytes_nextReply_eq_nil {tx : Transaction} (h : ∀ m bs, (tx.fit (.ok m bs)).bytes = []) (s : State) :
    (s.nextReply tx).bytes = [] := by
  unfold State.nextReply
  cases s.replies.headD _ with
  | fail => rfl
  | ok m bs => exact h m bs

theorem clean_singleton_status {tx : Transaction} {r : Reply} (h : r.failed = false → full (tx, r)) :
    Clean [(tx, r)] r.status :=
  Clean.one fun hn => status_of_failed (by simpa using mt h hn)

/-- The transactions `DmaReadProc` issues when nothing stops it (R132). -/
def readPlan (cfg : Config.Cfg) (d : Desc) : List Transaction :=
  [.dmaReset, enableTx .rd d] ++ (List.range (chunkCount cfg d.size.toNat)).map fun k =>
    .bulkIn (min cfg.maxXfer.val (d.size.toNat - cfg.maxXfer.val * k))

/-- The transactions of a bulk-in are the first of the chunks of `left` bytes (R121). -/
theorem InTrace.prefix_chunks {cfg : Config.Cfg} {left : Nat} {out out' : List Byte} {x : Script} {st : Status}
    (h : InTrace cfg.maxXfer.val left out x st out') :
    x.map Prod.fst <+: (List.range (chunkCount cfg left)).map fun k =>
      Transaction.bulkIn (min cfg.maxXfer.val (left - cfg.maxXfer.val * k)) := by
  have hpos := cfg.maxXfer.property
  have hlen : x.length ≤ chunkCount cfg left := by
    rw [chunkCount, Nat.le_div_iff_mul_le hpos]
    have := h.length
    omega
  rw [List.prefix_iff_getElem?]
  intro k hk
  rw [List.length_map] at hk
  rw [List.getElem?_map, List.getElem?_range (by omega), Option.map_some, List.getElem_map,
    (h.tx k _ (List.getElem?_eq_getElem hk)).1]

/-- What a Read with a valid descriptor put on the port and what came of it (R130 to R132). -/
structure ReadTrace (cfg : Config.Cfg) (d : Desc) (x : Script) (st : Status) (out : List Byte) : Prop where
  plan : x.map Prod.fst <+: readPlan cfg d
  got : out = x.flatMap fun e => e.2.bytes
  clean : Clean x st

theorem dmaReadProc_trace (here : Seq) {d : Desc} (hv : d.valid = true) (s : State) :
    ∃ x, Issued s (dmaReadProc here d s).state x
      ∧ ReadTrace s.cfg d x (dmaReadProc here d s).status (dmaReadProc here d s).out := by
  have ha : Issued s (resetProc (here.enter .rdReset) s).state [(.dmaReset, s.nextReply .dmaReset)] :=
    (exchange_issued s _ .dmaReset).still rfl rfl
  have hac : Clean [(.dmaReset, s.nextReply .dmaReset)] (resetProc (here.enter .rdReset) s).status :=
    clean_singleton_status id
  have hae := resetProc_engine (here.enter .rdReset) s
  have hau := resetProc_unarmed (here.enter .rdReset) s
  have hnone := bytes_nextReply_eq_nil (tx := .dmaReset) (fun _ _ => rfl) s
  unfold dmaReadProc
  rw [if_neg (by simp [hv])]
  simp only
  generalize resetProc (here.enter .rdReset) s = a at ha hac hae hau ⊢
  have hb := enableProc_issued (here.enter .rdEnable) .rd hv hau.dstate
  have hbc : Clean [(enableTx .rd d, a.state.nextReply (enableTx .rd d))]
      (enableProc (here.enter .rdEnable) .rd d a.state).status :=
    enableProc_status (here.enter .rdEnable) .rd hv hau.dstate ▸ clean_singleton_status id
  have hbe := enableProc_engine (here.enter .rdEnable) .rd d a.state
  have hnone' := bytes_nextReply_eq_nil (tx := enableTx .rd d) (fun _ _ => rfl) a.state
  generalize enableProc (here.enter .rdEnable) .rd d a.state = b at hb hbc hbe ⊢
  obtain ⟨x, hx, htrace⟩ := bulkInProc_trace (here.enter .rdData) d.size.toNat b.state
  obtain ⟨hall, hfailed⟩ := htrace.clean
  have hgot := htrace.got
  have hplan := htrace.prefix_chunks
  rw [hbe.cfg, hae.cfg] at hplan
  generalize bulkInProc (here.enter .rdData) d.size.toNat b.state = e at hx hall hgot ⊢
  split
  · exact ⟨_, ha, ⟨_, rfl⟩, by simp [hnone], hac.of_failed⟩
  · next haok =>
    rw [not_not.mp haok] at hac
    have hab := ha.trans hb
    split
    · exact ⟨_, hab, ⟨_, rfl⟩, by simp [hnone, hnone'], Clean.append hac.all hbc.of_failed⟩
    · next hbok =>
      rw [not_not.mp hbok] at hbc
      have hpre := hac.all
      have hfull := (Clean.append hpre hbc).all
      have hprefix := (List.prefix_append_right_inj [Transaction.dmaReset, enableTx .rd d]).mpr hplan
      have hout : e.out = ([(.dmaReset, s.nextReply .dmaReset)] ++ [(enableTx .rd d, a.state.nextReply (enableTx .rd d))]
          ++ x : Script).flatMap fun e => e.2.bytes := by simp [hnone, hnone', hgot]
      split
      · exact ⟨_, hab.trans (hx.still rfl rfl), hprefix, hout, Clean.append hfull hfailed⟩
      · next hend =>
        simp only [ne_eq, not_or, not_not] at hend
        exact ⟨_, hab.trans hx, hprefix, hout,
          Clean.append hfull (Clean.of_all (hall hend.1 (by simpa using hend.2)) _)⟩

theorem dmaReadProc_of_invalid (here : Seq) {d : Desc} (s : State) (hv : d.valid = false) :
    dmaReadProc here d s = ⟨s, .badOperand, []⟩ := if_pos hv

/-- DMAREAD answers its procedure's status and bytes (R132). -/
theorem exec_dmaread (cls : Half) (size options : Word) (s : State) :
    exec (.dmaread cls size options) s = .next (dmaReadProc .idle ⟨cls, size, options⟩ s).answer := rfl

/-- Settles O49: the operand check, then `dmaReadProc_trace` for the transactions and `dmaReadProc_end` for the
registers. -/
theorem dmareadOutcomes : Obligations.DmareadOutcomes := by
  intro cls size options s
  have hiff : (⟨cls, size, options⟩ : Desc).valid = true ↔ size ≠ 0 ∧ size.toNat % 2 = 0 := Desc.valid_iff _
  by_cases hv : (⟨cls, size, options⟩ : Desc).valid = true
  · obtain ⟨hne, heven⟩ := hiff.mp hv
    obtain ⟨x, hissued, htrace⟩ := dmaReadProc_trace .idle hv s
    have hend := dmaReadProc_end .idle ⟨cls, size, options⟩ s hv
    refine ⟨_, x, exec_dmaread cls size options s, hissued.still rfl rfl, fun hbad => ?_, fun _ _ => ?_⟩
    · rcases hbad with hzero | hodd
      · exact absurd hzero hne
      · omega
    · generalize dmaReadProc .idle ⟨cls, size, options⟩ s = e at htrace hend ⊢
      obtain ⟨hengine, hheld, hun, hhigh, hends⟩ := hend
      have hanswers := hengine.respond_answers e.status (BitVec.ofNat 32 e.out.length) e.out
      refine ⟨htrace.plan, ?_, htrace.got, ⟨hun.dstate, hun.desc, hun.remain⟩, hengine.respond_keeps _ _ _ hheld⟩
      rcases hends with ⟨hst, hlen⟩ | hst
      · rw [hst, ofNat_of_length_eq hlen] at hanswers
        exact .inl ⟨by rw [Got.answer, hst, ofNat_of_length_eq hlen]; exact hanswers, hlen⟩
      · rw [hst] at hanswers
        exact .inr ⟨by rw [Got.answer, hst]; exact hanswers, hhigh⟩
  · refine ⟨_, [], exec_dmaread cls size options s, ?_, fun _ => ?_, fun hne heven => absurd (hiff.mpr ⟨hne, heven⟩) hv⟩
    · rw [dmaReadProc_of_invalid .idle s (by simpa using hv)]
      exact (Issued.refl s).still rfl rfl
    · rw [dmaReadProc_of_invalid .idle s (by simpa using hv)]
      exact respond_answersOnly s .badOperand 0 []

theorem readScript_length (cfg : Config.Cfg) (d : Desc) (data : List Byte) :
    (readScript cfg d data).length = 2 + chunkCount cfg data.length := by
  simp [readScript, inScript_length]
  omega

/-- A DMAREAD with a valid size that follows the script of a full Read (R132). -/
theorem exec_dmaread_script {cls : Half} {size options : Word} {data : List Byte} {rest : List Reply} {s : State}
    (hv : (⟨cls, size, options⟩ : Desc).valid = true) (hl : data.length = size.toNat)
    (h : s.replies = Script.answers (readScript s.cfg ⟨cls, size, options⟩ data) ++ rest) :
    ∃ t, exec (.dmaread cls size options) s = .next t ∧ Answers s t .ok size data
      ∧ Follows s t (readScript s.cfg ⟨cls, size, options⟩ data) rest ∧ Unarmed t ∧ EngineFrame s t ∧ SameWork s t
      ∧ t.avails = s.avails := by
  obtain ⟨hstatus, hout, hfollows⟩ := dmaReadProc_script .idle hv hl h
  obtain ⟨hengine, hheld, hun, -, -⟩ := dmaReadProc_end .idle ⟨cls, size, options⟩ s hv
  have hexec := exec_dmaread cls size options s
  rw [Got.answer, hstatus, hout, ofNat_of_length_eq hl] at hexec
  exact ⟨_, hexec, hengine.respond_answers _ _ _, hfollows.still rfl rfl, ⟨hun.dstate, hun.desc, hun.remain⟩,
    hengine.respond_keeps _ _ _ hheld⟩

/-- Settles O50: `exec_dmaread_script`. -/
theorem dmareadReturnsTheData : Obligations.DmareadReturnsTheData := by
  intro cls size options data rest s hne heven hl h
  obtain ⟨t, hexec, hanswers, hfollows, hkept⟩ := exec_dmaread_script ((Desc.valid_iff _).mpr ⟨hne, heven⟩) hl h
  have hissued := hfollows.issued h
  refine ⟨t, hexec, hanswers, hissued, ?_, hkept⟩
  rw [hissued.trace_length, readScript_length, hl, Nat.add_assoc]


/-! ## The commands that end at the first failure (R131) -/

theorem dmaread_runsClean {cls : Half} {size options : Word} {s t : State}
    (h : exec (.dmaread cls size options) s = .next t) :
    RunsClean s t t.status ∧ (t.status = .transportFailure → Unarmed t) := by
  rw [exec_dmaread, Host.Outcome.next.injEq] at h
  subst h
  by_cases hv : (⟨cls, size, options⟩ : Desc).valid = true
  · obtain ⟨x, hissued, htrace⟩ := dmaReadProc_trace .idle hv s
    have hun := (dmaReadProc_end .idle ⟨cls, size, options⟩ s hv).unarmed
    exact ⟨⟨x, hissued.still rfl rfl, htrace.clean⟩, fun _ => ⟨hun.dstate, hun.desc, hun.remain⟩⟩
  · rw [dmaReadProc_of_invalid .idle s (by simpa using hv)]
    exact ⟨(RunsClean.refl s _).still rfl rfl, fun h => by cases h⟩

theorem dmawrite_runsClean {cls : Half} {size options : Word} {payload : List Byte} {s t : State}
    (hl : payload.length = size.toNat) (h : exec (.dmawrite cls size options payload) s = .next t) :
    RunsClean s t t.status ∧ (t.status = .transportFailure → Unarmed t) := by
  by_cases hv : (⟨cls, size, options⟩ : Desc).valid = true
  · rw [exec_dmawrite_of_valid payload s hv, Host.Outcome.next.injEq] at h
    subst h
    obtain ⟨-, -, -, -, hun, -⟩ := dmaWriteProc_end .idle ⟨cls, size, options⟩ payload s hv hl
    exact ⟨(dmaWriteProc_runsClean .idle hl s).still rfl rfl, fun _ => ⟨hun.dstate, hun.desc, hun.remain⟩⟩
  · rw [exec_dmawrite_of_invalid payload s (by simpa using hv), Host.Outcome.next.injEq] at h
    subst h
    exact ⟨(RunsClean.refl s _).still rfl rfl, fun h => by cases h⟩

theorem exec_settype (code : BitVec 3) (s : State) :
    exec (.settype code) s = .next (setTypeProc .idle code s).answer := rfl

theorem setTypeProc_of_invalid (here : Seq) {code : BitVec 3} (s : State) (hc : maxCode < code) :
    setTypeProc here code s = ⟨s, .badOperand⟩ := if_pos hc

/-- The one transaction of `SetTypeProc` with a code 0 to 4 (R139). -/
theorem setTypeProc_issued (here : Seq) {code : BitVec 3} (s : State) (hc : code ≤ maxCode) :
    ∃ r, Issued s (setTypeProc here code s).state [(.regWrite .reg s.cfg.ramtypeAddr
        [setField s.cfg.ramtypeMask.val (code.setWidth 8) (s.riByte (ramOff s))], r)]
      ∧ (setTypeProc here code s).status = r.status := by
  have hend := setTypeProc_end here code s hc
  obtain ⟨r, hhistory, hstatus⟩ := hend.pushed
  rw [hend.byte] at hhistory
  exact ⟨r, hend.detecting.issued hhistory, hstatus⟩

theorem settype_runsClean {code : BitVec 3} {s t : State} (h : exec (.settype code) s = .next t) :
    RunsClean s t t.status := by
  rw [exec_settype, Host.Outcome.next.injEq] at h
  subst h
  by_cases hc : code ≤ maxCode
  · obtain ⟨r, hissued, hstatus⟩ := setTypeProc_issued .idle s hc
    refine ⟨_, hissued.still rfl rfl, ?_⟩
    rw [Done.answer, respond_status, hstatus]
    exact clean_singleton_status id
  · rw [setTypeProc_of_invalid .idle s (BitVec.not_le.mp hc)]
    exact (RunsClean.refl s _).still rfl rfl

/-- Settles O24: each of the three commands runs clean, and only the last transaction of a clean run can have failed. -/
theorem compositesStopAtTheFirstFailure : Obligations.CompositesStopAtTheFirstFailure := by
  intro i s t x hi hop h hx e n he hn
  have hruns : RunsClean s t t.status ∧ (i.op ≠ .settype → t.status = .transportFailure → Unarmed t) := by
    cases i
    case dmaread cls size options => exact (dmaread_runsClean h).imp_right fun hun _ => hun
    case dmawrite cls size options payload =>
      exact (dmawrite_runsClean (wellFormed_iff.mp hi) h).imp_right fun hun _ => hun
    case settype code => exact ⟨settype_runsClean h, fun hne => absurd rfl hne⟩
    all_goals simp [Instr.op] at hop
  obtain ⟨⟨y, hissued, hclean⟩, hun⟩ := hruns
  obtain rfl := hissued.eq_of_history hx
  obtain ⟨hlast, hstatus⟩ := hclean n e he hn
  exact ⟨hlast, hstatus, fun hne => hun hne hstatus⟩

/-- Settles O57: `SetTypeEnd` for the field and the registers, `setTypeProc_issued` for the transaction. -/
theorem settypeSetsFieldThenDevice : Obligations.SettypeSetsFieldThenDevice := by
  intro code s
  refine ⟨_, lsb s.cfg.ramtypeMask.val, exec_settype code s, rfl, lsb_isLsb _, fun hbad => ?_, fun hgood => ?_⟩
  · have hc : maxCode < code := by rw [maxCode_eq, BitVec.lt_def]; exact hbad
    rw [setTypeProc_of_invalid .idle s hc]
    exact respond_answersOnly s .badOperand 0 []
  · have hc : code ≤ maxCode := by rw [maxCode_eq, BitVec.le_def]; exact hgood
    obtain ⟨r, hissued, hstatus⟩ := setTypeProc_issued .idle s hc
    obtain ⟨hdetecting, hheld, hdma, hcand, hprobe, hbyte, -⟩ := setTypeProc_end .idle code s hc
    refine ⟨r, hissued.still rfl rfl, ⟨hstatus, rfl, rfl, rfl, ?_⟩, fun a => ?_, ⟨hdma.dstate, hdma.desc, hdma.remain⟩,
      ⟨hheld.attempt, hheld.polls, hcand, hprobe, hheld.scratch⟩, ⟨hdetecting.cfg, hdetecting.host⟩, hheld.avails⟩
    · simp [Done.answer, hdetecting.responses, hstatus, Reply.status]
    · split
      · next ha => subst ha; exact hbyte
      · next ha => exact hdetecting.others a ha

/-! ## Write under a script -/

theorem attemptScript_length (cfg : Config.Cfg) (d : Desc) {data back : List Byte} {n : Nat} (hd : data.length = n)
    (hb : back.length = n) : (attemptScript cfg d data back).length = 2 * chunkCount cfg n + 2 := by
  simp [attemptScript, outScript_length, inScript_length, hd, hb]
  omega

theorem mismatchScript_length (cfg : Config.Cfg) (d : Desc) {data : List Byte} {bad : List (List Byte)} {n : Nat}
    (hd : data.length = n) (hbad : ∀ back ∈ bad, back.length = n) :
    (mismatchScript cfg d data bad).length = bad.length * (2 * chunkCount cfg n + 3) := by
  induction bad with
  | nil => simp [mismatchScript]
  | cons back bad ih =>
    have hih := ih fun b hb => hbad b (by simp [hb])
    have hone := attemptScript_length cfg d hd (hbad back (by simp))
    simp only [mismatchScript] at hih ⊢
    rw [List.flatMap_cons, List.length_append, List.length_append, hone, hih, List.length_cons, List.length_cons,
      Nat.succ_mul bad.length, List.length_nil]
    omega

theorem blindWriteScript_length (cfg : Config.Cfg) (d : Desc) (data : List Byte) :
    (blindWriteScript cfg d data).length = 2 + chunkCount cfg data.length := by
  simp [blindWriteScript, outScript_length]
  omega

/-- The transactions of a verified Write: a Reset, an attempt and a Cancel for each of `bad`, and, if `final`, an attempt
that reads back the data (R135). -/
def verifiedScript (cfg : Config.Cfg) (d : Desc) (data : List Byte) (bad : List (List Byte)) (final : Bool) : Script :=
  (.dmaReset, okay) :: (mismatchScript cfg d data bad ++ if final then attemptScript cfg d data data else [])

theorem writeScript_eq (cfg : Config.Cfg) (d : Desc) (data : List Byte) (bad : List (List Byte)) :
    writeScript cfg d data bad = verifiedScript cfg d data bad true := rfl

theorem failedWriteScript_eq (cfg : Config.Cfg) (d : Desc) (data : List Byte) (bad : List (List Byte)) :
    failedWriteScript cfg d data bad = verifiedScript cfg d data bad false := by
  simp [failedWriteScript, verifiedScript]

section
variable {cls : Half} {size options : Word} {payload : List Byte} {rest : List Reply} {s t : State}
  (hv : (⟨cls, size, options⟩ : Desc).valid = true) (hl : payload.length = size.toNat)
  (hexec : exec (.dmawrite cls size options payload) s = .next t)
include hv hl hexec

/-- A DMAWRITE with a scratch buffer that follows the script of a verified Write (R135, R136). -/
theorem dmawrite_script (hav : s.nextAvail = true) (final : Bool) {bad : List (List Byte)}
    (hbad : ∀ back ∈ bad, back.length = size.toNat ∧ back ≠ payload)
    (hlen : if final then bad.length < Config.writeAttempts else bad.length = Config.writeAttempts)
    (h : s.replies = Script.answers (verifiedScript s.cfg ⟨cls, size, options⟩ payload bad final) ++ rest) :
    t.status = (if final then .ok else .transportFailure) ∧ t.attempt = bad.length + (if final then 1 else 0)
      ∧ t.res = BitVec.ofNat 32 t.attempt
      ∧ Follows s t (verifiedScript s.cfg ⟨cls, size, options⟩ payload bad final) rest := by
  obtain ⟨hstatus, hattempt, hfollows⟩ := dmaWriteProc_script .idle hv hl hav final bad hbad hlen h
  rw [exec_dmawrite_of_valid payload s hv, Host.Outcome.next.injEq] at hexec
  subst hexec
  exact ⟨hstatus, hattempt, rfl, hfollows.still rfl rfl⟩

/-- A DMAWRITE without a scratch buffer that follows its script (R134, R136). -/
theorem dmawrite_blindScript (hav : s.nextAvail = false)
    (h : s.replies = Script.answers (blindWriteScript s.cfg ⟨cls, size, options⟩ payload) ++ rest) :
    t.status = .ok ∧ t.attempt = 0 ∧ t.res = BitVec.ofNat 32 t.attempt
      ∧ Follows s t (blindWriteScript s.cfg ⟨cls, size, options⟩ payload) rest := by
  obtain ⟨hstatus, hattempt, hfollows⟩ := dmaWriteProc_blind .idle hv hl hav h
  rw [exec_dmawrite_of_valid payload s hv, Host.Outcome.next.injEq] at hexec
  subst hexec
  exact ⟨hstatus, hattempt, rfl, hfollows.still rfl rfl⟩

end

/-- Settles O52: `dmawrite_script` with a last attempt that matches, `dmawriteOutcomes` for the frame. -/
theorem dmawriteMatchesOnTheLastAttempt : Obligations.DmawriteMatchesOnTheLastAttempt := by
  intro cls size options payload bad rest s hne heven hl hav hlen hbad h
  obtain ⟨t, hexec, -, hvalid⟩ := dmawriteOutcomes cls size options payload s hl
  obtain ⟨-, hanswers, -, -, -, -, hkept⟩ := hvalid hne heven
  rw [writeScript_eq] at h ⊢
  obtain ⟨hstatus, hattempt, -, hfollows⟩ :=
    dmawrite_script ((Desc.valid_iff _).mpr ⟨hne, heven⟩) hl hexec hav true hbad
      (by simpa [Config.writeAttempts] using hlen) h
  have hissued := hfollows.issued h
  refine ⟨t, hexec, ?_, hissued, ?_, hattempt, hkept⟩
  · rwa [hstatus, hattempt] at hanswers
  · rw [hissued.trace_length, verifiedScript, List.length_cons, List.length_append,
      mismatchScript_length _ _ hl fun back hb => (hbad back hb).1, if_pos rfl, attemptScript_length _ _ hl hl,
      Nat.succ_mul bad.length]
    omega

/-- Settles O53: `dmawrite_script` without a last attempt that matches, `dmawriteOutcomes` for the frame. -/
theorem dmawriteGivesUpAfterTen : Obligations.DmawriteGivesUpAfterTen := by
  intro cls size options payload bad rest s hne heven hl hav hlen hbad h
  obtain ⟨t, hexec, -, hvalid⟩ := dmawriteOutcomes cls size options payload s hl
  obtain ⟨-, hanswers, -, -, -, -, hun, hframe, -⟩ := hvalid hne heven
  rw [failedWriteScript_eq] at h ⊢
  obtain ⟨hstatus, hattempt, -, hfollows⟩ :=
    dmawrite_script ((Desc.valid_iff _).mpr ⟨hne, heven⟩) hl hexec hav false hbad
      (by simpa [Config.writeAttempts] using hlen) h
  have hissued := hfollows.issued h
  refine ⟨t, hexec, ?_, hissued, ?_, hun, hframe⟩
  · rwa [hstatus, hattempt, hlen] at hanswers
  · rw [hissued.trace_length, verifiedScript, List.length_cons, List.length_append,
      mismatchScript_length _ _ hl fun back hb => (hbad back hb).1, hlen]
    rfl

/-- Settles O54: `dmawrite_blindScript`, `dmawriteOutcomes` for the frame. -/
theorem dmawriteWithoutScratch : Obligations.DmawriteWithoutScratch := by
  intro cls size options payload rest s hne heven hl hav h
  obtain ⟨t, hexec, -, hvalid⟩ := dmawriteOutcomes cls size options payload s hl
  obtain ⟨-, hanswers, -, -, -, -, hun, hframe, -⟩ := hvalid hne heven
  obtain ⟨hstatus, hattempt, -, hfollows⟩ :=
    dmawrite_blindScript ((Desc.valid_iff _).mpr ⟨hne, heven⟩) hl hexec hav h
  have hissued := hfollows.issued h
  refine ⟨t, hexec, ?_, hissued, ?_, hattempt, hun, hframe⟩
  · rwa [hstatus, hattempt] at hanswers
  · rw [hissued.trace_length, blindWriteScript_length, hl]

/-- Settles O56: `dmawrite_script` or `dmawrite_blindScript`, as the sample is, then `exec_dmaread_script`. -/
theorem writeThenReadRoundTrip : Obligations.WriteThenReadRoundTrip := by
  intro cls size options data rest s hne heven hl h
  have hv := (Desc.valid_iff ⟨cls, size, options⟩).mpr ⟨hne, heven⟩
  obtain ⟨t, hexec, -, hvalid⟩ := dmawriteOutcomes cls size options data s hl
  obtain ⟨-, -, -, -, -, -, -, hframe, -⟩ := hvalid hne heven
  rw [List.append_assoc] at h
  generalize hx : (if s.nextAvail then writeScript s.cfg ⟨cls, size, options⟩ data []
    else blindWriteScript s.cfg ⟨cls, size, options⟩ data) = x at h ⊢
  obtain ⟨hstatus, hres, hfollows⟩ : t.status = .ok ∧ t.res = (if s.nextAvail then 1 else 0)
      ∧ Follows s t x (Script.answers (readScript s.cfg ⟨cls, size, options⟩ data) ++ rest) := by
    by_cases hav : s.nextAvail = true
    · rw [if_pos hav, writeScript_eq] at hx
      subst hx
      obtain ⟨hstatus, hattempt, hres, hfollows⟩ := dmawrite_script hv hl hexec hav true (by simp) (by decide) h
      exact ⟨hstatus, by rw [hres, hattempt, if_pos hav]; rfl, hfollows⟩
    · rw [if_neg hav] at hx
      subst hx
      obtain ⟨hstatus, hattempt, hres, hfollows⟩ := dmawrite_blindScript hv hl hexec (by simpa using hav) h
      exact ⟨hstatus, by rw [hres, hattempt, if_neg hav]; rfl, hfollows⟩
  have hread := hfollows.replies
  rw [← hframe.setting.cfg] at hread
  obtain ⟨u, hexec', hanswers, hfollows', -⟩ := exec_dmaread_script hv hl hread
  have hissued := hfollows'.issued hread
  rw [hframe.setting.cfg] at hissued
  exact ⟨t, u, hexec, hexec', hfollows.issued h, hissued, hstatus, hres, hanswers.status, hanswers.dout,
    hfollows'.replies⟩


/-! ## A verified Write has read back its data -/

/-- The transactions from `s` to `t` end with an EnableRead of `d` that did not fail and the bulk-ins that brought `data`
(R135). -/
def EndsReadBack (d : Desc) (data : List Byte) (s t : State) : Prop :=
  ∃ (before back : Script) (r : Reply), Issued s t (before ++ (enableTx .rd d, r) :: back) ∧ r.failed = false
    ∧ (∀ e ∈ back, ∃ n, e.1 = .bulkIn n) ∧ back.flatMap (fun e => e.2.bytes) = data

section
variable {d : Desc} {data : List Byte} {s t u : State}

theorem EndsReadBack.after {x : Script} (k : EndsReadBack d data t u) (h : Issued s t x) : EndsReadBack d data s u := by
  obtain ⟨before, back, r, hissued, hback⟩ := k
  exact ⟨x ++ before, back, r, by rw [List.append_assoc]; exact h.trans hissued, hback⟩

theorem EndsReadBack.still (h : EndsReadBack d data s t) (hh : u.history = t.history) (hr : u.replies = t.replies) :
    EndsReadBack d data s u := by
  obtain ⟨before, back, r, hissued, hback⟩ := h
  exact ⟨before, back, r, hissued.still hh hr, hback⟩

end

/-- An Enable that ends `OK` is one transaction that did not fail (R113). -/
theorem enableProc_issued_of_ok {here : Seq} {dir : Dir} {d : Desc} {s : State}
    (h : (enableProc here dir d s).status = .ok) :
    ∃ r, Issued s (enableProc here dir d s).state [(enableTx dir d, r)] ∧ r.failed = false := by
  have hv : d.valid = true := by
    by_contra hv
    rw [enableProc_of_invalid here dir (by simpa using hv)] at h
    cases h
  have hs : s.dstate = .idle := by
    by_contra hs
    rw [enableProc_of_armed here dir hv hs] at h
    cases h
  obtain ⟨r, hissued, -, hok⟩ := enableProc_clean here dir d s hv hs
  exact ⟨r, hissued, hok h⟩

theorem writeAttempt_endsReadBack {here : Seq} {d : Desc} {data : List Byte} {s : State}
    (hl : data.length = d.size.toNat) (h : (writeAttempt here d data s).result = .verified) :
    EndsReadBack d data s (writeAttempt here d data s).state := by
  have h0 : Issued s (s.setAttempt (s.attempt + 1)) [] := (Issued.refl s).still rfl rfl
  obtain ⟨x, hw, -⟩ := writeData_runsClean here hl (s.setAttempt (s.attempt + 1))
  simp only [writeAttempt] at h ⊢
  generalize writeData here d data (s.setAttempt (s.attempt + 1)) = w at h hw ⊢
  have hv := enableProc_issued_of_ok (here := here.enter .wrVenable) (dir := .rd) (d := d) (s := w.state)
  generalize enableProc (here.enter .wrVenable) .rd d w.state = v at h hv ⊢
  obtain ⟨back, hr, htrace⟩ := bulkInProc_trace (here.enter .wrVdata) d.size.toNat v.state
  have hgot := htrace.got
  generalize bulkInProc (here.enter .wrVdata) d.size.toNat v.state = b at h hr hgot ⊢
  split at h
  · cases h
  · next hwok =>
    rw [if_neg hwok]
    split at h
    · cases h
    · next hvok =>
      rw [if_neg hvok]
      obtain ⟨r, hv, hrok⟩ := hv (not_not.mp hvok)
      split at h
      · cases h
      · next hfull =>
        rw [if_neg hfull]
        split at h
        · next heq =>
          rw [if_pos heq]
          have hback : EndsReadBack d data w.state b.state := by
            refine ⟨[], back, r, hv.trans hr, hrok, fun e he => ?_, hgot.symm.trans (Option.some.inj heq)⟩
            obtain ⟨k, hk⟩ := List.mem_iff_getElem?.mp he
            exact ⟨_, (htrace.tx k e hk).1⟩
          exact ((hback.after hw).after h0).still rfl rfl
        · cases h

theorem writeLoop_endsReadBack {here : Seq} {d : Desc} {data : List Byte} (hl : data.length = d.size.toNat) {left : Nat}
    {s : State} (h : (writeLoop here d data left s).status = .ok) :
    EndsReadBack d data s (writeLoop here d data left s).state := by
  induction left generalizing s with
  | zero => cases h
  | succ left ih =>
    obtain ⟨x, ha, -⟩ := writeAttempt_runsClean here hl s
    have hverified := writeAttempt_endsReadBack (here := here) (s := s) hl
    simp only [writeLoop] at h ⊢
    generalize writeAttempt here d data s = a at h ha hverified ⊢
    obtain ⟨y, hc, -⟩ := cancelProc_runsClean (here.enter .wrCancel) a.state
    generalize cancelProc (here.enter .wrCancel) a.state = c at h hc ⊢
    obtain ⟨z, he, -⟩ := enableProc_runsClean (here.enter .wrReenable) .wr d c.state
    generalize enableProc (here.enter .wrReenable) .wr d c.state = e at h he ⊢
    cases hres : a.result with
    | verified => exact hverified hres
    | failed => rw [hres] at h; cases h
    | mismatch =>
      rw [hres] at h
      simp only at h ⊢
      split at h
      · cases h
      · next hcok =>
        rw [if_neg hcok]
        split at h
        · cases h
        · next hmore =>
          rw [if_neg hmore]
          split at h
          · cases h
          · next heok =>
            rw [if_neg heok]
            exact (((ih h).after he).after hc).after ha

theorem dmaWriteProc_endsReadBack {here : Seq} {d : Desc} {data : List Byte} {s : State} (hl : data.length = d.size.toNat)
    (hav : s.nextAvail = true) (h : (dmaWriteProc here d data s).status = .ok) :
    EndsReadBack d data s (dmaWriteProc here d data s).state := by
  have h0 : Issued s (s.setAttempt 0).sampleScratch [] := (Issued.refl s).still rfl rfl
  unfold dmaWriteProc writeBody at h ⊢
  simp only [hav, if_true] at h ⊢
  generalize (s.setAttempt 0).sampleScratch = s0 at h h0 ⊢
  obtain ⟨x, ha, -⟩ := resetProc_runsClean (here.enter .wrReset) s0
  generalize resetProc (here.enter .wrReset) s0 = a at h ha ⊢
  obtain ⟨y, hb, -⟩ := enableProc_runsClean (here.enter .wrEnable) .wr d a.state
  generalize enableProc (here.enter .wrEnable) .wr d a.state = b at h hb ⊢
  split at h
  · cases h
  · next hv =>
    rw [if_neg hv]
    simp only at h ⊢
    split at h
    · cases h
    · next haok =>
      rw [if_neg haok]
      split at h
      · cases h
      · next hbok =>
        rw [if_neg hbok]
        exact ((((writeLoop_endsReadBack hl h).after hb).after ha).after h0).still rfl rfl

/-- Settles O55: what `DmaWriteProc` did last before it ended `OK`. -/
theorem dmawriteOkMeansReadBackEqual : Obligations.DmawriteOkMeansReadBackEqual := by
  intro cls size options payload s t hl hav hexec hok
  have hends : EndsReadBack ⟨cls, size, options⟩ payload s t := by
    by_cases hv : (⟨cls, size, options⟩ : Desc).valid = true
    · rw [exec_dmawrite_of_valid payload s hv, Host.Outcome.next.injEq] at hexec
      subst hexec
      exact (dmaWriteProc_endsReadBack hl hav hok).still rfl rfl
    · rw [exec_dmawrite_of_invalid payload s (by simpa using hv), Host.Outcome.next.injEq] at hexec
      subst hexec
      cases hok
  obtain ⟨before, back, r, hissued, hrest⟩ := hends
  exact ⟨before, back, r, by rw [List.append_assoc]; exact hissued.history, hrest⟩


/-! ## DETECT as a host would run it -/

/-- A coarse phase that does not accept a code ends DETECT, with nothing armed (R141, R142). -/
theorem detect_of_aborted {s : State} (h : (detectCoarse Config.ramtypeCodes s).verdict = .aborted) :
    detect s = ((detectCoarse Config.ramtypeCodes s).state.disarm.setProbe 0).respond .transportFailure 0 [] := by
  simp only [detect, h]

theorem detect_of_rejected {s : State} (h : (detectCoarse Config.ramtypeCodes s).verdict = .rejected) :
    detect s = ((detectCoarse Config.ramtypeCodes s).state.disarm.setProbe 0).respond .initFatal 0 [] := by
  simp only [detect, h]

theorem detect_of_accepted {s : State} (h : (detectCoarse Config.ramtypeCodes s).verdict = .accepted) :
    detect s = detectRefineFinish (detectCoarse Config.ramtypeCodes s).state.cand
      (detectCoarse Config.ramtypeCodes s).state := by
  simp only [detect, h]

/-- A Write or Read of the refine phase that does not end `OK` ends DETECT (R145). -/
theorem detectRefineFinish_of_aborted {k : BitVec 3} {s : State} (h : (detectRefine Config.probes s).verdict = .aborted) :
    detectRefineFinish k s = ((detectRefine Config.probes s).state.setProbe 0).respond .transportFailure 0 [] := by
  simp only [detectRefineFinish, h]

/-- Otherwise it finishes with the class of the probe that matched, or of none (R145, R146). -/
theorem detectRefineFinish_of_found {k : BitVec 3} {s : State} (h : (detectRefine Config.probes s).verdict ≠ .aborted) :
    detectRefineFinish k s = detectFinish (hostClass k (detectRefine Config.probes s))
      ((detectRefine Config.probes s).state.setProbe 0) := by
  have hcfg := (detectRefine_end Config.probes s).detecting.cfg
  simp only [detectRefineFinish, hostClass, hcfg]
  cases hv : (detectRefine Config.probes s).verdict with
  | accepted => rfl
  | rejected => rfl
  | aborted => exact absurd hv h

theorem hostClass_alike (k : BitVec 3) {r q : Judged} (h : Alike r.state q.state) (hv : q.verdict = r.verdict) :
    hostClass k q = hostClass k r := by
  simp only [hostClass, h.cfg, h.probe, hv]

theorem hostClass_le (k : BitVec 3) (r : Judged) : hostClass k r ≤ maxCode := refineClass_le _ _ _

/-- A phase that gives up has the effects of the commands a host would have run for it (R141, R145). -/
theorem Alike.effects_giveUp {s t : State} (h : Alike s t) (st : Status) :
    SameEffects t ((s.setProbe 0).respond st 0 []) :=
  { h.symm.effects with setting := ⟨h.symm.cfg, h.symm.host⟩ }

theorem Alike.effects_giveUp_disarmed {s t : State} (h : Alike s t) (st : Status) :
    SameEffects t ((s.disarm.setProbe 0).respond st 0 []) :=
  { h.symm.effects with setting := ⟨h.symm.cfg, h.symm.host⟩ }

/-- A SETTYPE with a code 0 to 4 ends `OK` or `TransportFailure` (R139). -/
theorem after_settype_status (s : State) {code : BitVec 3} (hc : code ≤ maxCode) :
    (after (.settype code) s).status = .ok ∨ (after (.settype code) s).status = .transportFailure :=
  (setTypeProc_end .idle code s hc).status

/-- The four ways a DETECT ends, told by what a host would see that runs its phases as commands. -/
structure HostDetect (s t : State) (c r : Judged) (f : State) (cls : BitVec 3) : Prop where
  rejected : c.verdict = .rejected → t.status = .initFatal ∧ SameEffects c.state t
  aborted : c.verdict = .aborted → t.status = .transportFailure ∧ SameEffects c.state t
  refineAborted : c.verdict = .accepted → r.verdict = .aborted → t.status = .transportFailure ∧ SameEffects r.state t
  finished : c.verdict = .accepted → r.verdict ≠ .aborted →
    t.status = f.status ∧ (t.status = .ok → t.res = cls.setWidth 32) ∧ SameEffects f t

theorem detect_host (s : State) :
    let c := hostCoarse Config.ramtypeCodes s
    let r := hostRefine Config.probes c.state
    let cls := hostClass c.state.cand r
    HostDetect s (detect s) c r (after (.settype cls) r.state) cls := by
  intro c r cls
  obtain ⟨hc, hcv⟩ := detectCoarse_host Config.ramtypeCodes (Alike.refl s)
  obtain ⟨hr, hrv⟩ := detectRefine_host Config.probes hc
  have hcls : hostClass c.state.cand (detectRefine Config.probes (detectCoarse Config.ramtypeCodes s).state) = cls :=
    (hostClass_alike _ hr hrv).symm
  refine ⟨fun hv => ?_, fun hv => ?_, fun hv hrab => ?_, fun hv hrab => ?_⟩
  · rw [detect_of_rejected (hcv.symm.trans hv)]
    exact ⟨rfl, hc.effects_giveUp_disarmed _⟩
  · rw [detect_of_aborted (hcv.symm.trans hv)]
    exact ⟨rfl, hc.effects_giveUp_disarmed _⟩
  · rw [detect_of_accepted (hcv.symm.trans hv), detectRefineFinish_of_aborted (hrv.symm.trans hrab)]
    exact ⟨rfl, hr.effects_giveUp _⟩
  · rw [detect_of_accepted (hcv.symm.trans hv), detectRefineFinish_of_found (hrv ▸ hrab), ← hc.cand, hcls]
    exact detectFinish_host hr (hostClass_le _ _)

/-- A field that reads as 0 has no bit of the mask set (R91). -/
theorem and_mask_eq_zero_of_getField {m b : Byte} (h : getField m b = 0) : b &&& m = 0 := by
  refine BitVec.eq_of_getLsbD_eq fun i hi => ?_
  rw [BitVec.ofNat_eq_ofNat, BitVec.getLsbD_zero]
  by_cases hlow : i < lsb m
  · rcases lsb_isLsb m with ⟨h0, -⟩ | ⟨-, hmin⟩
    · simp [h0]
    · simp [hmin i hlow]
  · have hbit := congrArg (fun x : Byte => x.getLsbD (i - lsb m)) h
    simp only [getField, BitVec.getLsbD_ushiftRight, Nat.add_sub_cancel' (Nat.le_of_not_lt hlow)] at hbit
    simpa using hbit

/-- Settles O58: `detect_host` for the outcomes, `detect_end` for the registers and the image. -/
theorem detectOutcomes : Obligations.DetectOutcomes := by
  intro s c r cls f
  obtain ⟨hrejected, haborted, hrefine, hfinished⟩ : HostDetect s (detect s) c r f cls := detect_host s
  have hanswers := (ran_detect s).answers
  obtain ⟨hending, hun, hprobe, -, -, hcand, hdout, houtcome⟩ := detect_end s
  rw [hdout] at hanswers
  refine ⟨detect s, rfl, ?_, ⟨fun hst => ?_, fun hv => (hrejected hv).1⟩, fun hv => (hrejected hv).2, haborted, hrefine,
    hfinished, hanswers, hun, hprobe, ?_, ⟨hending.cfg, hending.host⟩, hending.others, hending.outside⟩
  · rcases houtcome with ⟨hst, hres, -⟩ | ⟨hst, hres, hzero, hfield⟩ | htf
    · exact .inl ⟨hst, hres⟩
    · exact .inr (.inl ⟨hst, hres, hzero, and_mask_eq_zero_of_getField hfield⟩)
    · exact .inr (.inr htf)
  · cases hv : c.verdict with
    | rejected => rfl
    | aborted => simp [(haborted hv).1] at hst
    | accepted =>
      by_cases hrv : r.verdict = .aborted
      · simp [(hrefine hv hrv).1] at hst
      · rw [(hfinished hv hrv).1] at hst
        rcases after_settype_status r.state (hostClass_le c.state.cand r) with hok | htf
        · cases hok.symm.trans hst
        · cases htf.symm.trans hst
  · rw [maxCode_eq] at hcand
    exact hcand

/-- Settles O59: `detect_end` for the field and the last transaction, `bfgetReturnsTheField` for the getter. -/
theorem detectOkLeavesTheClass : Obligations.DetectOkLeavesTheClass := by
  intro s t hexec hok
  cases hexec
  have hend := detect_end s
  rcases hend.outcome with ⟨-, hres, hfield, before, r, hhistory, hr⟩ | ⟨hst, -⟩ | ⟨hst, -⟩
  · have hlt : s.cfg.ramtypeOff.val < 1818 := s.cfg.ramtypeOff.isLt
    have hoff : (BitVec.ofNat 16 s.cfg.ramtypeOff.val).toNat = s.cfg.ramtypeOff.val := by
      rw [BitVec.toNat_ofNat, Nat.mod_eq_of_lt]
      omega
    obtain ⟨u, k, hu, -, hk, hget, -⟩ :=
      bfgetReturnsTheField (BitVec.ofNat 16 s.cfg.ramtypeOff.val) s.cfg.ramtypeMask.val (detect s)
    rw [hoff] at hget
    obtain ⟨hanswers, -⟩ := hget (by omega)
    refine ⟨u, before, r, hu, hanswers.status, ?_, hhistory, hr⟩
    rw [hanswers.res, hk.unique (lsb_isLsb _)]
    rw [getField] at hfield
    refine (congrArg (BitVec.setWidth 32) hfield).trans ?_
    bv_omega
  · cases hok.symm.trans hst
  · cases hok.symm.trans hst

/-- The class of a refine phase that ended with the probe `p`, or with none (R145). -/
theorem hostClass_of_script {k : BitVec 3} {r : Judged} {p : Option Byte}
    (hsome : ∀ q, p = some q → r.verdict = .accepted ∧ r.state.probe = q) (hnone : p = none → r.verdict = .rejected) :
    r.verdict ≠ .aborted ∧ hostClass k r = refineClass r.state.cfg k p := by
  cases p with
  | some q =>
    obtain ⟨hv, hq⟩ := hsome q rfl
    simp [hostClass, hv, hq]
  | none => simp [hostClass, hnone rfl]

/-- The refine phase and the finish under a script: the probes of `missed` miss, the next one, if there is one, matches,
and the class found is pushed over a RAM-type byte that differs from `b` in the field only (R145, R146). -/
theorem detectRefineFinish_script {k cls : BitVec 3} {missed : List (List Byte)} {u : State} {b : Byte}
    {rest : List Reply} {am : List Bool} (hcls : refineClass u.cfg k Config.probes[missed.length]? = cls)
    (hlen : missed.length ≤ Config.probes.length)
    (hb : ∀ v, setField u.cfg.ramtypeMask.val v (u.riByte (ramOff u)) = setField u.cfg.ramtypeMask.val v b)
    (havails : u.avails = List.replicate (min Config.probes.length (missed.length + 1)) true ++ am)
    (hmissed : ∀ c ∈ Config.probes.zip missed, c.2.length = Config.refLen ∧ c.2 ≠ refPattern u.cfg c.1)
    (h : u.replies = Script.answers (refineScript u.cfg missed
      ++ [(.regWrite .reg u.cfg.ramtypeAddr [setField u.cfg.ramtypeMask.val (cls.setWidth 8) b], okay)]) ++ rest) :
    let t := detectRefineFinish k u
    Follows u t (refineScript u.cfg missed
        ++ [(.regWrite .reg u.cfg.ramtypeAddr [setField u.cfg.ramtypeMask.val (cls.setWidth 8) b], okay)]) rest
      ∧ t.status = .ok ∧ t.res = cls.setWidth 32 ∧ t.cand = u.cand ∧ t.avails = am
      ∧ getField u.cfg.ramtypeMask.val (t.riByte (ramOff u)) = cls.setWidth 8 := by
  intro t
  rw [answers_append, List.append_assoc] at h
  obtain ⟨hsome, hnone, hravails, hrfollows⟩ :=
    detectRefine_script missed (ps := Config.probes) hlen havails hmissed h
  have hrefine := detectRefine_end Config.probes u
  obtain ⟨hrv, hrcls⟩ := hostClass_of_script (k := k) hsome hnone
  have ht : t = _ := detectRefineFinish_of_found (k := k) hrv
  rw [hrcls, hrefine.detecting.cfg, hcls] at ht
  generalize detectRefine Config.probes u = r at hrefine hravails hrfollows ht
  have hcfg : (r.state.setProbe 0).cfg = u.cfg := hrefine.detecting.cfg
  have hoff : ramOff (r.state.setProbe 0) = ramOff u := congrArg (fun c => c.ramtypeOff.val) hcfg
  have hbyte : (r.state.setProbe 0).riByte (ramOff u) = u.riByte (ramOff u) := riByte_congr hcfg hrefine.ri _
  obtain ⟨hfollows, hstatus, hres, hcand, havails', hfield⟩ :=
    detectFinish_script (hcls ▸ refineClass_le _ _ _) (u := r.state.setProbe 0) (more := rest)
      (by rw [hoff, hcfg, hbyte]; exact hb) hrfollows.replies
  rw [← ht, hcfg] at hfollows
  rw [← ht] at hstatus hres hcand havails'
  rw [← ht, hoff, hcfg] at hfield
  exact ⟨hfollows.after hrfollows rfl rfl, hstatus, hres, hcand.trans hrefine.cand, havails'.trans hravails, hfield⟩

/-- Settles O60: the script of the coarse phase, then that of the refine phase and the finish. -/
theorem detectFindsTheSupportedCode : Obligations.DetectFindsTheSupportedCode := by
  intro s k ready rejected missed rest availsRest cls b hready hprefix hrejected hlen hmissed havails hreplies
  have hall := hreplies
  rw [detectScript, List.append_assoc (rejectedScript _ _ _ _ ++ _), answers_append, List.append_assoc] at hreplies
  rw [List.replicate_add, List.append_assoc] at havails
  have hcfg := (detectCoarse_end Config.ramtypeCodes s codes_le).detecting.cfg
  obtain ⟨hverdict, hcand, hfollows, havails', hbyte⟩ :=
    detectCoarse_script rejected (b := b) codes_le hprefix (fun _ => rfl) hready havails hrejected hreplies
  have hdetect := detect_of_accepted hverdict
  generalize (detectCoarse Config.ramtypeCodes s).state = u at *
  have hoff : ramOff u = ramOff s := congrArg (fun c => c.ramtypeOff.val) hcfg
  have hafter := hfollows.replies
  rw [← hcfg] at hmissed hafter
  rw [← hcfg, ← hoff] at hbyte
  obtain ⟨hfollows', hstatus, hres, hcand', havails'', hfield⟩ :=
    detectRefineFinish_script (k := k) (cls := cls) (congrArg (refineClass · k _) hcfg) hlen hbyte havails' hmissed hafter
  rw [hcand] at hdetect
  rw [← hdetect, hcfg] at hfollows'
  rw [← hdetect] at hstatus hres hcand' havails''
  rw [← hdetect, hoff, hcfg] at hfield
  have hend := detect_end s
  have hanswers := (ran_detect s).answers
  rw [hstatus, hres, hend.dout] at hanswers
  have hwhole := hfollows.trans hfollows'
  rw [← List.append_assoc] at hwhole
  exact ⟨detect s, rfl, hanswers, hwhole.issued hall, hfield, hcand'.trans hcand, hend.probe, hend.unarmed, havails''⟩

end Sys2Proof.Machine

namespace Sys2Proof.Machine

/-! # The responses: the statuses of R160, the faults of R165, illegal headers -/

/-- A command sent to the idle block ends as `Ended` says, against the block that has taken the input (R178). -/
theorem step_command_ended {s t : State} {c : Command} {rest : List HostInput} (hs : s.seq = .idle)
    (hh : s.host = .command c :: rest) (h : step s = .next t) : Ended { s with host := rest } t := by
  rw [step_of_idle hs hh] at h
  exact runCommand_ended h

/-- Settles O10: the statuses from `Ran`, the codes by computation. -/
theorem statusesOfEachCommand : Obligations.StatusesOfEachCommand :=
  ⟨fun _ _ _ hi h => (ran_of_exec hi h).status, rfl, rfl, rfl, rfl, rfl, rfl, rfl, rfl⟩

/-- Settles O11: a fault is raised before anything is done, for a command that runs and for an illegal header alike. -/
theorem faultingCommandsAreNoOps : Obligations.FaultingCommandsAreNoOps :=
  fun _ _ _ _ hs hh h hfault => (step_command_ended hs hh h).fault hfault

/-- Settles O7: the port answers an illegal header itself, and answering changes nothing else. -/
theorem illegalHeaderOnlyAnswers : Obligations.IllegalHeaderOnlyAnswers :=
  fun _ _ _ _ hs hh hd =>
    ⟨_, (step_of_idle hs hh).trans (runCommand_of_illegal hd _), respond_answersOnly _ _ _ _⟩

end Sys2Proof.Machine
